-- ==== Sys2Proof/Word.lean ====
section
/-! DEFINITION. The word types of the block: bytes and 16-bit operand words (spec 00_scope.md R8). -/

namespace Sys2Proof

/-- A byte: 8 bits, unsigned (R8). -/
abbrev Byte := BitVec 8

/-- An operand word: `INT16`, read as two's complement by `BitVec.toInt` (R8, R82). -/
abbrev Operand := BitVec 16

end Sys2Proof
end

