-- ==== Sys2Proof/Config.lean ====
section
/-! DEFINITION. The fixed numbers (00_scope.md R6), the open parameters with their default column and constraint
column (R7), the oracle of unmapped reads (20_memory.md R60) and the byte an unlisted memory address reads as. -/

namespace Sys2Proof

/-- Logical columns `W` (R6). -/
abbrev Config.W : Nat := 17
/-- Logical rows `H` (R6). -/
abbrev Config.H : Nat := 7
/-- Cells per plane `NCELL` (R6). -/
abbrev Config.NCELL : Nat := 144
/-- Frames `NFRAME` (R6). -/
abbrev Config.NFRAME : Nat := 8
/-- Bytes of the enable mask and of the blink mask, `MASKBYTES` (R6). -/
abbrev Config.MASKBYTES : Nat := 18
/-- Bytes per bulk transfer of FILL, `CHUNK` (R6). -/
abbrev Config.CHUNK : Nat := 24
/-- Bulk transfers per FILL of the intensity plane, `NCHUNK` (R6). -/
abbrev Config.NCHUNK : Nat := 6
/-- Autoplay delay unit in ms, `AP_UNIT` (R6). -/
abbrev Config.AP_UNIT : Int := 11
/-- Sample-rate divisor unit, `SR_UNIT` (R6). -/
abbrev Config.SR_UNIT : Int := 46
/-- Gain divisor, `GAIN_UNIT` (R6). -/
abbrev Config.GAIN_UNIT : Int := 3
/-- Blink-rate unit in ms, `BLINK_UNIT` (R6). -/
abbrev Config.BLINK_UNIT : Nat := 270
/-- Fade duration unit in ms, `FADE_UNIT` (R6). -/
abbrev Config.FADE_UNIT : Nat := 26

/-- The oracle of unmapped reads: draw number `n` is this byte, under no law (R60; 93 U1, U2). A free value: it has no
body, so nothing can be proved of it. Log entry 4. -/
opaque Config.freeByte : Nat → Byte

/-- What a frame-buffer byte that the memory list does not list reads as. DESIGN CHOICE, unsafe: the spec gives no
power-on contents (R46). Log entry 3. -/
def Config.unlistedByte : Byte := 0x00

/-- The open parameters, one field per row of R7. The machine's configuration: State carries it and no step writes it
(log entry 1). -/
structure Params where
  devAddr       : BitVec 7
  bankAddress   : Byte
  configBank    : Byte
  enableOffset  : Byte
  blinkOffset   : Byte
  colorOffset   : Byte
  regMode       : Byte
  regFrame      : Byte
  regAutoplay1  : Byte
  regAutoplay2  : Byte
  regBlink      : Byte
  regAudiosync  : Byte
  regBreath1    : Byte
  regBreath2    : Byte
  regShutdown   : Byte
  regGain       : Byte
  regAdc        : Byte
  modePicture   : Byte
  modeAutoplay  : Byte
  modeAudioplay : Byte
  modeMask      : Byte
  shutdownOn    : Byte
  shutdownOff   : Byte
  audiosyncOff  : Byte
  blinkEn       : Byte
  breathEn      : Byte
  /-- a bit index of the gain register, which has 8 bits (log entry 21) -/
  agcEnBit      : Fin 8
  /-- a bit index of the gain register, which has 8 bits (log entry 21) -/
  agcFastBit    : Fin 8
  /-- microseconds; no rule reads it (R203) -/
  resetDelay    : Nat
  pixelBlinkImpl : Bool
  deriving DecidableEq, Repr

/-- The default column of R7. -/
def Params.default : Params where
  devAddr       := 0x74
  bankAddress   := 0xFD
  configBank    := 0x0B
  enableOffset  := 0x00
  blinkOffset   := 0x12
  colorOffset   := 0x24
  regMode       := 0x00
  regFrame      := 0x01
  regAutoplay1  := 0x02
  regAutoplay2  := 0x03
  regBlink      := 0x05
  regAudiosync  := 0x06
  regBreath1    := 0x08
  regBreath2    := 0x09
  regShutdown   := 0x0A
  regGain       := 0x0B
  regAdc        := 0x0C
  modePicture   := 0x00
  modeAutoplay  := 0x08
  modeAudioplay := 0x18
  modeMask      := 0x18
  shutdownOn    := 0x00
  shutdownOff   := 0x01
  audiosyncOff  := 0x00
  blinkEn       := 0x08
  breathEn      := 0x10
  agcEnBit      := 3
  agcFastBit    := 4
  resetDelay    := 10
  pixelBlinkImpl := false

/-- The 11 configuration register offsets in the order of 10_state.md R26. -/
def Params.regOffsets (p : Params) : List Byte :=
  [p.regMode, p.regFrame, p.regAutoplay1, p.regAutoplay2, p.regBlink, p.regAudiosync,
   p.regBreath1, p.regBreath2, p.regShutdown, p.regGain, p.regAdc]

/-- `a` lies in the region of `n` bytes that starts at `off`. -/
abbrev Params.inRegion (off : Byte) (n : Nat) (a : Byte) : Prop :=
  off.toNat ≤ a.toNat ∧ a.toNat < off.toNat + n

/-- The constraint column of R7, one field per constraint: what the rules need of any value. -/
structure Params.Ok (p : Params) : Prop where
  bank_not_enable   : ¬ Params.inRegion p.enableOffset 18 p.bankAddress
  bank_not_blink    : ¬ Params.inRegion p.blinkOffset 18 p.bankAddress
  bank_not_color    : ¬ Params.inRegion p.colorOffset 144 p.bankAddress
  bank_not_config   : p.bankAddress ∉ p.regOffsets
  config_not_frame  : 8 ≤ p.configBank.toNat
  enable_fits       : p.enableOffset.toNat + 18 ≤ 256
  blink_fits        : p.blinkOffset.toNat + 18 ≤ 256
  color_fits        : p.colorOffset.toNat + 144 ≤ 256
  enable_blink_apart : p.enableOffset.toNat + 18 ≤ p.blinkOffset.toNat ∨
    p.blinkOffset.toNat + 18 ≤ p.enableOffset.toNat
  enable_color_apart : p.enableOffset.toNat + 18 ≤ p.colorOffset.toNat ∨
    p.colorOffset.toNat + 144 ≤ p.enableOffset.toNat
  blink_color_apart : p.blinkOffset.toNat + 18 ≤ p.colorOffset.toNat ∨
    p.colorOffset.toNat + 144 ≤ p.blinkOffset.toNat
  regs_distinct     : p.regOffsets.Nodup
  picture_low       : p.modePicture &&& 0x07 = 0
  autoplay_low      : p.modeAutoplay &&& 0x07 = 0
  audioplay_low     : p.modeAudioplay &&& 0x07 = 0
  mask_low          : p.modeMask &&& 0x07 = 0
  picture_autoplay  : p.modePicture &&& p.modeMask ≠ p.modeAutoplay &&& p.modeMask
  picture_audioplay : p.modePicture &&& p.modeMask ≠ p.modeAudioplay &&& p.modeMask
  autoplay_audioplay : p.modeAutoplay &&& p.modeMask ≠ p.modeAudioplay &&& p.modeMask
  shutdown_distinct : p.shutdownOn ≠ p.shutdownOff
  blinkEn_high      : p.blinkEn &&& 0x07 = 0
  breathEn_high     : p.breathEn &&& 0x07 = 0
  agcEn_high        : 3 ≤ p.agcEnBit.val
  agcFast_high      : 3 ≤ p.agcFastBit.val
  agc_distinct      : p.agcEnBit ≠ p.agcFastBit

/-- DEDUCED from 10_state.md R27 ("Field `[4:3]` (mask `MODE_MASK`) is the mode"): each mode value lies inside the mode
field, which R43's test needs. The constraint column of R7 does not say it, so it is a hypothesis of its own where a
statement is about `LState` (log entry 19). -/
structure Params.ModesInField (p : Params) : Prop where
  picture   : p.modePicture &&& p.modeMask = p.modePicture
  autoplay  : p.modeAutoplay &&& p.modeMask = p.modeAutoplay
  audioplay : p.modeAudioplay &&& p.modeMask = p.modeAudioplay

end Sys2Proof
end

