-- ==== Sys2Proof/Syntax.lean ====
section
/-! DEFINITION. The abstract syntax: the 16 commands of 30_encoding.md R80 and the two bus transactions of R88, one
constructor per row of spec/opcode_table.json. An absent optional operand is `none`. -/

namespace Sys2Proof

/-- PXM command set v1: the 16 commands and the two bus transactions (00_scope.md R2). -/
inductive Instr where
  /-- SELB (41 R110) -/
  | selb (bank : Operand)
  /-- RDR (41 R111) -/
  | rdr (bank reg : Operand)
  /-- WRR (41 R112) -/
  | wrr (bank reg value : Operand)
  /-- RESET (42 R120) -/
  | reset
  /-- INIT (42 R121) -/
  | init
  /-- SLEEP (42 R122) -/
  | sleep (enable : Operand)
  /-- AUTOPLAY (42 R123) -/
  | autoplay (delayMs loops frames : Operand)
  /-- AUDIOPLAY (42 R124) -/
  | audioplay (sampleRateHz gain agcEnable agcFast : Operand)
  /-- BLINKRATE (42 R125) -/
  | blinkrate (rateMs : Operand)
  /-- BLINKQ (42 R126) -/
  | blinkq
  /-- FADE (42 R127) -/
  | fade (fadeInMs fadeOutMs : Option Operand) (pauseMs : Operand)
  /-- XLAT (43 R145) -/
  | xlat (x y : Operand)
  /-- FILL (44 R150) -/
  | fill (frame color blink : Option Operand)
  /-- WRAW (44 R151); `len` is the length of the payload -/
  | wraw (frame : Option Operand) (payload : List Byte)
  /-- SETPX (44 R152) -/
  | setpx (x y : Operand) (color blink frame : Option Operand)
  /-- FRAME (44 R153) -/
  | frame (frame : Operand)
  /-- BWR, the write transaction (40 R100) -/
  | bwr (dev : BitVec 7) (reg : Byte) (data : List Byte)
  /-- BRD, the read transaction (40 R101) -/
  | brd (dev : BitVec 7) (reg : Byte) (n : Nat)
  deriving DecidableEq, Repr

/-- The instruction is a command of the BRP (format `C`), not a bus transaction (format `T`). -/
def Instr.isCommand : Instr → Bool
  | .selb _ | .rdr _ _ | .wrr _ _ _ | .reset | .init | .sleep _ | .autoplay _ _ _
  | .audioplay _ _ _ _ | .blinkrate _ | .blinkq | .fade _ _ _ | .xlat _ _ | .fill _ _ _
  | .wraw _ _ | .setpx _ _ _ _ _ | .frame _ => true
  | .bwr _ _ _ | .brd _ _ _ => false

end Sys2Proof
end

