-- ==== Sys2Proof/Machine/State.lean ====
section
/-! DEFINITION. The state of the machine as plain data (10_state.md R20 to R47), the reasons a step can stop, and the state
after power-on. -/

namespace Sys2Proof.Machine

/-- Why the machine stops with a fault. The hardware has no traps (60_exceptions.md R170): its error outcomes are
responses, and no meaning raises a fault. -/
inductive Fault where
  /-- raised by `step` when the bytes another bus master presents are no transaction record of R88; safe: the model
  stops (log entry 10) -/
  | malformedRecord
  deriving DecidableEq, Repr

/-- Why the machine refuses. -/
inductive Refusal where
  /-- raised by `exec` for an instruction without a meaning; safe -/
  | notModelled (mnemonic : String)
  /-- raised by FILL, WRAW, SETPX and AUTOPLAY when they read AF while it holds no value: such a command "has no meaning
  in this spec and a model refuses it" (10_state.md R38, 44_frame_store.md R154, 92_eei_decisions.md D35,
  93_implementation_defined.md U5); safe (log entry 5) -/
  | activeFrameUnset
  deriving DecidableEq, Repr

/-- The 11 registers of the configuration bank, in the order of R26. -/
inductive CfgName where
  | mode | frame | autoplay1 | autoplay2 | blink | audiosync | breath1 | breath2 | shutdown | gain | adc
  deriving DecidableEq, Repr

/-- The configuration bank: 11 byte registers (R26 to R37). -/
structure CfgBank where
  mode      : Byte
  frame     : Byte
  autoplay1 : Byte
  autoplay2 : Byte
  blink     : Byte
  audiosync : Byte
  breath1   : Byte
  breath2   : Byte
  shutdown  : Byte
  gain      : Byte
  adc       : Byte
  deriving DecidableEq, Repr

/-- A location of the device: what `Resolve` names (20_memory.md R50). -/
inductive Loc where
  /-- the bank-select register (R21) -/
  | bsr
  /-- `EN[f][k]` (R23) -/
  | en (f : Fin 8) (k : Fin 18)
  /-- `BL[f][k]` (R23) -/
  | bl (f : Fin 8) (k : Fin 18)
  /-- `INT[f][i]` (R23) -/
  | int (f : Fin 8) (i : Fin 144)
  /-- `CFG[name]` (R26) -/
  | cfg (n : CfgName)
  /-- no register (R60) -/
  | unmapped
  deriving DecidableEq, Repr

/-- The frame buffer RAM: (address, byte) pairs with strictly rising addresses and no byte that an unlisted address reads
as. Addresses are 180·f + 0..17 (enable), + 18..35 (blink), + 36..179 (intensity). -/
abbrev Memory := List Host.Cell

/-- The sequencer phase `PH` (R40). -/
inductive Phase where
  | idle
  | busy
  deriving DecidableEq, Repr

/-- The outcome a command is answered with (30_encoding.md R86, 60_exceptions.md R170). -/
inductive Status where
  | ok
  | rangeError
  | sizeError
  | illegalCommand
  deriving DecidableEq, Repr

/-- One response of the command port (R86). -/
structure Response where
  status : Status
  value  : BitVec 16
  deriving DecidableEq, Repr

/-- Who emitted a transaction: a command (R44), EXT (R67) or another master of the bus. -/
inductive Emitter where
  | command (i : Instr)
  | ext
  | busMaster
  deriving DecidableEq, Repr

/-- A bus transaction with its data; `out` of a read is what this device answered, `none` when it was not addressed
(40_bus_transactions.md R100, R101). -/
inductive BusOp where
  | bwr (dev : BitVec 7) (reg : Byte) (data : List Byte)
  | brd (dev : BitVec 7) (reg : Byte) (n : Nat) (out : Option (List Byte))
  deriving DecidableEq, Repr

/-- An entry of the trace `TR` (R44). -/
structure Txn where
  emitter : Emitter
  op      : BusOp
  deriving DecidableEq, Repr

/-- A move of the external agent EXT (20_memory.md R67). -/
inductive ExtMove where
  /-- move (a): `BSR <- any byte` -/
  | setBsr (v : Byte)
  /-- move (b): the external reset -/
  | reset
  deriving DecidableEq, Repr

/-- What an agent does in its turn. -/
inductive Event where
  /-- HOST presents bytes on the command port (00_scope.md R3, 10_state.md R41) -/
  | hostSend (bytes : List Byte)
  /-- HOST receives one response (00_scope.md R3, 30_encoding.md R86) -/
  | hostReceive
  /-- the BRP serves the command port -/
  | brp
  /-- EXT moves (R67) -/
  | ext (m : ExtMove)
  /-- another bus master presents a transaction record to DEV (log entry 8) -/
  | bus (record : List Byte)
  /-- DISP samples the frame buffer RAM, which changes nothing (R66) -/
  | disp
  deriving DecidableEq, Repr

/-- The state of the machine. -/
structure State where
  /-- the implementation parameters (00_scope.md R7), written by no step (log entry 1) -/
  params    : Params
  /-- bank-select register `BSR` (R21) -/
  bsr       : Byte
  /-- the eight frame banks (R23) -/
  fbr       : Memory
  /-- the configuration bank (R26) -/
  cfg       : CfgBank
  /-- the device's register pointer `PTR`: no value outside a transaction (R39) -/
  ptr       : Option Byte
  /-- the active-frame latch `AF`: 0 to 7 or no value (R38) -/
  af        : Option (Fin 8)
  /-- the sequencer phase `PH` (R40) -/
  ph        : Phase
  /-- the trace `TR`, oldest first (R44); ghost state -/
  tr        : List Txn
  /-- the responses given and not yet received by HOST, oldest first (R86; log entry 12) -/
  responses : List Response
  /-- the bytes HOST has presented on the command port and the BRP has not consumed (R81; log entry 12) -/
  cmdPort   : List Byte
  /-- the turns of the agents to come (log entry 7) -/
  agenda    : List Event
  /-- how many oracle bytes have been drawn (R60; log entry 4) -/
  draws     : Nat
  deriving DecidableEq, Repr

/-- The outcome of a step. -/
abbrev Result := Host.Outcome State Fault Refusal

/-- The configuration bank with every register zero. -/
def CfgBank.zero : CfgBank where
  mode := 0
  frame := 0
  autoplay1 := 0
  autoplay2 := 0
  blink := 0
  audiosync := 0
  breath1 := 0
  breath2 := 0
  shutdown := 0
  gain := 0
  adc := 0

/-- Power-on (R46, R190): AF without a value, PH idle, the trace empty. The device registers, which the spec leaves
unspecified, are zero here: DESIGN CHOICE, unsafe, log entries 2 and 3; `State.PowerOn` describes every power-on state. -/
def State.reset : State where
  params := Params.default
  bsr := 0
  fbr := []
  cfg := CfgBank.zero
  ptr := none
  af := none
  ph := .idle
  tr := []
  responses := []
  cmdPort := []
  agenda := []
  draws := 0

end Sys2Proof.Machine
end

