-- ==== Sys2Proof/Machine/Flags.lean ====
section
/-! DEFINITION. The block has no condition codes or status flags: "the outcome of a command is its response" (10_state.md
R42). This file holds the status codes and the response's words (30_encoding.md R86). -/

namespace Sys2Proof.Machine

/-- The status code (R86, R170). -/
def Status.code : Status → Byte
  | .ok => 0x00
  | .rangeError => 0x01
  | .sizeError => 0x02
  | .illegalCommand => 0x03

/-- The 24-bit response `status ‖ value` (R86). -/
def Response.word (r : Response) : BitVec 24 := r.status.code ++ r.value

/-- The response as 3 bytes, most significant first (R86). -/
def Response.bytes (r : Response) : List Byte :=
  [r.status.code, (r.value >>> 8).setWidth 8, r.value.setWidth 8]

end Sys2Proof.Machine
end

