-- ==== Sys2Proof/Machine/Memory.lean ====
section
/-! DEFINITION. The frame buffer RAM as a canonical list: reading, writing and the canonical form. -/

namespace Sys2Proof.Machine

/-- The byte at an address. -/
def Memory.read : Memory → Nat → Byte
  | [], _ => Config.unlistedByte
  | (k, w) :: m, a => if k = a then w else Memory.read m a

/-- The memory after a byte is written; writing the byte an unlisted address reads as removes the entry. -/
def Memory.write : Memory → Nat → Byte → Memory
  | [], a, v => if v = Config.unlistedByte then [] else [(a, v)]
  | (k, w) :: m, a, v =>
    if k < a then (k, w) :: Memory.write m a v
    else if k = a then (if v = Config.unlistedByte then m else (a, v) :: m)
    else if v = Config.unlistedByte then (k, w) :: m
    else (a, v) :: (k, w) :: m

/-- Every address of the list is at least `lo`, addresses rise strictly, no entry is redundant, and every address is one of
the 1440 bytes of the eight frame banks. -/
def Memory.wfFrom : Nat → Memory → Bool
  | _, [] => true
  | lo, (k, w) :: m => lo ≤ k && k < 1440 && w != Config.unlistedByte && Memory.wfFrom (k + 1) m

/-- The canonical form. -/
def Memory.wf (m : Memory) : Bool := Memory.wfFrom 0 m

/-- Address of `EN[f][k]`. -/
def enAddress (f : Fin 8) (k : Fin 18) : Nat := 180 * f.val + k.val

/-- Address of `BL[f][k]`. -/
def blAddress (f : Fin 8) (k : Fin 18) : Nat := 180 * f.val + 18 + k.val

/-- Address of `INT[f][i]`. -/
def intAddress (f : Fin 8) (i : Fin 144) : Nat := 180 * f.val + 36 + i.val

end Sys2Proof.Machine
end

