-- ==== Sys2Proof/Machine/Ops.lean ====
section
/-! DEFINITION. The shared operations: address resolution and the byte accesses of DEV (20_memory.md R50 to R52), the bus
transactions (40_bus_transactions.md), the BRP's primitives (00_scope.md R10), the response and the error entry
(60_exceptions.md R176). -/

namespace Sys2Proof.Machine

/-! ### The configuration bank -/

/-- The 11 names, in the order of R26. -/
def CfgName.all : List CfgName :=
  [.mode, .frame, .autoplay1, .autoplay2, .blink, .audiosync, .breath1, .breath2, .shutdown, .gain, .adc]

/-- The pointer address `REG_name` (20_memory.md R59). -/
def CfgName.offset (p : Params) : CfgName → Byte
  | .mode => p.regMode
  | .frame => p.regFrame
  | .autoplay1 => p.regAutoplay1
  | .autoplay2 => p.regAutoplay2
  | .blink => p.regBlink
  | .audiosync => p.regAudiosync
  | .breath1 => p.regBreath1
  | .breath2 => p.regBreath2
  | .shutdown => p.regShutdown
  | .gain => p.regGain
  | .adc => p.regAdc

/-- `CFG[name]`. -/
def CfgBank.get (c : CfgBank) : CfgName → Byte
  | .mode => c.mode
  | .frame => c.frame
  | .autoplay1 => c.autoplay1
  | .autoplay2 => c.autoplay2
  | .blink => c.blink
  | .audiosync => c.audiosync
  | .breath1 => c.breath1
  | .breath2 => c.breath2
  | .shutdown => c.shutdown
  | .gain => c.gain
  | .adc => c.adc

/-- `CFG[name] <- v`: plain storage of all 8 bits (R26). -/
def CfgBank.set (c : CfgBank) (n : CfgName) (v : Byte) : CfgBank :=
  match n with
  | .mode => { c with mode := v }
  | .frame => { c with frame := v }
  | .autoplay1 => { c with autoplay1 := v }
  | .autoplay2 => { c with autoplay2 := v }
  | .blink => { c with blink := v }
  | .audiosync => { c with audiosync := v }
  | .breath1 => { c with breath1 := v }
  | .breath2 => { c with breath2 := v }
  | .shutdown => { c with shutdown := v }
  | .gain => { c with gain := v }
  | .adc => { c with adc := v }

/-! ### Locations -/

/-- The location a frame-bank address reaches (R50, R58). -/
def resolveFrame (p : Params) (f : Fin 8) (a : Byte) : Loc :=
  if he : p.enableOffset.toNat ≤ a.toNat ∧ a.toNat < p.enableOffset.toNat + 18 then
    .en f ⟨a.toNat - p.enableOffset.toNat, by omega⟩
  else if hb : p.blinkOffset.toNat ≤ a.toNat ∧ a.toNat < p.blinkOffset.toNat + 18 then
    .bl f ⟨a.toNat - p.blinkOffset.toNat, by omega⟩
  else if hc : p.colorOffset.toNat ≤ a.toNat ∧ a.toNat < p.colorOffset.toNat + 144 then
    .int f ⟨a.toNat - p.colorOffset.toNat, by omega⟩
  else .unmapped

/-- The location a configuration-bank address reaches (R50, R59). -/
def resolveConfig (p : Params) (a : Byte) : Loc :=
  match CfgName.all.find? (fun n => n.offset p == a) with
  | some n => .cfg n
  | none => .unmapped

/-- `Resolve(b, a)` (20_memory.md R50): `BANK_ADDRESS` first, whatever the bank; then the frame banks; then the
configuration bank; any other bank id reaches nothing. -/
def resolve (p : Params) (b a : Byte) : Loc :=
  if a = p.bankAddress then .bsr
  else if hf : b.toNat < 8 then resolveFrame p ⟨b.toNat, hf⟩ a
  else if b = p.configBank then resolveConfig p a
  else .unmapped

/-- The byte a location holds; `none` for an unmapped one. -/
def State.get (s : State) : Loc → Option Byte
  | .bsr => some s.bsr
  | .en f k => some (Memory.read s.fbr (enAddress f k))
  | .bl f k => some (Memory.read s.fbr (blAddress f k))
  | .int f i => some (Memory.read s.fbr (intAddress f i))
  | .cfg n => some (s.cfg.get n)
  | .unmapped => none

/-- The state after a byte is stored at a location; a store to an unmapped one changes nothing (R51, R60). -/
def State.put (s : State) (l : Loc) (v : Byte) : State :=
  match l with
  | .bsr => { s with bsr := v }
  | .en f k => { s with fbr := Memory.write s.fbr (enAddress f k) v }
  | .bl f k => { s with fbr := Memory.write s.fbr (blAddress f k) v }
  | .int f i => { s with fbr := Memory.write s.fbr (intAddress f i) v }
  | .cfg n => { s with cfg := s.cfg.set n v }
  | .unmapped => s

/-! ### The device side -/

/-- `DevWrite(a, v)` (20_memory.md R51). -/
def devWrite (a v : Byte) (s : State) : State := s.put (resolve s.params s.bsr a) v

/-- `DevRead(a)` (20_memory.md R52): changes nothing of the device; an unmapped location gives the next byte of the
oracle, drawn afresh (R60; log entry 4). -/
def devRead (a : Byte) (s : State) : Byte × State :=
  match s.get (resolve s.params s.bsr a) with
  | some v => (v, s)
  | none => (Config.freeByte s.draws, { s with draws := s.draws + 1 })

/-- Load or forget `PTR` (R39). -/
def State.setPtr (s : State) (p : Option Byte) : State := { s with ptr := p }

/-- The data bytes of a write transaction, in order, `PTR` stepping modulo 256 (R100). -/
def moveIn : List Byte → State → State
  | [], s => s
  | v :: vs, s =>
    match s.ptr with
    | none => s
    | some a => moveIn vs ((devWrite a v s).setPtr (some (a + 1)))

/-- The `n` data bytes of a read transaction, in order, `PTR` stepping modulo 256 (R101). -/
def moveOut : Nat → State → List Byte × State
  | 0, s => ([], s)
  | n + 1, s =>
    match s.ptr with
    | none => ([], s)
    | some a =>
      let (v, s1) := devRead a s
      let (vs, s2) := moveOut n (s1.setPtr (some (a + 1)))
      (v :: vs, s2)

/-- Append a transaction to the trace (R44). -/
def record (e : Emitter) (op : BusOp) (s : State) : State := { s with tr := s.tr ++ [⟨e, op⟩] }

/-- `BWR(dev, reg, data)` (R100): loads `PTR`, moves the bytes, forgets `PTR`; no effect on this device when another is
addressed; recorded either way. -/
def busWrite (e : Emitter) (dev : BitVec 7) (reg : Byte) (data : List Byte) (s : State) : State :=
  if dev = s.params.devAddr then
    record e (.bwr dev reg data) ((moveIn data (s.setPtr (some reg))).setPtr none)
  else record e (.bwr dev reg data) s

/-- `BRD(dev, reg, n)` (R101): what this device answers, and the state after; not answered when another device is
addressed (log entry 9). -/
def busRead (e : Emitter) (dev : BitVec 7) (reg : Byte) (n : Nat) (s : State) : Option (List Byte) × State :=
  if dev = s.params.devAddr then
    let (out, s1) := moveOut n (s.setPtr (some reg))
    (some out, record e (.brd dev reg n (some out)) (s1.setPtr none))
  else (none, record e (.brd dev reg n none) s)

/-! ### The BRP's primitives (00_scope.md R10) -/

/-- `MemWrite(a, n, v)`: the BRP emits `BWR(DEV_ADDR, a, v)` and DEV executes it. -/
def memWrite (e : Emitter) (a : Byte) (vs : List Byte) (s : State) : State := busWrite e s.params.devAddr a vs s

/-- `MemRead(a, 1)[0]`: the BRP emits `BRD(DEV_ADDR, a, 1)` and takes the one byte it returns. -/
def memRead (e : Emitter) (a : Byte) (s : State) : Byte × State :=
  let (out, s1) := busRead e s.params.devAddr a 1 s
  ((out.getD []).headD 0, s1)

/-- `Select(b)`: write the bank id to `BANK_ADDRESS` (41 R110). -/
def select (e : Emitter) (b : Byte) (s : State) : State := memWrite e s.params.bankAddress [b] s

/-- `RegRead(b, r)`: select, then read one byte (41 R111). -/
def regRead (e : Emitter) (b r : Byte) (s : State) : Byte × State := memRead e r (select e b s)

/-- `RegWrite(b, r, v)`: select, then write one byte (41 R112). -/
def regWrite (e : Emitter) (b r v : Byte) (s : State) : State := memWrite e r [v] (select e b s)

/-- `RegWrite(CONFIG_BANK, REG_name, v)`. -/
def cfgWrite (e : Emitter) (n : CfgName) (v : Byte) (s : State) : State :=
  regWrite e s.params.configBank (n.offset s.params) v s

/-- `wait(t)`: lets time pass and changes no state (R10, R203; log entry 15). -/
def wait (_microseconds : Nat) (s : State) : State := s

/-! ### The end of a command -/

/-- The response of a command: appended to the responses, and `PH` returns to IDLE (R113, R176, R177). -/
def respond (status : Status) (value : BitVec 16) (s : State) : State :=
  { s with responses := s.responses ++ [⟨status, value⟩], ph := .idle }

/-- `return v` (R10): status OK. -/
def finish (value : BitVec 16) (s : State) : Result := .next (respond .ok value s)

/-- `raise E` (60_exceptions.md R176): the error entry, and the return from it (R177). The response is `(E, 0)`, `PH` is IDLE
again, and nothing else changes: every check stands before the first transaction. -/
def raiseError (status : Status) (s : State) : Result := .next (respond status 0 s)

/-! ### Sequences shared by several commands and agents -/

/-- The four transactions of RESET (R120) and of EXT's external reset (R67). -/
def resetSequence (e : Emitter) (s : State) : State :=
  let s := cfgWrite e .shutdown s.params.shutdownOn s
  let s := wait s.params.resetDelay s
  cfgWrite e .shutdown s.params.shutdownOff s

/-- The pointer address `off + k`. -/
def addrPlus (off : Byte) (k : Nat) : Byte := off + BitVec.ofNat 8 k

/-- The six bulk transfers of FILL's intensity plane: chunk `row` starts at `COLOR_OFFSET + 24·row` (R150). -/
def fillPlane (e : Emitter) (color : Byte) (s : State) : State :=
  (List.range Config.NCHUNK).foldl
    (fun s row => memWrite e (addrPlus s.params.colorOffset (Config.CHUNK * row)) (List.replicate Config.CHUNK color) s) s

/-- The 18 `RegWrite`s of a mask of bank `b` that starts at `off` (R150, R121). -/
def fillMask (e : Emitter) (b off m : Byte) (s : State) : State :=
  (List.range Config.MASKBYTES).foldl (fun s k => regWrite e b (addrPlus off k) m s) s

/-- The bank id of frame bank `f` (R48: "a frame index `f` is also the bank id of frame bank `f`"). -/
def frameBank (f : Fin 8) : Byte := BitVec.ofNat 8 f.val

/-! ### EXT -/

/-- A move of EXT (20_memory.md R67). Move (a) is a bare change of `BSR`; move (b) emits the four transactions of RESET
(log entry 11). -/
def extMove (m : ExtMove) (s : State) : State :=
  match m with
  | .setBsr v => { s with bsr := v }
  | .reset => resetSequence .ext s

end Sys2Proof.Machine
end

