-- ==== Sys2Proof/Machine/Operands.lean ====
section
/-! DEFINITION. Operand forms and their checks: INT16 values, Booleans, presence, bounds (30_encoding.md R82,
60_exceptions.md R171), and the default frame (44_frame_store.md R154). A check answers `none` where the command raises
`RangeError`. -/

namespace Sys2Proof.Machine

/-- `bool(p)` is `p ≠ 0` (R10). -/
def boolOf (v : Operand) : Bool := v != 0

/-- An operand in 0 to 255: a colour, a register, a value. -/
def byteOperand (v : Operand) : Option Byte :=
  if 0 ≤ v.toInt ∧ v.toInt ≤ 255 then some (v.setWidth 8) else none

/-- An operand in 0 to 7 as a byte: AUTOPLAY's counts. -/
def countOperand (v : Operand) : Option Byte :=
  if 0 ≤ v.toInt ∧ v.toInt ≤ 7 then some (v.setWidth 8) else none

/-- A frame index, 0 to 7. -/
def frameOperand (v : Operand) : Option (Fin 8) :=
  if h : 0 ≤ v.toInt ∧ v.toInt ≤ 7 then some ⟨v.toInt.toNat, by omega⟩ else none

/-- `ValidBank(b)`: 0 to 7 or `CONFIG_BANK` (41_bank_protocol.md). -/
def bankOperand (p : Params) (v : Operand) : Option Byte :=
  if (0 ≤ v.toInt ∧ v.toInt ≤ 7) ∨ v.toInt = (p.configBank.toNat : Int) then some (v.setWidth 8) else none

/-- The check of an optional operand: an absent one passes, a present one is checked. -/
def checkOptional {α : Type} (check : Operand → Option α) : Option Operand → Option (Option α)
  | none => some none
  | some v => (check v).map some

/-- `v div unit` (floor division, R8) where it lies in `[lo, hi]`. -/
def scaledOperand (unit lo hi : Int) (v : Operand) : Option Nat :=
  if lo ≤ v.toInt / unit ∧ v.toInt / unit ≤ hi then some (v.toInt / unit).toNat else none

/-- `ilog26(t)`: the greatest `e` with `26 · 2^e ≤ t`, for `t ≥ 26` (42_lifecycle_mode.md R127): the integer base-2
logarithm of `t / 26`. -/
def ilog26 (t : Nat) : Nat := Nat.log2 (t / Config.FADE_UNIT)

/-- A fade duration: at least 26, with a logarithm of at most 7 (R127). -/
def fadeOperand (v : Operand) : Option Byte :=
  if v.toInt < 26 then none
  else if 7 < ilog26 v.toInt.toNat then none
  else some (BitVec.ofNat 8 (ilog26 v.toInt.toNat))

/-- `TargetFrame(frame)`: the operand if present, else `AF` (44 R154); `none` when AF holds no value. -/
def targetFrame (frame : Option (Fin 8)) (s : State) : Option (Fin 8) :=
  match frame with
  | some f => some f
  | none => s.af

end Sys2Proof.Machine
end

