-- ==== Sys2Proof/Machine/Bank.lean ====
section
/-! DEFINITION. The bank-register protocol commands SELB, RDR, WRR (41_bank_protocol.md R110 to R112). -/

namespace Sys2Proof.Machine

/-- SELB (R110). -/
def execSelb (bank : Operand) (s : State) : Result :=
  match bankOperand s.params bank with
  | none => raiseError .rangeError s
  | some b => finish 0 (select (.command (.selb bank)) b s)

/-- RDR (R111): the value is the byte read, zero-extended (R86). -/
def execRdr (bank reg : Operand) (s : State) : Result :=
  match bankOperand s.params bank, byteOperand reg with
  | some b, some r =>
    let (v, s1) := regRead (.command (.rdr bank reg)) b r s
    finish (v.setWidth 16) s1
  | _, _ => raiseError .rangeError s

/-- WRR (R112). -/
def execWrr (bank reg value : Operand) (s : State) : Result :=
  match bankOperand s.params bank, byteOperand reg, byteOperand value with
  | some b, some r, some v => finish 0 (regWrite (.command (.wrr bank reg value)) b r v s)
  | _, _, _ => raiseError .rangeError s

end Sys2Proof.Machine
end

