-- ==== Sys2Proof/Machine/Bus.lean ====
section
/-! DEFINITION. The bus transactions BWR and BRD presented to DEV as instructions (40_bus_transactions.md). They have no
response: a read's data stands in the trace (R101). -/

namespace Sys2Proof.Machine

/-- BWR (R100). -/
def execBwr (dev : BitVec 7) (reg : Byte) (data : List Byte) (s : State) : Result :=
  .next (busWrite .busMaster dev reg data s)

/-- BRD (R101). -/
def execBrd (dev : BitVec 7) (reg : Byte) (n : Nat) (s : State) : Result :=
  .next (busRead .busMaster dev reg n s).2

end Sys2Proof.Machine
end

