-- ==== Sys2Proof/Machine/Pixel.lean ====
section
/-! DEFINITION. The pixel address translator (43_pixel_translator.md R140 to R145). -/

namespace Sys2Proof.Machine

/-- `addr(x, y)` on the 119 logical pixels, and on nothing else (R140, R141). -/
def addr (x : Fin 17) (y : Fin 7) : Fin 144 :=
  if h : x.val ≤ 8 then ⟨x.val * 16 + (7 - y.val), by omega⟩
  else ⟨(17 - x.val) * 16 + (y.val + 8), by omega⟩

/-- `pixel(i)`: the logical pixel of a cell, none for the 25 unused cells (R144, R143). -/
def pixel (i : Fin 144) : Option (Fin 17 × Fin 7) :=
  if h : 1 ≤ i.val % 16 ∧ i.val % 16 ≤ 7 then
    some (⟨i.val / 16, by omega⟩, ⟨7 - i.val % 16, by omega⟩)
  else if h : 8 ≤ i.val % 16 ∧ i.val % 16 ≤ 14 ∧ 1 ≤ i.val / 16 then
    some (⟨17 - i.val / 16, by omega⟩, ⟨i.val % 16 - 8, by omega⟩)
  else none

/-- The logical pixel two operands name; `none` off the matrix (R141, R155). -/
def pixelOperands (x y : Operand) : Option (Fin 17 × Fin 7) :=
  if h : 0 ≤ x.toInt ∧ x.toInt ≤ 16 ∧ 0 ≤ y.toInt ∧ y.toInt ≤ 6 then
    some (⟨x.toInt.toNat, by omega⟩, ⟨y.toInt.toNat, by omega⟩)
  else none

/-- XLAT (R145): emits nothing; the cell index, or 0xFFFF off the matrix. -/
def execXlat (x y : Operand) (s : State) : Result :=
  match pixelOperands x y with
  | none => finish 0xFFFF s
  | some (px, py) => finish (BitVec.ofNat 16 (addr px py).val) s

end Sys2Proof.Machine
end

