-- ==== Sys2Proof/Machine/Frame.lean ====
section
/-! DEFINITION. The frame store commands FILL, WRAW, SETPX, FRAME (44_frame_store.md R150 to R155). -/

namespace Sys2Proof.Machine

/-- FILL's writes of the planes that are present, intensity first (R150). -/
def fillPlanes (e : Emitter) (f : Fin 8) (color : Option Byte) (blink : Option Operand) (s : State) : State :=
  let s := match color with
    | none => s
    | some c => fillPlane e c s
  match blink with
  | none => s
  | some b => fillMask e (frameBank f) s.params.blinkOffset (if boolOf b then 0xFF else 0x00) s

/-- FILL (R150): both checks precede the bank select; the bank is selected once for the bulk transfers. With no frame operand
and no value in AF "the command has no meaning and a model refuses it" (R154). -/
def execFill (frame color blink : Option Operand) (s : State) : Result :=
  let e := Emitter.command (.fill frame color blink)
  match checkOptional frameOperand frame, checkOptional byteOperand color with
  | some fr, some c =>
    match targetFrame fr s with
    | none => .refused .activeFrameUnset
    | some f => finish 0 (fillPlanes e f c blink (select e (frameBank f) s))
  | _, _ => raiseError .rangeError s

/-- WRAW (R151): the size is tested before the frame index (R179). With no frame operand and no value in AF "the command has
no meaning and a model refuses it" (R154). -/
def execWraw (frame : Option Operand) (payload : List Byte) (s : State) : Result :=
  let e := Emitter.command (.wraw frame payload)
  if Config.NCELL < payload.length then raiseError .sizeError s
  else
    match checkOptional frameOperand frame with
    | none => raiseError .rangeError s
    | some fr =>
      match targetFrame fr s with
      | none => .refused .activeFrameUnset
      | some f => finish 0 (memWrite e s.params.colorOffset payload (select e (frameBank f) s))

/-- SETPX's colour write (R152). -/
def setPixelColor (e : Emitter) (f : Fin 8) (i : Fin 144) (color : Byte) (s : State) : State :=
  regWrite e (frameBank f) (addrPlus s.params.colorOffset i.val) color s

/-- SETPX's read-modify-write of the blink flag of cell `i`: bit `i mod 8` of mask byte `i div 8` (R152, R24). -/
def setPixelBlink (e : Emitter) (f : Fin 8) (i : Fin 144) (blink : Bool) (s : State) : State :=
  let a := addrPlus s.params.blinkOffset (i.val / 8)
  let m : Byte := (1 : Byte) <<< (i.val % 8)
  let (v, s) := regRead e (frameBank f) a s
  regWrite e (frameBank f) a (if blink then v ||| m else v &&& (0xFF - m)) s

/-- SETPX's writes once its frame is known: colour before blink; the blink operand has no effect unless
`PIXEL_BLINK_IMPL` (R152). -/
def setPixel (e : Emitter) (f : Fin 8) (i : Fin 144) (color : Option Byte) (blink : Option Operand) (s : State) : State :=
  let s := match color with
    | none => s
    | some c => setPixelColor e f i c s
  match blink with
  | none => s
  | some b => if s.params.pixelBlinkImpl then setPixelBlink e f i (boolOf b) s else s

/-- SETPX has a write to make, and so reads AF when `frame` is absent (R152). -/
def setPixelWrites (p : Params) (color blink : Option Operand) : Bool :=
  color.isSome || (blink.isSome && p.pixelBlinkImpl)

/-- SETPX (R152): coordinates first, off the matrix is ignored with status OK whatever else the operands hold (R179).
With a write to make, no frame operand and no value in AF "the command has no meaning and a model refuses it" (R154). -/
def execSetpx (x y : Operand) (color blink frame : Option Operand) (s : State) : Result :=
  let e := Emitter.command (.setpx x y color blink frame)
  match pixelOperands x y with
  | none => finish 0 s
  | some (px, py) =>
    match checkOptional frameOperand frame, checkOptional byteOperand color with
    | some fr, some c =>
      if setPixelWrites s.params color blink then
        match targetFrame fr s with
        | none => .refused .activeFrameUnset
        | some f => finish 0 (setPixel e f (addr px py) c blink s)
      else finish 0 s
    | _, _ => raiseError .rangeError s

/-- FRAME (R153): AF and the device copy `CFG[FRAME]`. -/
def execFrame (frame : Operand) (s : State) : Result :=
  match frameOperand frame with
  | none => raiseError .rangeError s
  | some f => finish 0 (cfgWrite (.command (.frame frame)) .frame (frameBank f) { s with af := some f })

end Sys2Proof.Machine
end

