-- ==== Sys2Proof/Machine/Lifecycle.lean ====
section
/-! DEFINITION. The lifecycle and mode commands RESET, INIT, SLEEP, AUTOPLAY, AUDIOPLAY, BLINKRATE, BLINKQ, FADE
(42_lifecycle_mode.md R120 to R127). -/

namespace Sys2Proof.Machine

/-- RESET (R120). -/
def execReset (s : State) : Result := finish 0 (resetSequence (.command .reset) s)

/-- One frame of INIT (R121): the transactions of FILL f, 0, 0, then the enable mask. -/
def initFrame (e : Emitter) (f : Fin 8) (s : State) : State :=
  let s := select e (frameBank f) s
  let s := fillPlane e 0x00 s
  let s := fillMask e (frameBank f) s.params.blinkOffset 0x00 s
  fillMask e (frameBank f) s.params.enableOffset 0xFF s

/-- INIT (R121). -/
def execInit (s : State) : Result :=
  let e := Emitter.command .init
  let s := cfgWrite e .mode s.params.modePicture s
  let s := { s with af := some 0 }
  let s := cfgWrite e .frame 0x00 s
  let s := (List.finRange Config.NFRAME).foldl (fun s f => initFrame e f s) s
  finish 0 (cfgWrite e .audiosync s.params.audiosyncOff s)

/-- SLEEP (R122). -/
def execSleep (enable : Operand) (s : State) : Result :=
  let e := Emitter.command (.sleep enable)
  if boolOf enable then finish 0 (cfgWrite e .shutdown s.params.shutdownOn s)
  else finish 0 (cfgWrite e .shutdown s.params.shutdownOff s)

/-- AUTOPLAY (R123): the zero test precedes every bound; the mode register is written last, with AF in its low bits. The
range checks come before AF is read (log entry 26). A command that reads AF while it holds no value "has no meaning in this
spec and a model refuses it" (10_state.md R38). -/
def execAutoplay (delayMs loops frames : Operand) (s : State) : Result :=
  let e := Emitter.command (.autoplay delayMs loops frames)
  if delayMs = 0 then finish 0 (cfgWrite e .mode s.params.modePicture s)
  else
    match countOperand loops, countOperand frames, scaledOperand Config.AP_UNIT 1 64 delayMs with
    | some l, some fr, some d =>
      match s.af with
      | none => .refused .activeFrameUnset
      | some f =>
        let s := cfgWrite e .autoplay1 ((l <<< 4) ||| fr) s
        let s := cfgWrite e .autoplay2 (BitVec.ofNat 8 (d % 64)) s
        finish 0 (cfgWrite e .mode (s.params.modeAutoplay ||| frameBank f) s)
    | _, _, _ => raiseError .rangeError s

/-- The gain register's byte (R124, R36). -/
def gainByte (p : Params) (agcEnable agcFast : Bool) (gain : Nat) : Byte :=
  ((if agcEnable then (1 : Byte) else 0) <<< p.agcEnBit.val) ||| ((if agcFast then (1 : Byte) else 0) <<< p.agcFastBit.val) |||
    BitVec.ofNat 8 gain

/-- AUDIOPLAY (R124). -/
def execAudioplay (sampleRateHz gain agcEnable agcFast : Operand) (s : State) : Result :=
  let e := Emitter.command (.audioplay sampleRateHz gain agcEnable agcFast)
  if sampleRateHz = 0 then finish 0 (cfgWrite e .mode s.params.modePicture s)
  else
    match scaledOperand Config.SR_UNIT 1 256 sampleRateHz, scaledOperand Config.GAIN_UNIT 0 7 gain with
    | some sr, some g =>
      let s := cfgWrite e .adc (BitVec.ofNat 8 (sr % 256)) s
      let s := cfgWrite e .gain (gainByte s.params (boolOf agcEnable) (boolOf agcFast) g) s
      finish 0 (cfgWrite e .mode s.params.modeAudioplay s)
    | _, _ => raiseError .rangeError s

/-- The blink register's byte for a positive rate: `((rateMs div 270) & 0x07) | BLINK_EN` (R125). -/
def blinkByte (p : Params) (rateMs : Nat) : Byte :=
  (BitVec.ofNat 8 (rateMs / Config.BLINK_UNIT) &&& 0x07) ||| p.blinkEn

/-- BLINKRATE (R125). -/
def execBlinkrate (rateMs : Operand) (s : State) : Result :=
  let e := Emitter.command (.blinkrate rateMs)
  if rateMs.toInt < 0 then raiseError .rangeError s
  else if rateMs = 0 then finish 0 (cfgWrite e .blink 0x00 s)
  else finish 0 (cfgWrite e .blink (blinkByte s.params rateMs.toNat) s)

/-- BLINKQ (R126). -/
def execBlinkq (s : State) : Result :=
  let (v, s1) := regRead (.command .blinkq) s.params.configBank (CfgName.blink.offset s.params) s
  finish (BitVec.ofNat 16 ((v &&& 0x07).toNat * Config.BLINK_UNIT)) s1

/-- FADE with both fades known (R127): three checks, then two writes. -/
def setFade (e : Emitter) (fadeIn fadeOut pause : Operand) (s : State) : Result :=
  match fadeOperand fadeIn, fadeOperand fadeOut, fadeOperand pause with
  | some fi, some fo, some pe =>
    let s := cfgWrite e .breath1 ((fo <<< 4) ||| fi) s
    finish 0 (cfgWrite e .breath2 (s.params.breathEn ||| pe) s)
  | _, _, _ => raiseError .rangeError s

/-- FADE (R127): a missing fade is mirrored from the other; both missing turns fade off. -/
def execFade (fadeInMs fadeOutMs : Option Operand) (pauseMs : Operand) (s : State) : Result :=
  let e := Emitter.command (.fade fadeInMs fadeOutMs pauseMs)
  match fadeInMs, fadeOutMs with
  | none, none => finish 0 (cfgWrite e .breath2 0x00 s)
  | some i, none => setFade e i i pauseMs s
  | none, some o => setFade e o o pauseMs s
  | some i, some o => setFade e i o pauseMs s

end Sys2Proof.Machine
end

