-- ==== Sys2Proof/Machine/Dispatch.lean ====
section
/-! DEFINITION. One arm per instruction. -/

namespace Sys2Proof.Machine

def exec (i : Instr) (s : State) : Host.Outcome State Fault Refusal :=
  match i with
  -- bank-register protocol (41)
  | .selb bank => Sys2Proof.Machine.execSelb bank s
  | .rdr bank reg => Sys2Proof.Machine.execRdr bank reg s
  | .wrr bank reg value => Sys2Proof.Machine.execWrr bank reg value s
  -- lifecycle and mode (42)
  | .reset => Sys2Proof.Machine.execReset s
  | .init => Sys2Proof.Machine.execInit s
  | .sleep enable => Sys2Proof.Machine.execSleep enable s
  | .autoplay delayMs loops frames => Sys2Proof.Machine.execAutoplay delayMs loops frames s
  | .audioplay rate gain agcEnable agcFast => Sys2Proof.Machine.execAudioplay rate gain agcEnable agcFast s
  | .blinkrate rateMs => Sys2Proof.Machine.execBlinkrate rateMs s
  | .blinkq => Sys2Proof.Machine.execBlinkq s
  | .fade fadeInMs fadeOutMs pauseMs => Sys2Proof.Machine.execFade fadeInMs fadeOutMs pauseMs s
  -- translator (43)
  | .xlat x y => Sys2Proof.Machine.execXlat x y s
  -- frame store (44)
  | .fill frame color blink => Sys2Proof.Machine.execFill frame color blink s
  | .wraw frame payload => Sys2Proof.Machine.execWraw frame payload s
  | .setpx x y color blink frame => Sys2Proof.Machine.execSetpx x y color blink frame s
  | .frame frame => Sys2Proof.Machine.execFrame frame s
  -- bus transactions (40)
  | .bwr dev reg data => Sys2Proof.Machine.execBwr dev reg data s
  | .brd dev reg n => Sys2Proof.Machine.execBrd dev reg n s

end Sys2Proof.Machine
end

