-- ==== Sys2Proof/WellFormed.lean ====
section
/-! DEFINITION. Well-formedness of an instruction: what the encoding can express. Operand VALUES are never a reason for
ill-formedness (30_encoding.md R85): only the two lengths have a width. -/

namespace Sys2Proof

/-- `len` of WRAW is a 16-bit field (R82), and so is `n` of a BRD record (R88); every other instruction can always be
encoded. -/
def Instr.wf : Instr → Bool
  | .wraw _ payload => payload.length < 65536
  | .brd _ _ n => n < 65536
  | .selb _ | .rdr _ _ | .wrr _ _ _ | .reset | .init | .sleep _ | .autoplay _ _ _
  | .audioplay _ _ _ _ | .blinkrate _ | .blinkq | .fade _ _ _ | .xlat _ _ | .fill _ _ _
  | .setpx _ _ _ _ _ | .frame _ | .bwr _ _ _ => true

end Sys2Proof
end

