-- ==== Sys2Proof/Decode.lean ====
section
/-! DEFINITION. The command frame and the transaction record: a total decoder that rejects by name, and after it the
encoder, both from 30_encoding.md R81 to R88. -/

namespace Sys2Proof

/-- Why a byte string is not (yet) an instruction. -/
inductive Reject where
  /-- fewer than the 12 bytes of a frame have been presented (R81) -/
  | incompleteFrame
  /-- a WRAW frame whose `len` payload bytes have not all been presented (R87) -/
  | incompletePayload
  /-- the head matches no row of the opcode map (R84) -/
  | illegalHead
  /-- not the record of a bus transaction (R88) -/
  | malformedRecord
  deriving DecidableEq, Repr

/-- The 16 commands of the opcode map (R83). -/
inductive Op where
  | selb | rdr | wrr | reset | init | sleep | autoplay | audioplay | blinkrate | blinkq | fade
  | xlat | fill | wraw | setpx | frame
  deriving DecidableEq, Repr

/-- A row of the opcode map: the frame is this command when `head & mask = pattern` (R83). -/
structure OpRow where
  op      : Op
  pattern : BitVec 16
  mask    : BitVec 16
  deriving DecidableEq, Repr

/-- `head & mask = match`. -/
def OpRow.hits (r : OpRow) (head : BitVec 16) : Bool := head &&& r.mask == r.pattern

/-- The opcode map, row for row the table of R83. -/
def opRows : List OpRow := [
  ⟨.selb,      0x0101, 0xFFFF⟩,
  ⟨.rdr,       0x0203, 0xFFFF⟩,
  ⟨.wrr,       0x0307, 0xFFFF⟩,
  ⟨.reset,     0x1000, 0xFFFF⟩,
  ⟨.init,      0x1100, 0xFFFF⟩,
  ⟨.sleep,     0x1201, 0xFFFF⟩,
  ⟨.autoplay,  0x1307, 0xFFFF⟩,
  ⟨.audioplay, 0x140F, 0xFFFF⟩,
  ⟨.blinkrate, 0x1501, 0xFFFF⟩,
  ⟨.blinkq,    0x1600, 0xFFFF⟩,
  ⟨.fade,      0x1704, 0xFFFC⟩,
  ⟨.xlat,      0x2003, 0xFFFF⟩,
  ⟨.fill,      0x3000, 0xFFF8⟩,
  ⟨.wraw,      0x3102, 0xFFFE⟩,
  ⟨.setpx,     0x3203, 0xFFE3⟩,
  ⟨.frame,     0x3301, 0xFFFF⟩]

/-- The command a head selects; `none` when no row matches (R83, R84). -/
def opOfHead (head : BitVec 16) : Option Op := (opRows.find? (·.hits head)).map (·.op)

/-- A 16-bit word from its two bytes, the more significant one first (R82). -/
def wordOf (hi lo : Byte) : BitVec 16 := hi ++ lo

/-- The more significant byte of a word. -/
def hiByte (w : BitVec 16) : Byte := (w >>> 8).setWidth 8

/-- The less significant byte of a word. -/
def loByte (w : BitVec 16) : Byte := w.setWidth 8

/-- The optional operand in slot `k`: present when `pf[k] = 1`; the field of an absent operand is ignored (R82). -/
def optOperand (pf : Byte) (k : Nat) (field : Operand) : Option Operand :=
  if pf.getLsbD k then some field else none

/-- The instruction of a frame whose head selected `op`, with the bytes after the frame: only WRAW takes some of them,
`len = zext_16(b)` payload bytes (R82, R87). -/
def instrOfFields (op : Op) (pf : Byte) (a b c d e : Operand) (rest : List Byte) :
    Except Reject (Instr × List Byte) :=
  match op with
  | .selb => .ok (.selb a, rest)
  | .rdr => .ok (.rdr a b, rest)
  | .wrr => .ok (.wrr a b c, rest)
  | .reset => .ok (.reset, rest)
  | .init => .ok (.init, rest)
  | .sleep => .ok (.sleep a, rest)
  | .autoplay => .ok (.autoplay a b c, rest)
  | .audioplay => .ok (.audioplay a b c d, rest)
  | .blinkrate => .ok (.blinkrate a, rest)
  | .blinkq => .ok (.blinkq, rest)
  | .fade => .ok (.fade (optOperand pf 0 a) (optOperand pf 1 b) c, rest)
  | .xlat => .ok (.xlat a b, rest)
  | .fill => .ok (.fill (optOperand pf 0 a) (optOperand pf 1 b) (optOperand pf 2 c), rest)
  | .wraw =>
    if rest.length < b.toNat then .error .incompletePayload
    else .ok (.wraw (optOperand pf 0 a) (rest.take b.toNat), rest.drop b.toNat)
  | .setpx => .ok (.setpx a b (optOperand pf 2 c) (optOperand pf 3 d) (optOperand pf 4 e), rest)
  | .frame => .ok (.frame a, rest)

/-- The decoder of the command port: the first command of a byte stream and the stream after it, or the name of what is
wrong (R81 to R87). Looks at no state (R85). -/
def decodeFrame : List Byte → Except Reject (Instr × List Byte)
  | op :: pf :: a1 :: a0 :: b1 :: b0 :: c1 :: c0 :: d1 :: d0 :: e1 :: e0 :: rest =>
    match opOfHead (wordOf op pf) with
    | none => .error .illegalHead
    | some o =>
      instrOfFields o pf (wordOf a1 a0) (wordOf b1 b0) (wordOf c1 c0) (wordOf d1 d0) (wordOf e1 e0) rest
  | _ => .error .incompleteFrame

/-- The decoder of a bus transaction record: bit 0 of the first byte is the direction, bits 7:1 the device address
(R88). A read record is exactly four bytes. -/
def decodeRecord : List Byte → Except Reject Instr
  | first :: reg :: rest =>
    if first.getLsbD 0 then
      match rest with
      | [n1, n0] => .ok (.brd (first.extractLsb' 1 7) reg (wordOf n1 n0).toNat)
      | _ => .error .malformedRecord
    else .ok (.bwr (first.extractLsb' 1 7) reg rest)
  | _ => .error .malformedRecord

/-- Presence bit `k` of an optional operand. -/
def pfBit (k : Nat) (o : Option Operand) : Byte := if o.isSome then (1 : Byte) <<< k else 0

/-- The field of an operand that may be absent: "an assembler writes zero there" (R82). -/
def fieldOf (o : Option Operand) : Operand := o.getD 0

/-- The 12 bytes of a frame (R81). -/
def frameBytes (op pf : Byte) (a b c d e : Operand) : List Byte :=
  [op, pf, hiByte a, loByte a, hiByte b, loByte b, hiByte c, loByte c, hiByte d, loByte d, hiByte e, loByte e]

/-- The words of a well-formed instruction, byte 0 first: a command's frame (R83) with WRAW's payload after it (R87), or
a transaction's record (R88). -/
def encode : Instr → List Byte
  | .selb bank => frameBytes 0x01 0x01 bank 0 0 0 0
  | .rdr bank reg => frameBytes 0x02 0x03 bank reg 0 0 0
  | .wrr bank reg value => frameBytes 0x03 0x07 bank reg value 0 0
  | .reset => frameBytes 0x10 0x00 0 0 0 0 0
  | .init => frameBytes 0x11 0x00 0 0 0 0 0
  | .sleep enable => frameBytes 0x12 0x01 enable 0 0 0 0
  | .autoplay delayMs loops frames => frameBytes 0x13 0x07 delayMs loops frames 0 0
  | .audioplay rate gain agcEnable agcFast => frameBytes 0x14 0x0F rate gain agcEnable agcFast 0
  | .blinkrate rateMs => frameBytes 0x15 0x01 rateMs 0 0 0 0
  | .blinkq => frameBytes 0x16 0x00 0 0 0 0 0
  | .fade fadeIn fadeOut pauseMs =>
    frameBytes 0x17 (0x04 ||| pfBit 0 fadeIn ||| pfBit 1 fadeOut) (fieldOf fadeIn) (fieldOf fadeOut) pauseMs 0 0
  | .xlat x y => frameBytes 0x20 0x03 x y 0 0 0
  | .fill frame color blink =>
    frameBytes 0x30 (pfBit 0 frame ||| pfBit 1 color ||| pfBit 2 blink) (fieldOf frame) (fieldOf color) (fieldOf blink) 0 0
  | .wraw frame payload =>
    frameBytes 0x31 (0x02 ||| pfBit 0 frame) (fieldOf frame) (BitVec.ofNat 16 payload.length) 0 0 0 ++ payload
  | .setpx x y color blink frame =>
    frameBytes 0x32 (0x03 ||| pfBit 2 color ||| pfBit 3 blink ||| pfBit 4 frame) x y
      (fieldOf color) (fieldOf blink) (fieldOf frame)
  | .frame frame => frameBytes 0x33 0x01 frame 0 0 0 0
  | .bwr dev reg data => (dev ++ 0#1) :: reg :: data
  | .brd dev reg n => [dev ++ 1#1, reg, hiByte (BitVec.ofNat 16 n), loByte (BitVec.ofNat 16 n)]

/-! ### The words as spec/opcode_table.json numbers them (log entry 17) -/

/-- Where an instruction's bytes are presented. -/
inductive Port where
  | command
  | bus
  deriving DecidableEq, Repr

/-- A frame from six 16-bit words, the head being bits 15..0, each word stored more significant byte first. -/
def frameOfHeadFirst (w : Nat) : List Byte :=
  (List.range 6).flatMap fun j => [hiByte (BitVec.ofNat 16 (w >>> (16 * j))), loByte (BitVec.ofNat 16 (w >>> (16 * j)))]

/-- A frame from one 96-bit number whose head is bits 95..80 (the row's `frame_match` numbering). -/
def frameOfHeadLast (w : Nat) : List Byte :=
  (List.range 12).map fun j => BitVec.ofNat 8 (w >>> (8 * (11 - j)))

/-- A transaction record from bytes, byte 0 being bits 7..0; `count` bytes. -/
def recordOf (count w : Nat) : List Byte :=
  (List.range count).map fun j => BitVec.ofNat 8 (w >>> (8 * j))

/-- How many bytes the record has: at least the two a write record has, exactly four for a read record of at most four
bytes. -/
def recordLength (nbits w : Nat) : Nat :=
  if w % 2 = 1 then max 4 (nbits / 8) else max 2 (nbits / 8)

/-- The zero payload bytes that follow a WRAW frame's table bits. -/
def zeroPayload (frame : List Byte) : List Byte :=
  match frame with
  | op :: pf :: _ :: _ :: b1 :: b0 :: _ =>
    if opOfHead (wordOf op pf) = some .wraw then List.replicate (wordOf b1 b0).toNat 0 else []
  | _ => []

/-- The bytes of a table word as the hardware stores them, and the port they go to. A 16-bit or 96-bit word whose head is a
row of the opcode map is a command frame; any other word is a transaction record. -/
def tableBytes (nbits w : Nat) : Port × List Byte :=
  if (nbits = 16 ∨ nbits = 96) ∧ (opOfHead (BitVec.ofNat 16 w)).isSome then
    (.command, frameOfHeadFirst w ++ zeroPayload (frameOfHeadFirst w))
  else if nbits = 96 ∧ (opOfHead (BitVec.ofNat 16 (w >>> 80))).isSome then
    (.command, frameOfHeadLast w ++ zeroPayload (frameOfHeadLast w))
  else (.bus, recordOf (recordLength nbits w) w)

/-- The instruction the decoder reads from a table word. -/
def decodeTableWord (nbits w : Nat) : Option Instr :=
  match tableBytes nbits w with
  | (.command, bytes) =>
    match decodeFrame bytes with
    | .ok (i, _) => some i
    | .error _ => none
  | (.bus, bytes) =>
    match decodeRecord bytes with
    | .ok i => some i
    | .error _ => none

end Sys2Proof
end

