-- ==== Sys2Proof/Machine/Fetch.lean ====
section
/-! DEFINITION. What the next step takes up: the turn on the agenda, and for the BRP the next command of the command
port. -/

namespace Sys2Proof.Machine

/-- What a step does before an instruction's own effect. -/
inductive Fetched where
  /-- run this instruction in this state -/
  | run (i : Instr) (s : State)
  /-- the step is over: an illegal frame was answered, an agent that runs no instruction moved, or nothing can be
  accepted -/
  | done (s : State)
  /-- the bytes another bus master presents are no record -/
  | malformed
  deriving DecidableEq, Repr

/-- The BRP accepts a command: its bytes are consumed and `PH` is BUSY (R113). -/
def accept (rest : List Byte) (s : State) : State := { s with cmdPort := rest, ph := .busy }

/-- An illegal frame: exactly its 12 bytes are consumed and it is answered ILLEGAL_COMMAND; nothing else changes (R84). -/
def answerIllegal (s : State) : State := respond .illegalCommand 0 { s with cmdPort := s.cmdPort.drop 12 }

/-- The BRP's turn: the next command of the port; while a frame or its payload is not complete, it waits (log
entry 18). -/
def fetchCommand (s : State) : Fetched :=
  match decodeFrame s.cmdPort with
  | .ok (i, rest) => .run i (accept rest s)
  | .error .illegalHead => .done (answerIllegal s)
  | .error _ => .done s

/-- HOST presents bytes: they stand on the command port after those already there (00_scope.md R3, R41, R87; log entry
27). -/
def hostSend (bytes : List Byte) (s : State) : State := { s with cmdPort := s.cmdPort ++ bytes }

/-- HOST receives the oldest response it has not received; with none there, nothing changes (00_scope.md R3, R86; log entry
27). -/
def hostReceive (s : State) : State := { s with responses := s.responses.tail }

/-- What the next step takes up. While `PH` is BUSY the command port accepts nothing and no other agent moves (R40, R67;
log entry 6). In IDLE the agenda's first turn is taken; with an empty agenda it is the BRP's turn (log entry 7). -/
def fetch (s : State) : Fetched :=
  match s.ph with
  | .busy => .done s
  | .idle =>
    match s.agenda with
    | [] => fetchCommand s
    | .hostSend bytes :: es => .done (hostSend bytes { s with agenda := es })
    | .hostReceive :: es => .done (hostReceive { s with agenda := es })
    | .brp :: es => fetchCommand { s with agenda := es }
    | .ext m :: es => .done (extMove m { s with agenda := es })
    | .bus bytes :: es =>
      match decodeRecord bytes with
      | .ok i => .run i { s with agenda := es }
      | .error _ => .malformed
    | .disp :: es => .done { s with agenda := es }

/-- Place bytes where the very next step takes them: in front of the command port with the BRP's turn next, or as the next
turn of a bus master. -/
def present (port : Port) (bytes : List Byte) (s : State) : State :=
  match port with
  | .command => { s with ph := .idle, cmdPort := bytes ++ s.cmdPort, agenda := .brp :: s.agenda }
  | .bus => { s with ph := .idle, agenda := .bus bytes :: s.agenda }

end Sys2Proof.Machine
end

