-- ==== Sys2Proof/Machine/Step.lean ====
section
/-! DEFINITION. One step of the machine. -/

namespace Sys2Proof.Machine

/-- One step: the turn on the agenda is taken, and where it is an instruction's, the instruction runs. A command is one
atomic step (41_bank_protocol.md R113; log entry 6). -/
def step (s : State) : Host.Outcome State Fault Refusal :=
  match fetch s with
  | .run i s' => exec i s'
  | .done s' => .next s'
  | .malformed => .fault .malformedRecord

/-- The state in which the very next step fetches and runs the instruction of a table word (log entries 7, 17). -/
def State.withFetchWord (s : State) (nbits w : Nat) : State :=
  present (tableBytes nbits w).1 (tableBytes nbits w).2 s

end Sys2Proof.Machine
end

