-- ==== Sys2Proof/Machine/Display.lean ====
section
/-! DEFINITION. Derived state: the blink flags and enable bits (10_state.md R24), the lifecycle state (R43) and the display
port's observation (20_memory.md R66). -/

namespace Sys2Proof.Machine

/-- `EN[f][k]`. -/
def State.en (s : State) (f : Fin 8) (k : Fin 18) : Byte := Memory.read s.fbr (enAddress f k)

/-- `BL[f][k]`. -/
def State.bl (s : State) (f : Fin 8) (k : Fin 18) : Byte := Memory.read s.fbr (blAddress f k)

/-- `INT[f][i]`. -/
def State.int (s : State) (f : Fin 8) (i : Fin 144) : Byte := Memory.read s.fbr (intAddress f i)

/-- The mask byte of a cell: `i div 8` (R24). -/
def maskByte (i : Fin 144) : Fin 18 := ⟨i.val / 8, by omega⟩

/-- `BlinkFlag(f, i) = BL[f][i div 8][i mod 8]` (R24; log entry 20). -/
def State.blinkFlag (s : State) (f : Fin 8) (i : Fin 144) : Bool := (s.bl f (maskByte i)).getLsbD (i.val % 8)

/-- `Enable(f, i) = EN[f][i div 8][i mod 8]` (R24; log entry 20). -/
def State.enable (s : State) (f : Fin 8) (i : Fin 144) : Bool := (s.en f (maskByte i)).getLsbD (i.val % 8)

/-- The lifecycle states (R43). -/
inductive LState where
  | sleeping
  | pictureMode
  | autoplayMode
  | audioplayMode
  deriving DecidableEq, Repr

/-- The mode that `CFG[MODE]` names; `none` for a mode field no command writes (R43). -/
def State.mode (s : State) : Option LState :=
  let m := s.cfg.mode &&& s.params.modeMask
  if m = s.params.modePicture then some .pictureMode
  else if m = s.params.modeAutoplay then some .autoplayMode
  else if m = s.params.modeAudioplay then some .audioplayMode
  else none

/-- `LState` (R43); `none` where it is undefined. -/
def State.lstate (s : State) : Option LState :=
  if s.cfg.shutdown = s.params.shutdownOn then some .sleeping else s.mode

/-- What the display port shows of a pixel (R66). -/
structure Shown where
  intensity : Byte
  blink     : Bool
  enable    : Bool
  deriving DecidableEq, Repr

/-- The frame the display shows: `CFG[FRAME][2:0]` (R66). -/
def State.shownFrame (s : State) : Fin 8 := ⟨s.cfg.frame.toNat % 8, by omega⟩

/-- `Shown(x, y)`: defined in picture mode only (R66). -/
def State.shown (s : State) (x : Fin 17) (y : Fin 7) : Option Shown :=
  if s.lstate = some .pictureMode then
    some ⟨s.int s.shownFrame (addr x y), s.blinkFlag s.shownFrame (addr x y), s.enable s.shownFrame (addr x y)⟩
  else none

end Sys2Proof.Machine
end

