-- ==== Sys2Proof/Safety.lean ====
section
/-! DEFINITION. The terms the statements are written in: power-on states, the invariant, what it means that a command ran, was
rejected, left the rest alone, and the transaction lists of the rules. -/

namespace Sys2Proof.Machine

/-- Every power-on state the spec allows (10_state.md R46, 70 R190): AF without a value, PH idle, the trace empty, no
pointer; every device register holds any byte. -/
structure State.PowerOn (s : State) : Prop where
  params : s.params.Ok
  memory : Memory.wf s.fbr = true
  ph     : s.ph = .idle
  ptr    : s.ptr = none
  af     : s.af = none
  tr     : s.tr = []

/-- What every state a run reaches has, inside a command as well: the parameters meet their constraints (00_scope.md R7) and
the frame buffer RAM is canonical. -/
structure State.Sound (s : State) : Prop where
  params : s.params.Ok
  memory : Memory.wf s.fbr = true

/-- What holds between two steps: the parameters meet their constraints (00_scope.md R7), the frame buffer RAM is
canonical, PH is IDLE (10_state.md R40) and PTR is forgotten (R39). -/
structure State.Inv (s : State) : Prop where
  params : s.params.Ok
  memory : Memory.wf s.fbr = true
  ph     : s.ph = .idle
  ptr    : s.ptr = none

/-- Command `i` took `s` to `t`: it answered OK with `value`, emitted exactly `ops` in this order, PH is IDLE, and
parameters, command port and agenda are untouched. -/
structure Ran (i : Instr) (s t : State) (value : BitVec 16) (ops : List BusOp) : Prop where
  responses : t.responses = s.responses ++ [⟨.ok, value⟩]
  ph        : t.ph = .idle
  tr        : t.tr = s.tr ++ ops.map (Txn.mk (.command i))
  ptr       : t.ptr = if ops = [] then s.ptr else none
  params    : t.params = s.params
  cmdPort   : t.cmdPort = s.cmdPort
  agenda    : t.agenda = s.agenda

/-- The state after a command that ended in an error (60_exceptions.md R176): the response and the return to IDLE. -/
def State.rejected (s : State) (status : Status) : State :=
  { s with responses := s.responses ++ [⟨status, 0⟩], ph := .idle }

/-- Every location of the device outside `touched` holds what it held. -/
def DevFrame (touched : Loc → Prop) (s t : State) : Prop := ∀ l, ¬ touched l → t.get l = s.get l

/-- AF and the oracle's counter are as they were. -/
def KeepsLatch (s t : State) : Prop := t.af = s.af ∧ t.draws = s.draws

/-! ### Operands, in the words of the rules -/

/-- `ValidBank` (41_bank_protocol.md). -/
def ValidBank (p : Params) (v : Operand) : Prop :=
  (0 ≤ v.toInt ∧ v.toInt ≤ 7) ∨ v.toInt = (p.configBank.toNat : Int)

/-- The operand lies in `[lo, hi]`. -/
def Within (lo hi : Int) (v : Operand) : Prop := lo ≤ v.toInt ∧ v.toInt ≤ hi

/-- The frame operand names frame `f`: it is present with the value `f`, or absent and AF holds `f` (44 R154). -/
def NamesFrame (s : State) (frame : Option Operand) (f : Fin 8) : Prop :=
  (frame = none ∧ s.af = some f) ∨ ∃ v, frame = some v ∧ v.toInt = (f.val : Int)

/-- The frame operand is present and outside 0 to 7. -/
def BadFrame (frame : Option Operand) : Prop := ∃ v, frame = some v ∧ ¬ Within 0 7 v

/-- The colour operand is present and outside 0 to 255. -/
def BadColor (color : Option Operand) : Prop := ∃ v, color = some v ∧ ¬ Within 0 255 v

/-- `e` is the greatest exponent with `26 · 2^e ≤ t` (42 R127). -/
def IsLog26 (t : Int) (e : Nat) : Prop := 26 * 2 ^ e ≤ t ∧ t < 26 * 2 ^ (e + 1)

/-- `x`, `y` name the logical pixel `(px, py)` (43 R141). -/
def NamesPixel (x y : Operand) (px : Fin 17) (py : Fin 7) : Prop :=
  x.toInt = (px.val : Int) ∧ y.toInt = (py.val : Int)

/-- The coordinates are not a logical pixel (43 R141). -/
def OffMatrix (x y : Operand) : Prop := ¬ (Within 0 16 x ∧ Within 0 6 y)

/-! ### Transaction lists -/

/-- The bank select `BWR(DEV_ADDR, BANK_ADDRESS, [b])`. -/
def selectOp (p : Params) (b : Byte) : BusOp := .bwr p.devAddr p.bankAddress [b]

/-- The transactions of `RegWrite(b, r, v)`. -/
def regWriteOps (p : Params) (b r v : Byte) : List BusOp := [selectOp p b, .bwr p.devAddr r [v]]

/-- The transactions of `RegRead(b, r)` that return `v`. -/
def regReadOps (p : Params) (b r v : Byte) : List BusOp := [selectOp p b, .brd p.devAddr r 1 (some [v])]

/-- The transactions of `RegWrite(CONFIG_BANK, r, v)`. -/
def cfgWriteOps (p : Params) (r v : Byte) : List BusOp := regWriteOps p p.configBank r v

/-- Six bulk writes of 24 bytes (44 R150). -/
def planeOps (p : Params) (color : Byte) : List BusOp :=
  (List.range 6).map fun row => .bwr p.devAddr (addrPlus p.colorOffset (24 * row)) (List.replicate 24 color)

/-- Eighteen single-byte writes from `off` (44 R150). -/
def maskOps (p : Params) (b off m : Byte) : List BusOp :=
  (List.range 18).flatMap fun k => regWriteOps p b (addrPlus off k) m

/-- The transactions of FILL (44 R150). -/
def fillOps (p : Params) (f : Fin 8) (color blink : Option Operand) : List BusOp :=
  selectOp p (frameBank f) ::
    ((match color with | none => [] | some c => planeOps p (c.setWidth 8)) ++
     (match blink with | none => [] | some b => maskOps p (frameBank f) p.blinkOffset (if b = 0 then 0x00 else 0xFF)))

/-- The transactions of INIT for one frame (42 R121). -/
def initFrameOps (p : Params) (f : Fin 8) : List BusOp :=
  selectOp p (frameBank f) :: planeOps p 0x00 ++ maskOps p (frameBank f) p.blinkOffset 0x00 ++
    maskOps p (frameBank f) p.enableOffset 0xFF

/-- The transactions of INIT (42 R121). -/
def initOps (p : Params) : List BusOp :=
  cfgWriteOps p p.regMode p.modePicture ++ cfgWriteOps p p.regFrame 0x00 ++
    (List.finRange 8).flatMap (initFrameOps p) ++ cfgWriteOps p p.regAudiosync p.audiosyncOff

/-- The pointer address a transaction names. -/
def BusOp.reg : BusOp → Byte
  | .bwr _ reg _ => reg
  | .brd _ reg _ _ => reg

/-- `o` is a bank-select write (41 R114). -/
def BusOp.isSelect (p : Params) (o : BusOp) : Prop := ∃ b, o = selectOp p b

/-- "Select before access" within one command's transactions (41 R114): every access at another address than
`BANK_ADDRESS` is preceded by a bank select with no other bank-select write between them. -/
def SelectBeforeAccess (p : Params) (ops : List BusOp) : Prop :=
  ∀ before o after, ops = before ++ o :: after → o.reg ≠ p.bankAddress →
    ∃ pre b mid, before = pre ++ selectOp p b :: mid ∧ ∀ m ∈ mid, ¬ m.isSelect p

/-- "Mode last" within one command's transactions (42 R129): the last one is the only write to the mode register, and a
write to each of the `parameters` stands before it. -/
def ModeLast (p : Params) (parameters : List Byte) (ops : List BusOp) : Prop :=
  ∃ before v, ops = before ++ [.bwr p.devAddr p.regMode [v]] ∧ (∀ o ∈ before, o.reg ≠ p.regMode) ∧
    ∀ a ∈ parameters, ∃ u, .bwr p.devAddr a [u] ∈ before

/-- How many of the pointer addresses `reg`, `reg + 1`, … before number `k` reach no register (20_memory.md R60). -/
def unmappedBefore (s : State) (reg : Byte) (k : Nat) : Nat :=
  (List.range k).countP fun j => (s.get (resolve s.params s.bsr (addrPlus reg j))).isNone

/-- `l` is a register of frame bank `f` (10_state.md R23). -/
def Loc.InFrame (f : Fin 8) : Loc → Prop
  | .en g _ | .bl g _ | .int g _ => g = f
  | .bsr | .cfg _ | .unmapped => False

/-- The last response of a state. -/
def State.lastResponse (s : State) : Option Response := s.responses.getLast?

end Sys2Proof.Machine
end

