-- ==== Sys2Proof/Certificates/Slice0/Obligations.lean ====
section
/-! DEFINITION. The statements for the provers. -/

open Sys2Proof Sys2Proof.Machine

/-! ### Encoding (30_encoding.md) -/

/-- Decode and encode agree on every well-formed command, whatever follows it on the port (sections 2, 3 and 6). -/
def Obligations.CommandRoundTrip : Prop :=
  ∀ (i : Instr) (rest : List Byte), i.wf = true → i.isCommand = true →
    decodeFrame (encode i ++ rest) = .ok (i, rest)

/-- Decode and encode agree on every well-formed bus transaction (section 7). -/
def Obligations.RecordRoundTrip : Prop :=
  ∀ i : Instr, i.wf = true → i.isCommand = false → decodeRecord (encode i) = .ok i

/-- The worked encodings of section 8 (SETPX 3,2,255; SETPX -1,0,255; RESET) and five more of 95_test_vectors.md section 8
decode to the commands they stand for, and the two transaction records of 95_test_vectors.md section 2 (B8, B9) to the
transactions of section 7. -/
def Obligations.WorkedFramesDecode : Prop :=
  decodeFrame [0x32, 0x07, 0x00, 0x03, 0x00, 0x02, 0x00, 0xFF, 0x00, 0x00, 0x00, 0x00]
      = .ok (.setpx 3 2 (some 255) none none, []) ∧
  decodeFrame [0x32, 0x07, 0xFF, 0xFF, 0x00, 0x00, 0x00, 0xFF, 0x00, 0x00, 0x00, 0x00]
      = .ok (.setpx (-1) 0 (some 255) none none, []) ∧
  decodeFrame [0x10, 0x00, 0x00, 0x00, 0x00, 0x00, 0x00, 0x00, 0x00, 0x00, 0x00, 0x00] = .ok (.reset, []) ∧
  decodeFrame [0x03, 0x07, 0x00, 0x00, 0x00, 0x2B, 0x00, 0xFF, 0x00, 0x00, 0x00, 0x00]
      = .ok (.wrr 0 0x2B 255, []) ∧
  decodeFrame [0x14, 0x0F, 0x11, 0xF8, 0x00, 0x09, 0x00, 0x01, 0x00, 0x00, 0x00, 0x00]
      = .ok (.audioplay 4600 9 1 0, []) ∧
  decodeFrame [0x17, 0x05, 0x00, 0x64, 0x00, 0x00, 0x00, 0x1A, 0x00, 0x00, 0x00, 0x00]
      = .ok (.fade (some 100) none 26, []) ∧
  decodeFrame [0x30, 0x02, 0x12, 0x34, 0x00, 0x05, 0x00, 0x00, 0x00, 0x00, 0x00, 0x00]
      = .ok (.fill none (some 5) none, []) ∧
  decodeFrame [0x31, 0x03, 0x00, 0x01, 0x00, 0x03, 0x00, 0x00, 0x00, 0x00, 0x00, 0x00, 0x01, 0x02, 0x03, 0xAA]
      = .ok (.wraw (some 1) [1, 2, 3], [0xAA]) ∧
  decodeRecord [0xE8, 0xFD, 0x0B] = .ok (.bwr 0x74 0xFD [0x0B]) ∧
  decodeRecord [0xE9, 0x05, 0x00, 0x01] = .ok (.brd 0x74 0x05 1)

/-- No head is two commands: the rows of the opcode map are disjoint (section 3). -/
def Obligations.OpcodeRowsDisjoint : Prop :=
  ∀ (head : BitVec 16), ∀ r ∈ opRows, ∀ r' ∈ opRows, r.hits head = true → r'.hits head = true → r = r'

/-- What the decoder reads is a well-formed command, and it takes exactly the 12 bytes of the frame and, for WRAW, the `len`
payload bytes after it (section 6). -/
def Obligations.DecodedCommandConsumesItsBytes : Prop :=
  ∀ (bytes rest : List Byte) (i : Instr), decodeFrame bytes = .ok (i, rest) →
    i.wf = true ∧ i.isCommand = true ∧
    ∃ front, bytes = front ++ rest ∧
      front.length = 12 + (match i with | .wraw _ payload => payload.length | _ => 0)

/-! ### The step -/

/-- A step runs the decoded command: with PH idle, the BRP's turn (no turn listed, or the BRP's), and a complete frame at the
port, step is exec of the command with its bytes consumed, the turn taken and PH busy (the agenda is the model's, log entry 7; one
command is one step, log entry 6). -/
def Obligations.StepRunsDecodedCommand : Prop :=
  ∀ (s : State) (i : Instr) (rest : List Byte) (later : List Event),
    s.ph = .idle → (s.agenda = [] ∧ later = [] ∨ s.agenda = .brp :: later) →
    decodeFrame s.cmdPort = .ok (i, rest) →
    step s = exec i { s with agenda := later, cmdPort := rest, ph := .busy }

/-- A step runs the decoded transaction of another bus master, with the turn taken; bytes that are no record stop the
machine with a fault. That a step runs such raw transactions at all is the model's choice (log entry 8; the spec's R182 puts
such masters outside), and so are the turn (log entry 7) and the fault (log entry 10). -/
def Obligations.StepRunsDecodedRecord : Prop :=
  ∀ (s : State) (bytes : List Byte) (later : List Event),
    s.ph = .idle → s.agenda = .bus bytes :: later →
    (∀ i, decodeRecord bytes = .ok i → step s = exec i { s with agenda := later }) ∧
    (∀ r, decodeRecord bytes = .error r → step s = .fault .malformedRecord)

/-- An illegal frame is answered ILLEGAL_COMMAND, consumes exactly its 12 bytes, emits nothing and changes nothing else
(30_encoding.md section 4). The agenda and the turn the step takes are the model's (log entry 7). -/
def Obligations.IllegalFrameAnswered : Prop :=
  ∀ (s : State) (op pf : Byte) (body rest : List Byte) (later : List Event),
    s.ph = .idle → (s.agenda = [] ∧ later = [] ∨ s.agenda = .brp :: later) →
    s.cmdPort = op :: pf :: (body ++ rest) → body.length = 10 →
    (∀ r ∈ opRows, r.hits (wordOf op pf) = false) →
    step s = .next { s with agenda := later, cmdPort := rest, responses := s.responses ++ [⟨.illegalCommand, 0⟩] }

/-- With fewer than 12 bytes at the port, or a WRAW frame whose payload is not all there, the BRP waits: its turn is taken and
nothing else changes (log entry 18); and while PH is BUSY nothing is accepted (log entry 6). -/
def Obligations.IncompleteFrameWaits : Prop :=
  (∀ (s : State) (later : List Event), s.ph = .idle → (s.agenda = [] ∧ later = [] ∨ s.agenda = .brp :: later) →
    s.cmdPort.length < 12 → step s = .next { s with agenda := later }) ∧
  (∀ (s : State) (later : List Event) (frame : Option Operand) (payload part : List Byte),
    s.ph = .idle → (s.agenda = [] ∧ later = [] ∨ s.agenda = .brp :: later) →
    (Instr.wraw frame payload).wf = true → part.length < payload.length →
    s.cmdPort = (encode (.wraw frame payload)).take 12 ++ part → step s = .next { s with agenda := later }) ∧
  (∀ s : State, s.ph = .busy → step s = .next s)

/-- EXT's two moves (20_memory.md section 6): BSR becomes any byte and nothing else changes; the external reset emits the four
transactions of RESET, after which BSR is CONFIG_BANK and the shutdown register is deasserted, and no other register, AF
included, changes. That the four transactions are recorded is the model's choice (log entry 11). -/
def Obligations.ExtMovesBetweenCommands : Prop :=
  ∀ (s : State) (later : List Event), s.ph = .idle →
    (∀ v, s.agenda = .ext (.setBsr v) :: later → step s = .next { s with agenda := later, bsr := v }) ∧
    (s.Sound → s.agenda = .ext .reset :: later →
      ∃ t, step s = .next t ∧ t.bsr = s.params.configBank ∧ t.cfg.shutdown = s.params.shutdownOff ∧
        DevFrame (fun l => l = .bsr ∨ l = .cfg .shutdown) s t ∧ KeepsLatch s t ∧ t.ph = .idle ∧ t.ptr = none ∧
        t.params = s.params ∧ t.cmdPort = s.cmdPort ∧ t.agenda = later ∧ t.responses = s.responses ∧
        t.tr = s.tr ++ (cfgWriteOps s.params s.params.regShutdown s.params.shutdownOn ++
          cfgWriteOps s.params s.params.regShutdown s.params.shutdownOff).map (Txn.mk .ext))

/-! ### Addresses (20_memory.md) -/

/-- R50: the location a byte access reaches, case by case: BANK_ADDRESS first whatever the bank, the three regions of a frame
bank, the 11 registers of the configuration bank, and Unmapped for every other address and for every bank id that is not
valid. -/
def Obligations.AddressResolution : Prop :=
  ∀ (p : Params) (b a : Byte), p.Ok →
    (a = p.bankAddress → resolve p b a = .bsr) ∧
    (a ≠ p.bankAddress →
      (∀ f : Fin 8, b.toNat = f.val →
        (∀ k : Fin 18, a.toNat = p.enableOffset.toNat + k.val → resolve p b a = .en f k) ∧
        (∀ k : Fin 18, a.toNat = p.blinkOffset.toNat + k.val → resolve p b a = .bl f k) ∧
        (∀ i : Fin 144, a.toNat = p.colorOffset.toNat + i.val → resolve p b a = .int f i) ∧
        (¬ Params.inRegion p.enableOffset 18 a → ¬ Params.inRegion p.blinkOffset 18 a →
          ¬ Params.inRegion p.colorOffset 144 a → resolve p b a = .unmapped)) ∧
      (b = p.configBank →
        (∀ n : CfgName, a = n.offset p → resolve p b a = .cfg n) ∧
        (a ∉ p.regOffsets → resolve p b a = .unmapped)) ∧
      (8 ≤ b.toNat → b ≠ p.configBank → resolve p b a = .unmapped))

/-- No two bank and pointer address pairs name the same register (10_state.md section 2, derived there). -/
def Obligations.RegistersDistinct : Prop :=
  ∀ (p : Params) (b a b' a' : Byte), p.Ok → resolve p b a = resolve p b' a' →
    resolve p b a ≠ .bsr → resolve p b a ≠ .unmapped → b = b' ∧ a = a'

/-! ### Bus transactions (40_bus_transactions.md) -/

/-- BWR: always completes and is recorded; no effect on this device when another is addressed; with no data nothing changes;
one byte goes to the location the pointer address reaches, or is dropped; two transactions on consecutive addresses are one
transaction as far as the device's registers go: byte `k` goes to `reg + k` modulo 256 under the BSR of that moment. The
emitter tag of the record is the model's (log entry 23). -/
def Obligations.BwrEffect : Prop :=
  ∀ (s : State) (dev : BitVec 7) (reg : Byte) (data : List Byte), Memory.wf s.fbr = true →
    (dev ≠ s.params.devAddr →
      exec (.bwr dev reg data) s = .next { s with tr := s.tr ++ [⟨.busMaster, .bwr dev reg data⟩] }) ∧
    (dev = s.params.devAddr → ∃ t, exec (.bwr dev reg data) s = .next t ∧
      t.tr = s.tr ++ [⟨.busMaster, .bwr dev reg data⟩] ∧ t.ptr = none ∧ KeepsLatch s t ∧
      t.params = s.params ∧ t.ph = s.ph ∧ t.responses = s.responses ∧ t.cmdPort = s.cmdPort ∧ t.agenda = s.agenda ∧
      (data = [] → ∀ l, t.get l = s.get l) ∧
      (∀ v, data = [v] →
        (∀ l, l ≠ resolve s.params s.bsr reg → t.get l = s.get l) ∧
        (resolve s.params s.bsr reg ≠ .unmapped → t.get (resolve s.params s.bsr reg) = some v)) ∧
      (∀ xs ys, data = xs ++ ys → ∃ u w, exec (.bwr dev reg xs) s = .next u ∧
        exec (.bwr dev (addrPlus reg xs.length) ys) u = .next w ∧ ∀ l, t.get l = w.get l))

/-- A bulk write that stays in its bank (no byte lands on BANK_ADDRESS, at most 256 bytes): byte `k` becomes the register at
`reg + k`, bytes that reach no register are dropped, and nothing else of the device changes. -/
def Obligations.BwrBulkWritesConsecutive : Prop :=
  ∀ (s : State) (reg : Byte) (data : List Byte), s.Sound → data.length ≤ 256 →
    (∀ k < data.length, addrPlus reg k ≠ s.params.bankAddress) →
    ∃ t, exec (.bwr s.params.devAddr reg data) s = .next t ∧
      (∀ (k : Nat) (hk : k < data.length), resolve s.params s.bsr (addrPlus reg k) ≠ .unmapped →
        t.get (resolve s.params s.bsr (addrPlus reg k)) = some data[k]) ∧
      DevFrame (fun l => ∃ k < data.length, resolve s.params s.bsr (addrPlus reg k) = l) s t

/-- BRD: always completes and is recorded; another device's address is not answered (that the record then holds no data is the
model's choice, log entry 9); otherwise `n` bytes come back, byte `k` being what the location at `reg + k` modulo 256 holds,
or the oracle's next byte where there is none; no register changes, BSR included. The emitter tag of the record (log entry
23) and the draw counter (log entry 4) are the model's. -/
def Obligations.BrdEffect : Prop :=
  ∀ (s : State) (dev : BitVec 7) (reg : Byte) (n : Nat),
    (dev ≠ s.params.devAddr →
      exec (.brd dev reg n) s = .next { s with tr := s.tr ++ [⟨.busMaster, .brd dev reg n none⟩] }) ∧
    (dev = s.params.devAddr → ∃ (t : State) (out : List Byte), exec (.brd dev reg n) s = .next t ∧ out.length = n ∧
      t = { s with tr := s.tr ++ [⟨.busMaster, .brd dev reg n (some out)⟩], ptr := none,
                   draws := s.draws + unmappedBefore s reg n } ∧
      ∀ (k : Nat) (hk : k < out.length), some out[k] =
        match s.get (resolve s.params s.bsr (addrPlus reg k)) with
        | some v => some v
        | none => some (Config.freeByte (s.draws + unmappedBefore s reg k)))

/-! ### Bank-register protocol (41_bank_protocol.md) -/

/-- R110. -/
def Obligations.SelbEffect : Prop :=
  ∀ (s : State) (bank : Operand),
    (ValidBank s.params bank → ∃ t, exec (.selb bank) s = .next t ∧
      Ran (.selb bank) s t 0 [selectOp s.params (bank.setWidth 8)] ∧ t.bsr = bank.setWidth 8 ∧
      DevFrame (· = .bsr) s t ∧ KeepsLatch s t) ∧
    (¬ ValidBank s.params bank → exec (.selb bank) s = .next (s.rejected .rangeError))

/-- RDR (41_bank_protocol.md): exactly two transactions; the value is the register's, BSR's own where the address is
BANK_ADDRESS, the oracle's next byte where there is no register. The draw counter is the model's (log entry 4). -/
def Obligations.RdrEffect : Prop :=
  ∀ (s : State) (bank reg : Operand),
    (ValidBank s.params bank → Within 0 255 reg →
      ∃ (t : State) (v : Byte), exec (.rdr bank reg) s = .next t ∧
        Ran (.rdr bank reg) s t (v.setWidth 16) (regReadOps s.params (bank.setWidth 8) (reg.setWidth 8) v) ∧
        t.bsr = bank.setWidth 8 ∧ DevFrame (· = .bsr) s t ∧ t.af = s.af ∧
        (match t.get (resolve s.params (bank.setWidth 8) (reg.setWidth 8)) with
          | some w => v = w ∧ t.draws = s.draws
          | none => v = Config.freeByte s.draws ∧ t.draws = s.draws + 1) ∧
        (reg.setWidth 8 = s.params.bankAddress → v = bank.setWidth 8)) ∧
    (¬ (ValidBank s.params bank ∧ Within 0 255 reg) → exec (.rdr bank reg) s = .next (s.rejected .rangeError))

/-- R112: exactly two register writes; the addressed register takes the value, BSR itself where the address is BANK_ADDRESS;
a write that reaches no register is dropped with status OK. -/
def Obligations.WrrEffect : Prop :=
  ∀ (s : State) (bank reg value : Operand), Memory.wf s.fbr = true →
    (ValidBank s.params bank → Within 0 255 reg → Within 0 255 value →
      ∃ t, exec (.wrr bank reg value) s = .next t ∧
        Ran (.wrr bank reg value) s t 0
          (regWriteOps s.params (bank.setWidth 8) (reg.setWidth 8) (value.setWidth 8)) ∧
        (let l := resolve s.params (bank.setWidth 8) (reg.setWidth 8)
         (l ≠ .unmapped → t.get l = some (value.setWidth 8)) ∧
         (l ≠ .bsr → t.bsr = bank.setWidth 8) ∧
         DevFrame (fun m => m = .bsr ∨ m = l) s t) ∧ KeepsLatch s t) ∧
    (¬ (ValidBank s.params bank ∧ Within 0 255 reg ∧ Within 0 255 value) →
      exec (.wrr bank reg value) s = .next (s.rejected .rangeError))

/-- A register that exists reads back what WRR wrote to it (10_state.md section 3: "a read returns the 8 bits last
written"). -/
def Obligations.WrrReadsBack : Prop :=
  ∀ (s : State) (bank reg value : Operand), s.Sound → ValidBank s.params bank → Within 0 255 reg → Within 0 255 value →
    resolve s.params (bank.setWidth 8) (reg.setWidth 8) ≠ .unmapped →
    resolve s.params (bank.setWidth 8) (reg.setWidth 8) ≠ .bsr →
    ∃ t u, exec (.wrr bank reg value) s = .next t ∧ exec (.rdr bank reg) t = .next u ∧
      u.lastResponse = some ⟨.ok, value⟩ ∧ ∀ l, u.get l = t.get l

/-! ### Lifecycle and mode (42_lifecycle_mode.md) -/

/-- R120: four transactions; BSR and the shutdown register, and nothing else. -/
def Obligations.ResetEffect : Prop :=
  ∀ s : State, s.Sound → ∃ t, exec .reset s = .next t ∧
    Ran .reset s t 0 (cfgWriteOps s.params s.params.regShutdown s.params.shutdownOn ++
      cfgWriteOps s.params s.params.regShutdown s.params.shutdownOff) ∧
    t.bsr = s.params.configBank ∧ t.cfg.shutdown = s.params.shutdownOff ∧
    DevFrame (fun l => l = .bsr ∨ l = .cfg .shutdown) s t ∧ KeepsLatch s t

/-- R121: 638 writes in the rule's order; every plane cleared, every mask enabled, mode, frame, audio-sync and AF as the rule
says; the seven configuration registers and the shutdown register it does not write keep their values. -/
def Obligations.InitEffect : Prop :=
  ∀ s : State, s.Sound → ∃ t, exec .init s = .next t ∧
    Ran .init s t 0 (initOps s.params) ∧ (initOps s.params).length = 638 ∧
    (∀ f i, t.int f i = 0x00) ∧ (∀ f k, t.bl f k = 0x00) ∧ (∀ f k, t.en f k = 0xFF) ∧
    t.cfg.mode = s.params.modePicture ∧ t.cfg.frame = 0x00 ∧ t.cfg.audiosync = s.params.audiosyncOff ∧
    t.af = some 0 ∧ t.bsr = s.params.configBank ∧ t.draws = s.draws ∧
    ∀ n : CfgName, n ≠ .mode → n ≠ .frame → n ≠ .audiosync → t.cfg.get n = s.cfg.get n

/-- R122: the shutdown register takes the value of the operand's truth, and nothing else but BSR changes; the command is
idempotent on the device. -/
def Obligations.SleepEffect : Prop :=
  ∀ (s : State) (enable : Operand), s.Sound →
    ∃ t, exec (.sleep enable) s = .next t ∧
      (let v := if enable = 0 then s.params.shutdownOff else s.params.shutdownOn
       Ran (.sleep enable) s t 0 (cfgWriteOps s.params s.params.regShutdown v) ∧ t.cfg.shutdown = v) ∧
      t.bsr = s.params.configBank ∧ DevFrame (fun l => l = .bsr ∨ l = .cfg .shutdown) s t ∧ KeepsLatch s t ∧
      ∃ u, exec (.sleep enable) t = .next u ∧ ∀ l, u.get l = t.get l

/-- R123: the zero shortcut whatever the other operands; with all bounds (delay 11 to 714, counts 0 to 7) and an active frame,
the two parameter registers and the mode register, mode last; a failed bound is a RangeError that changes nothing. -/
def Obligations.AutoplayEffect : Prop :=
  ∀ (s : State) (delayMs loops frames : Operand), s.Sound →
    (delayMs = 0 → ∃ t, exec (.autoplay delayMs loops frames) s = .next t ∧
      Ran (.autoplay delayMs loops frames) s t 0 (cfgWriteOps s.params s.params.regMode s.params.modePicture) ∧
      t.cfg.mode = s.params.modePicture ∧ t.bsr = s.params.configBank ∧
      DevFrame (fun l => l = .bsr ∨ l = .cfg .mode) s t ∧ KeepsLatch s t) ∧
    (Within 11 714 delayMs → Within 0 7 loops → Within 0 7 frames → ∀ f, s.af = some f →
      ∃ t, exec (.autoplay delayMs loops frames) s = .next t ∧
        Ran (.autoplay delayMs loops frames) s t 0
          (cfgWriteOps s.params s.params.regAutoplay1 t.cfg.autoplay1 ++
           cfgWriteOps s.params s.params.regAutoplay2 t.cfg.autoplay2 ++
           cfgWriteOps s.params s.params.regMode t.cfg.mode) ∧
        t.cfg.autoplay1.toNat = 16 * loops.toNat + frames.toNat ∧
        t.cfg.autoplay2.toNat = delayMs.toNat / 11 % 64 ∧
        t.cfg.mode.toNat = s.params.modeAutoplay.toNat + f.val ∧
        t.bsr = s.params.configBank ∧
        DevFrame (fun l => l = .bsr ∨ l = .cfg .autoplay1 ∨ l = .cfg .autoplay2 ∨ l = .cfg .mode) s t ∧
        KeepsLatch s t) ∧
    (delayMs ≠ 0 → ¬ (Within 11 714 delayMs ∧ Within 0 7 loops ∧ Within 0 7 frames) →
      exec (.autoplay delayMs loops frames) s = .next (s.rejected .rangeError))

/-- R124: the zero shortcut; with both bounds (rate 46 to 11821, gain 0 to 23) the ADC, gain and mode registers, mode last;
a failed bound is a RangeError that changes nothing. -/
def Obligations.AudioplayEffect : Prop :=
  ∀ (s : State) (rate gain agcEnable agcFast : Operand), s.Sound →
    (rate = 0 → ∃ t, exec (.audioplay rate gain agcEnable agcFast) s = .next t ∧
      Ran (.audioplay rate gain agcEnable agcFast) s t 0
        (cfgWriteOps s.params s.params.regMode s.params.modePicture) ∧
      t.cfg.mode = s.params.modePicture ∧ t.bsr = s.params.configBank ∧
      DevFrame (fun l => l = .bsr ∨ l = .cfg .mode) s t ∧ KeepsLatch s t) ∧
    (Within 46 11821 rate → Within 0 23 gain →
      ∃ t, exec (.audioplay rate gain agcEnable agcFast) s = .next t ∧
        Ran (.audioplay rate gain agcEnable agcFast) s t 0
          (cfgWriteOps s.params s.params.regAdc t.cfg.adc ++ cfgWriteOps s.params s.params.regGain t.cfg.gain ++
           cfgWriteOps s.params s.params.regMode s.params.modeAudioplay) ∧
        t.cfg.adc.toNat = rate.toNat / 46 % 256 ∧
        t.cfg.gain.toNat = (if agcEnable = 0 then 0 else 2 ^ s.params.agcEnBit.val) +
          (if agcFast = 0 then 0 else 2 ^ s.params.agcFastBit.val) + gain.toNat / 3 ∧
        t.cfg.mode = s.params.modeAudioplay ∧ t.bsr = s.params.configBank ∧
        DevFrame (fun l => l = .bsr ∨ l = .cfg .adc ∨ l = .cfg .gain ∨ l = .cfg .mode) s t ∧ KeepsLatch s t) ∧
    (rate ≠ 0 → ¬ (Within 46 11821 rate ∧ Within 0 23 gain) →
      exec (.audioplay rate gain agcEnable agcFast) s = .next (s.rejected .rangeError))

/-- R125: a negative rate is a RangeError; zero writes 0x00; any other writes the masked rate with the enable bit; the mode
register is never written. -/
def Obligations.BlinkrateEffect : Prop :=
  ∀ (s : State) (rateMs : Operand), s.Sound →
    (0 ≤ rateMs.toInt → ∃ t, exec (.blinkrate rateMs) s = .next t ∧
      Ran (.blinkrate rateMs) s t 0 (cfgWriteOps s.params s.params.regBlink t.cfg.blink) ∧
      t.cfg.blink.toNat = (if rateMs = 0 then 0 else rateMs.toNat / 270 % 8 + s.params.blinkEn.toNat) ∧
      t.bsr = s.params.configBank ∧ DevFrame (fun l => l = .bsr ∨ l = .cfg .blink) s t ∧ KeepsLatch s t) ∧
    (rateMs.toInt < 0 → exec (.blinkrate rateMs) s = .next (s.rejected .rangeError))

/-- R126: two transactions; the masked blink register times 270; only BSR changes. -/
def Obligations.BlinkqEffect : Prop :=
  ∀ s : State, s.Sound →
    ∃ t, exec .blinkq s = .next t ∧
      Ran .blinkq s t (BitVec.ofNat 16 (s.cfg.blink.toNat % 8 * 270))
        (regReadOps s.params s.params.configBank s.params.regBlink s.cfg.blink) ∧
      t.bsr = s.params.configBank ∧ DevFrame (· = .bsr) s t ∧ KeepsLatch s t

/-- R127: both fades absent writes 0x00 to the second register; a missing fade is mirrored; three durations within 26 to 6655
give three exponents packed into two registers; a duration outside is a RangeError that changes nothing. -/
def Obligations.FadeEffect : Prop :=
  ∀ (s : State) (fadeIn fadeOut : Option Operand) (pause : Operand), s.Sound →
    (fadeIn = none → fadeOut = none → ∃ t, exec (.fade fadeIn fadeOut pause) s = .next t ∧
      Ran (.fade fadeIn fadeOut pause) s t 0 (cfgWriteOps s.params s.params.regBreath2 0x00) ∧
      t.cfg.breath2 = 0x00 ∧ t.bsr = s.params.configBank ∧
      DevFrame (fun l => l = .bsr ∨ l = .cfg .breath2) s t ∧ KeepsLatch s t) ∧
    (∀ i o : Operand, (fadeIn = some i ∧ fadeOut = some o ∨ fadeIn = some i ∧ fadeOut = none ∧ o = i ∨
        fadeIn = none ∧ fadeOut = some o ∧ i = o) →
      (∀ fi fo pe : Nat, IsLog26 i.toInt fi → IsLog26 o.toInt fo → IsLog26 pause.toInt pe →
        fi ≤ 7 → fo ≤ 7 → pe ≤ 7 →
        ∃ t, exec (.fade fadeIn fadeOut pause) s = .next t ∧
          Ran (.fade fadeIn fadeOut pause) s t 0 (cfgWriteOps s.params s.params.regBreath1 t.cfg.breath1 ++
            cfgWriteOps s.params s.params.regBreath2 t.cfg.breath2) ∧
          t.cfg.breath1.toNat = 16 * fo + fi ∧ t.cfg.breath2 = s.params.breathEn ||| BitVec.ofNat 8 pe ∧
          t.bsr = s.params.configBank ∧
          DevFrame (fun l => l = .bsr ∨ l = .cfg .breath1 ∨ l = .cfg .breath2) s t ∧ KeepsLatch s t) ∧
      (¬ (Within 26 6655 i ∧ Within 26 6655 o ∧ Within 26 6655 pause) →
        exec (.fade fadeIn fadeOut pause) s = .next (s.rejected .rangeError)))

/-- The exponents R127 names exist exactly for the durations 26 to 6655 (with 26·2^e ≤ t greatest), so that the two cases of
FadeEffect leave no duration out, and the model's `ilog26` is that exponent. -/
def Obligations.FadeExponentIsGreatest : Prop :=
  ∀ v : Operand,
    (26 ≤ v.toInt → IsLog26 v.toInt (ilog26 v.toInt.toNat)) ∧
    (Within 26 6655 v ↔ ∃ e ≤ 7, IsLog26 v.toInt e) ∧
    (∀ e e', IsLog26 v.toInt e → IsLog26 v.toInt e' → e = e')

/-! ### Pixel address translator (43_pixel_translator.md) -/

/-- R145: the cell index, or 0xFFFF off the matrix with status OK; no transaction, no change of state. -/
def Obligations.XlatEffect : Prop :=
  ∀ (s : State) (x y : Operand),
    (∀ px py, NamesPixel x y px py →
      exec (.xlat x y) s = .next { s with ph := .idle, responses := s.responses ++
        [⟨.ok, BitVec.ofNat 16 (if px.val ≤ 8 then px.val * 16 + (7 - py.val)
                                else (17 - px.val) * 16 + (py.val + 8))⟩] }) ∧
    (OffMatrix x y →
      exec (.xlat x y) s = .next { s with ph := .idle, responses := s.responses ++ [⟨.ok, 0xFFFF⟩] })

/-- Every index lies in 1 to 142, `pixel` inverts `addr` on the 119 pixels, `addr` inverts `pixel` on the used cells, and the
unused cells are the 25 the spec lists (sections 1 and 2). -/
def Obligations.TranslatorInverse : Prop :=
  (∀ x y, 1 ≤ (addr x y).val ∧ (addr x y).val ≤ 142) ∧
  (∀ x y, pixel (addr x y) = some (x, y)) ∧
  (∀ i x y, pixel i = some (x, y) → addr x y = i) ∧
  (∀ i, pixel i = none ↔ i.val ∈ [0, 8, 9, 10, 11, 12, 13, 14, 15, 16, 31, 32, 47, 48, 63, 64, 79, 80, 95, 96, 111, 112,
    127, 128, 143])

/-! ### Frame store (44_frame_store.md) -/

/-- R150: with the frame named (or absent, meaning AF) and the colour legal, the planes that are present are overwritten whole,
intensity first, and nothing else but BSR changes; a bad frame or colour is a RangeError that changes nothing. -/
def Obligations.FillEffect : Prop :=
  ∀ (s : State) (frame color blink : Option Operand), s.Sound →
    (∀ f, NamesFrame s frame f → (∀ c, color = some c → Within 0 255 c) →
      ∃ t, exec (.fill frame color blink) s = .next t ∧
        Ran (.fill frame color blink) s t 0 (fillOps s.params f color blink) ∧
        t.bsr = frameBank f ∧
        (∀ c, color = some c → ∀ i, t.int f i = c.setWidth 8) ∧
        (∀ b, blink = some b → ∀ k, t.bl f k = if b = 0 then 0x00 else 0xFF) ∧
        DevFrame (fun l => l = .bsr ∨ (color.isSome ∧ ∃ i, l = .int f i) ∨ (blink.isSome ∧ ∃ k, l = .bl f k)) s t ∧
        KeepsLatch s t) ∧
    (BadFrame frame ∨ BadColor color → exec (.fill frame color blink) s = .next (s.rejected .rangeError))

/-- FILL then reading back: after `FILL f, c` every cell of that plane reads `c` through RDR, for every frame, colour and
cell, the unused cells included. -/
def Obligations.FillReadsBack : Prop :=
  ∀ (s : State) (frame color : Operand) (i : Fin 144), s.Sound → Within 0 7 frame → Within 0 255 color →
    ∃ t u, exec (.fill (some frame) (some color) none) s = .next t ∧
      exec (.rdr frame (BitVec.ofNat 16 (s.params.colorOffset.toNat + i.val))) t = .next u ∧
      u.lastResponse = some ⟨.ok, color⟩ ∧ ∀ l, u.get l = t.get l

/-- R151: payload byte `k` becomes cell `k`, the other cells keep their values, two transactions whatever the length; more than
144 bytes is a SizeError before the frame index is looked at; a bad frame index is a RangeError. -/
def Obligations.WrawEffect : Prop :=
  ∀ (s : State) (frame : Option Operand) (payload : List Byte), s.Sound →
    (∀ f, NamesFrame s frame f → payload.length ≤ 144 →
      ∃ t, exec (.wraw frame payload) s = .next t ∧
        Ran (.wraw frame payload) s t 0
          [selectOp s.params (frameBank f), .bwr s.params.devAddr s.params.colorOffset payload] ∧
        t.bsr = frameBank f ∧
        (∀ (i : Fin 144) (h : i.val < payload.length), t.int f i = payload[i.val]) ∧
        DevFrame (fun l => l = .bsr ∨ ∃ i : Fin 144, i.val < payload.length ∧ l = .int f i) s t ∧ KeepsLatch s t) ∧
    (144 < payload.length → exec (.wraw frame payload) s = .next (s.rejected .sizeError)) ∧
    (payload.length ≤ 144 → BadFrame frame → exec (.wraw frame payload) s = .next (s.rejected .rangeError))

/-- R152: off the matrix ignored whatever else the operands hold; a bad colour or frame on the matrix a RangeError; where no
blink write is made (the operand is absent, or the implementation does not build the optional extension), a colour write
changes one byte and BSR, and with no colour nothing is emitted. -/
def Obligations.SetpxEffect : Prop :=
  ∀ (s : State) (x y : Operand) (color blink frame : Option Operand), s.Sound →
    (OffMatrix x y → exec (.setpx x y color blink frame) s
      = .next { s with ph := .idle, responses := s.responses ++ [⟨.ok, 0⟩] }) ∧
    (∀ px py, NamesPixel x y px py →
      (BadFrame frame ∨ BadColor color →
        exec (.setpx x y color blink frame) s = .next (s.rejected .rangeError)) ∧
      (blink = none ∨ s.params.pixelBlinkImpl = false →
        (color = none → ¬ BadFrame frame → exec (.setpx x y color blink frame) s
          = .next { s with ph := .idle, responses := s.responses ++ [⟨.ok, 0⟩] }) ∧
        (∀ c f, color = some c → Within 0 255 c → NamesFrame s frame f →
          ∃ t, exec (.setpx x y color blink frame) s = .next t ∧
            Ran (.setpx x y color blink frame) s t 0
              (regWriteOps s.params (frameBank f) (addrPlus s.params.colorOffset (addr px py).val) (c.setWidth 8)) ∧
            t.bsr = frameBank f ∧ t.int f (addr px py) = c.setWidth 8 ∧
            DevFrame (fun l => l = .bsr ∨ l = .int f (addr px py)) s t ∧ KeepsLatch s t)))

/-- The optional extension of SETPX (PIXEL_BLINK_IMPL): a present blink operand sets exactly one blink flag by a
read-modify-write of four transactions, after the colour write if there is one; every other flag, byte and register but BSR
keeps its value, and everything else of the rule is as without the extension. -/
def Obligations.SetpxBlinkReadModifyWrite : Prop :=
  ∀ (s : State) (x y : Operand) (color frame : Option Operand) (b : Operand) (px : Fin 17) (py : Fin 7) (f : Fin 8),
    s.Sound → s.params.pixelBlinkImpl = true → NamesPixel x y px py → NamesFrame s frame f →
    (∀ c, color = some c → Within 0 255 c) →
    ∃ t, exec (.setpx x y color (some b) frame) s = .next t ∧
      (let i := addr px py
       let a := addrPlus s.params.blinkOffset (i.val / 8)
       Ran (.setpx x y color (some b) frame) s t 0
         ((match color with
            | none => []
            | some c => regWriteOps s.params (frameBank f) (addrPlus s.params.colorOffset i.val) (c.setWidth 8)) ++
          regReadOps s.params (frameBank f) a (s.bl f (maskByte i)) ++
          regWriteOps s.params (frameBank f) a (t.bl f (maskByte i))) ∧
       t.blinkFlag f i = (b != 0) ∧ (∀ j, j ≠ i → t.blinkFlag f j = s.blinkFlag f j) ∧
       t.bsr = frameBank f ∧ (∀ c, color = some c → t.int f i = c.setWidth 8) ∧
       DevFrame (fun l => l = .bsr ∨ l = .bl f (maskByte i) ∨ (color.isSome ∧ l = .int f i)) s t) ∧
      KeepsLatch s t

/-- R153: AF and CFG[FRAME] take the frame; a frame outside 0 to 7 is a RangeError before AF changes. -/
def Obligations.FrameEffect : Prop :=
  ∀ (s : State) (frame : Operand), s.Sound →
    (∀ f : Fin 8, frame.toInt = (f.val : Int) → ∃ t, exec (.frame frame) s = .next t ∧
      Ran (.frame frame) s t 0 (cfgWriteOps s.params s.params.regFrame (BitVec.ofNat 8 f.val)) ∧
      t.af = some f ∧ t.cfg.frame.toNat = f.val ∧ t.bsr = s.params.configBank ∧
      DevFrame (fun l => l = .bsr ∨ l = .cfg .frame) s t ∧ t.draws = s.draws) ∧
    (¬ Within 0 7 frame → exec (.frame frame) s = .next (s.rejected .rangeError))

/-- Writing one logical pixel leaves every other logical pixel of every frame as it was: no two pixels share a cell and none
lands on another. -/
def Obligations.PixelWritesDoNotInterfere : Prop :=
  ∀ (s t : State) (x y : Operand) (color blink frame : Option Operand) (px qx : Fin 17) (py qy : Fin 7) (g : Fin 8),
    s.Sound → NamesPixel x y px py → (qx, qy) ≠ (px, py) →
    exec (.setpx x y color blink frame) s = .next t →
    t.int g (addr qx qy) = s.int g (addr qx qy) ∧ t.blinkFlag g (addr qx qy) = s.blinkFlag g (addr qx qy)

/-- The commands that need AF are refused while it has no value, once their other operands pass (10_state.md section 4,
44_frame_store.md R154; that the range checks come before AF is read is the model's, log entry 26). -/
def Obligations.UnsetActiveFrameRefuses : Prop :=
  ∀ s : State, s.af = none →
    (∀ color blink, ¬ BadColor color → exec (.fill none color blink) s = .refused .activeFrameUnset) ∧
    (∀ payload : List Byte, payload.length ≤ 144 → exec (.wraw none payload) s = .refused .activeFrameUnset) ∧
    (∀ x y c blink px py, NamesPixel x y px py → Within 0 255 c →
      exec (.setpx x y (some c) blink none) s = .refused .activeFrameUnset) ∧
    (s.params.pixelBlinkImpl = true → ∀ x y color b px py, NamesPixel x y px py → ¬ BadColor color →
      exec (.setpx x y color (some b) none) s = .refused .activeFrameUnset) ∧
    (∀ d l n, Within 11 714 d → Within 0 7 l → Within 0 7 n →
      exec (.autoplay d l n) s = .refused .activeFrameUnset)

/-! ### Rules about the whole machine -/

/-- The state after reset meets the invariant, and is one of the power-on states the spec allows; no clause says which byte a
register holds. -/
def Obligations.ResetStateMeetsInv : Prop := State.reset.Inv ∧ State.reset.PowerOn

/-- Every step keeps the invariant: the parameters meet their constraints, the frame buffer RAM stays canonical, PH is IDLE and
PTR is forgotten between steps. -/
def Obligations.StepKeepsInv : Prop :=
  ∀ s t : State, s.Inv → step s = .next t → t.Inv

/-- No step changes the parameters, the trace only grows at its end, and so do the responses, but that HOST's receiving turn
takes the oldest one (turns and response list are the model's, log entries 7, 12, 27). -/
def Obligations.StepOnlyExtendsTrace : Prop :=
  ∀ s t : State, step s = .next t →
    t.params = s.params ∧ (∃ new, t.tr = s.tr ++ new) ∧
    ((∃ answers, t.responses = s.responses ++ answers) ∨
      ∃ later, s.agenda = .hostReceive :: later ∧ t.responses = s.responses.tail)

/-- Every command that runs answers exactly once, leaves PH idle, and leaves the command port and the agenda alone. -/
def Obligations.CommandAnswersOnce : Prop :=
  ∀ (i : Instr) (s t : State), i.isCommand = true → exec i s = .next t →
    (∃ r, t.responses = s.responses ++ [r]) ∧ t.ph = .idle ∧ t.cmdPort = s.cmdPort ∧ t.agenda = s.agenda ∧
    t.params = s.params

/-- R176: a command that ends in an error has changed nothing but its response and PH, with value 0. -/
def Obligations.ErrorChangesNothing : Prop :=
  ∀ (i : Instr) (s t : State) (r : Response), i.isCommand = true → exec i s = .next t →
    t.lastResponse = some r → r.status ≠ .ok → r.value = 0 ∧ t = s.rejected r.status

/-- What a command answers: never ILLEGAL_COMMAND; SIZE_ERROR from WRAW with more than 144 bytes and from nothing else; RESET,
INIT, SLEEP, BLINKQ and XLAT always OK; value 0 unless the status is OK and the command is RDR, BLINKQ or XLAT, whose
values are a byte, 0 to 1890, and 0 to 142 or 0xFFFF; and the response's three bytes are the status code and the value,
most significant byte first. -/
def Obligations.ResponseOutcomes : Prop :=
  ∀ (i : Instr) (s t : State) (r : Response), i.isCommand = true → exec i s = .next t → t.lastResponse = some r →
    r.status ≠ .illegalCommand ∧
    (r.status = .sizeError ↔ ∃ frame payload, i = .wraw frame payload ∧ 144 < payload.length) ∧
    ((i = .reset ∨ i = .init ∨ (∃ e, i = .sleep e) ∨ i = .blinkq ∨ ∃ x y, i = .xlat x y) → r.status = .ok) ∧
    (r.value ≠ 0 → r.status = .ok ∧
      ((∃ b g, i = .rdr b g ∧ r.value.toNat ≤ 255) ∨ (i = .blinkq ∧ r.value.toNat ≤ 1890) ∨
        ∃ x y, i = .xlat x y ∧ (r.value.toNat ≤ 142 ∨ r.value = 0xFFFF))) ∧
    r.bytes.map BitVec.toNat =
      [(match r.status with | .ok => 0 | .rangeError => 1 | .sizeError => 2 | .illegalCommand => 3),
       r.value.toNat / 256, r.value.toNat % 256] ∧
    r.word.toNat = r.status.code.toNat * 65536 + r.value.toNat

/-- No meaning faults, and the only refusal is that of FILL, WRAW, SETPX or AUTOPLAY reading AF while it has no value; no other
state makes a command fail. -/
def Obligations.OnlyUnsetActiveFrameStops : Prop :=
  ∀ (i : Instr) (s : State),
    (∀ r, exec i s ≠ .fault r) ∧
    (∀ r, exec i s = .refused r → r = .activeFrameUnset ∧ s.af = none ∧
      ((∃ color blink, i = .fill none color blink) ∨ (∃ payload, i = .wraw none payload) ∨
       (∃ x y color blink, i = .setpx x y color blink none) ∨ ∃ d l n, i = .autoplay d l n))

/-- R114: every command selects before it accesses: an access at another address than BANK_ADDRESS is preceded, within the
command, by a bank select with no other bank-select write between; and the first transaction of a command that emits any is
always a bank select, never skipped. -/
def Obligations.SelectPrecedesAccess : Prop :=
  ∀ (i : Instr) (s t : State), i.isCommand = true → exec i s = .next t →
    ∃ ops : List BusOp, t.tr = s.tr ++ ops.map (Txn.mk (.command i)) ∧ SelectBeforeAccess s.params ops ∧
      (ops = [] ∨ ∃ b rest, ops = selectOp s.params b :: rest)

/-- Insensitivity to the initial bank (41_bank_protocol.md, last rule, derived there): two states that differ only in BSR give
the same response, the same transactions and, where any transaction is emitted, the same final state. -/
def Obligations.BankInsensitive : Prop :=
  ∀ (i : Instr) (s : State) (b : Byte), i.isCommand = true →
    match exec i s with
    | .next t => ∃ t', exec i { s with bsr := b } = .next t' ∧ t'.responses = t.responses ∧ t'.tr = t.tr ∧
        if t.tr = s.tr then t' = { t with bsr := b } else t' = t
    | .fault r => exec i { s with bsr := b } = .fault r
    | .refused r => exec i { s with bsr := b } = .refused r

/-- AF is written by FRAME and INIT only (10_state.md section 4). -/
def Obligations.ActiveFrameWriters : Prop :=
  ∀ (i : Instr) (s t : State), exec i s = .next t → t.af ≠ s.af → i = .init ∨ ∃ f, i = .frame f

/-- Frames are independent: a command other than INIT that changes a byte of one frame bank changes no byte of another
(10_state.md section 2). -/
def Obligations.FramesIndependent : Prop :=
  ∀ (i : Instr) (s t : State) (f g : Fin 8), s.Sound → i.isCommand = true → i ≠ .init → exec i s = .next t → f ≠ g →
    (∃ l : Loc, l.InFrame f ∧ t.get l ≠ s.get l) → ∀ l : Loc, l.InFrame g → t.get l = s.get l

/-- INIT and the raw WRR are the only commands that write an enable mask (10_state.md section 2). -/
def Obligations.EnableMaskWriters : Prop :=
  ∀ (i : Instr) (s t : State), s.Sound → i.isCommand = true → exec i s = .next t →
    (∃ f k, t.en f k ≠ s.en f k) → i = .init ∨ ∃ b r v, i = .wrr b r v

/-- Mode last (42_lifecycle_mode.md R129): what AUTOPLAY and AUDIOPLAY emit ends with the one write to the mode register, and
with a non-zero first operand both parameter writes stand before it; a call that does not answer OK emits nothing. -/
def Obligations.ModeWrittenLast : Prop :=
  (∀ (s t : State) (d l n : Operand), s.Sound → exec (.autoplay d l n) s = .next t →
    ∃ ops : List BusOp, t.tr = s.tr ++ ops.map (Txn.mk (.command (.autoplay d l n))) ∧
      if t.lastResponse = some ⟨.ok, 0⟩ then
        ModeLast s.params (if d = 0 then [] else [s.params.regAutoplay1, s.params.regAutoplay2]) ops
      else ops = []) ∧
  (∀ (s t : State) (r g e q : Operand), s.Sound → exec (.audioplay r g e q) s = .next t →
    ∃ ops : List BusOp, t.tr = s.tr ++ ops.map (Txn.mk (.command (.audioplay r g e q))) ∧
      if t.lastResponse = some ⟨.ok, 0⟩ then
        ModeLast s.params (if r = 0 then [] else [s.params.regAdc, s.params.regGain]) ops
      else ops = [])

/-- A command emits at most 638 transactions (70_reset_and_hazards.md section 4). -/
def Obligations.TransactionsBounded : Prop :=
  ∀ (i : Instr) (s t : State), i.isCommand = true → exec i s = .next t →
    ∃ ops : List BusOp, t.tr = s.tr ++ ops.map (Txn.mk (.command i)) ∧ ops.length ≤ 638

/-- R128, the rows of the table: what LState is after each command that can change it. That each mode value lies inside the
mode field is a hypothesis (log entry 19). -/
def Obligations.LifecycleTransitions : Prop :=
  ∀ s : State, s.Sound → s.params.ModesInField →
    (∃ t, exec .reset s = .next t ∧ t.lstate = t.mode ∧ t.mode = s.mode) ∧
    (∃ t, exec .init s = .next t ∧ t.mode = some .pictureMode ∧
      t.lstate = if s.lstate = some .sleeping then some .sleeping else some .pictureMode) ∧
    (∀ e, e ≠ 0 → ∃ t, exec (.sleep e) s = .next t ∧ t.lstate = some .sleeping ∧ t.mode = s.mode) ∧
    (∃ t, exec (.sleep 0) s = .next t ∧ t.lstate = t.mode ∧ t.mode = s.mode) ∧
    (∀ l n, ∃ t, exec (.autoplay 0 l n) s = .next t ∧ t.mode = some .pictureMode ∧
      t.lstate = if s.lstate = some .sleeping then some .sleeping else some .pictureMode) ∧
    (∀ d l n f, s.af = some f → Within 11 714 d → Within 0 7 l → Within 0 7 n →
      ∃ t, exec (.autoplay d l n) s = .next t ∧ t.mode = some .autoplayMode ∧
        t.lstate = if s.lstate = some .sleeping then some .sleeping else some .autoplayMode) ∧
    (∀ g e q, ∃ t, exec (.audioplay 0 g e q) s = .next t ∧ t.mode = some .pictureMode ∧
      t.lstate = if s.lstate = some .sleeping then some .sleeping else some .pictureMode) ∧
    (∀ r g e q, Within 46 11821 r → Within 0 23 g →
      ∃ t, exec (.audioplay r g e q) s = .next t ∧ t.mode = some .audioplayMode ∧
        t.lstate = if s.lstate = some .sleeping then some .sleeping else some .audioplayMode)

/-- R128, the other half: no command but RESET, INIT, SLEEP, AUTOPLAY, AUDIOPLAY and a WRR to the mode or the shutdown register
changes LState. -/
def Obligations.LifecycleUnchangedByOthers : Prop :=
  ∀ (i : Instr) (s t : State), s.Sound → i.isCommand = true → exec i s = .next t → t.lstate ≠ s.lstate →
    i = .reset ∨ i = .init ∨ (∃ e, i = .sleep e) ∨ (∃ d l n, i = .autoplay d l n) ∨
    (∃ r g e q, i = .audioplay r g e q) ∨
    ∃ b r v, i = .wrr b r v ∧ (r.setWidth 8 = s.params.regMode ∨ r.setWidth 8 = s.params.regShutdown)

/-- BLINKQ after BLINKRATE returns the rate rounded down to a multiple of 270 and reduced modulo 2160. -/
def Obligations.BlinkRateReadsBack : Prop :=
  ∀ (s : State) (rateMs : Operand), s.Sound → 0 ≤ rateMs.toInt →
    ∃ t u, exec (.blinkrate rateMs) s = .next t ∧ exec .blinkq t = .next u ∧
      u.lastResponse = some ⟨.ok, BitVec.ofNat 16 (rateMs.toNat / 270 * 270 % 2160)⟩

/-- Boot: from every power-on state, whatever the device registers hold, RESET then INIT gives the known state, and the seven
registers the sequence does not write keep what they held (10_state.md section 7, derived there). -/
def Obligations.BootEstablishesKnownState : Prop :=
  ∀ s : State, s.PowerOn → s.params.ModesInField → s.agenda = [] → s.cmdPort = encode .reset ++ encode .init →
    ∃ t u, step s = .next t ∧ step t = .next u ∧
      (∀ f i, u.int f i = 0x00) ∧ (∀ f k, u.bl f k = 0x00) ∧ (∀ f k, u.en f k = 0xFF) ∧
      u.cfg = { s.cfg with mode := s.params.modePicture, frame := 0x00, audiosync := s.params.audiosyncOff,
                           shutdown := s.params.shutdownOff } ∧
      u.af = some 0 ∧ u.bsr = s.params.configBank ∧ u.lstate = some .pictureMode ∧ u.ph = .idle ∧ u.cmdPort = [] ∧
      u.tr.length = 642 ∧ u.responses = s.responses ++ [⟨.ok, 0⟩, ⟨.ok, 0⟩]

/-- The display port: in picture mode, after a pixel of the shown frame is set, `Shown` of that pixel is the colour with its
blink flag and enable bit as before, and `Shown` of every other pixel is unchanged (PIXEL_BLINK_IMPL false). -/
def Obligations.ShownFollowsSetpx : Prop :=
  ∀ (s : State) (x y c : Operand) (blink : Option Operand) (px : Fin 17) (py : Fin 7),
    s.Sound → s.params.pixelBlinkImpl = false → s.lstate = some .pictureMode → s.af = some s.shownFrame →
    NamesPixel x y px py → Within 0 255 c →
    ∃ t, exec (.setpx x y (some c) blink none) s = .next t ∧
      (∀ old, s.shown px py = some old → t.shown px py = some { old with intensity := c.setWidth 8 }) ∧
      (s.shown px py).isSome = true ∧
      ∀ qx qy, (qx, qy) ≠ (px, py) → t.shown qx qy = s.shown qx qy

/-- The steps of HOST and DISP (00_scope.md R3). HOST presents bytes: they stand at the end of the command port; HOST receives
the oldest response, if there is one; nothing else changes (log entry 27). A command HOST presents on an empty port runs in
the BRP's next turn. A DISP sample changes nothing: the step takes the turn and that is all (20_memory.md R66, "It never
writes, and its reads have no side effect"). The turns are the model's (log entries 7, 22). -/
def Obligations.HostAndDisplayTurns : Prop :=
  ∀ (s : State) (later : List Event), s.ph = .idle →
    (∀ bytes, s.agenda = .hostSend bytes :: later →
      step s = .next { s with agenda := later, cmdPort := s.cmdPort ++ bytes }) ∧
    (s.agenda = .hostReceive :: later →
      (∀ oldest rest, s.responses = oldest :: rest → step s = .next { s with agenda := later, responses := rest }) ∧
      (s.responses = [] → step s = .next { s with agenda := later })) ∧
    (∀ i : Instr, i.wf = true → i.isCommand = true → s.cmdPort = [] → s.agenda = .hostSend (encode i) :: .brp :: later →
      ∃ t, step s = .next t ∧ step t = exec i { s with agenda := later, cmdPort := [], ph := .busy }) ∧
    (s.agenda = .disp :: later → step s = .next { s with agenda := later })

/-- AF and CFG[FRAME] can diverge (70_reset_and_hazards.md section 3, derived there): a raw WRR to the frame register changes
the frame that is shown and not the frame that later commands default to, and answers OK. -/
def Obligations.WrrFrameLeavesActiveFrame : Prop :=
  ∀ (s : State) (value : Operand), s.Sound → Within 0 7 value →
    ∃ t, exec (.wrr (s.params.configBank.setWidth 16) (s.params.regFrame.setWidth 16) value) s = .next t ∧
      t.lastResponse = some ⟨.ok, 0⟩ ∧ t.af = s.af ∧ (t.shownFrame.val : Int) = value.toInt ∧ targetFrame none t = s.af

/-- The bank-selection hazard at the bus (70_reset_and_hazards.md section 3): with the default parameters, master A's select,
master B's select of the configuration bank, then A's write of enable byte 0: the write lands in the mode register, the
lifecycle state becomes audioplay, and the enable byte is not written. That raw records of other masters run as steps is the
model's choice (log entry 8; the spec's R182 puts such masters outside). -/
def Obligations.BankInterferenceReachable : Prop :=
  ∀ s : State, s.Inv → s.params = Params.default → s.cfg.shutdown = 0x01 →
    s.agenda = [.bus [0xE8, 0xFD, 0x00], .bus [0xE8, 0xFD, 0x0B], .bus [0xE8, 0x00, 0xFF]] →
    ∃ t u w, step s = .next t ∧ step t = .next u ∧ step u = .next w ∧
      w.cfg.mode = 0xFF ∧ w.lstate = some .audioplayMode ∧ w.bsr = 0x0B ∧ w.en 0 0 = s.en 0 0
end

