-- ==== Sys2Proof/Laws/Decode.lean ====
section
/-! SUPPORT. Laws of the decoder: a word is its two bytes, and decoding a frame's bytes gives back its fields. -/

namespace Sys2Proof

/-- A word is put together from its own bytes. -/
@[simp] theorem wordOf_bytes (w : BitVec 16) : wordOf (hiByte w) (loByte w) = w := by
  unfold wordOf hiByte loByte
  apply BitVec.eq_of_getElem_eq
  intro i hi
  simp only [BitVec.getElem_append, BitVec.getElem_setWidth, BitVec.getLsbD_ushiftRight]
  split
  · rw [BitVec.getLsbD_eq_getElem]
  · rw [show 8 + (i - 8) = i by omega, BitVec.getLsbD_eq_getElem]

/-- Decoding the 12 bytes of a frame: its head selects the command, its fields are read back, the rest is untouched. -/
theorem decodeFrame_frameBytes (op pf : Byte) (a b c d e : Operand) (rest : List Byte) :
    decodeFrame (frameBytes op pf a b c d e ++ rest) =
      match opOfHead (wordOf op pf) with
      | none => .error .illegalHead
      | some o => instrOfFields o pf a b c d e rest := by
  cases h : opOfHead (wordOf op pf) <;>
    simp only [frameBytes, decodeFrame, wordOf_bytes, List.cons_append, List.nil_append, h]

@[simp] theorem frameBytes_length (op pf : Byte) (a b c d e : Operand) : (frameBytes op pf a b c d e).length = 12 := rfl

end Sys2Proof
end

