-- ==== Sys2Proof/Laws/Memory.lean ====
section
/-! SUPPORT. Laws of the frame buffer RAM: read after write, the canonical form, and that the addresses of different registers
differ. -/

namespace Sys2Proof.Machine

@[simp] theorem Memory.read_nil (a : Nat) : Memory.read [] a = Config.unlistedByte := rfl

@[simp] theorem Memory.wf_nil : Memory.wf [] = true := rfl

theorem Memory.wfFrom_cons {lo k : Nat} {w : Byte} {m : Memory} :
    Memory.wfFrom lo ((k, w) :: m) = true ↔
      lo ≤ k ∧ k < 1440 ∧ w ≠ Config.unlistedByte ∧ Memory.wfFrom (k + 1) m = true := by
  simp [Memory.wfFrom, and_assoc]

theorem Memory.wfFrom_mono {lo lo' : Nat} (h : lo' ≤ lo) {m : Memory} (hm : Memory.wfFrom lo m = true) :
    Memory.wfFrom lo' m = true := by
  cases m with
  | nil => rfl
  | cons c m =>
    obtain ⟨k, w⟩ := c
    rw [Memory.wfFrom_cons] at hm ⊢
    exact ⟨by omega, hm.2⟩

/-- An address below every listed one reads as an unlisted one. -/
theorem Memory.read_below {lo a : Nat} {m : Memory} (hm : Memory.wfFrom lo m = true) (h : a < lo) :
    Memory.read m a = Config.unlistedByte := by
  induction m generalizing lo with
  | nil => rfl
  | cons c m ih =>
    obtain ⟨k, w⟩ := c
    rw [Memory.wfFrom_cons] at hm
    simp only [Memory.read, if_neg (show k ≠ a by omega)]
    exact ih hm.2.2.2 (by omega)

theorem Memory.read_write_other {a b : Nat} (h : b ≠ a) (m : Memory) (v : Byte) :
    Memory.read (Memory.write m a v) b = Memory.read m b := by
  induction m with
  | nil => by_cases hv : v = Config.unlistedByte <;> simp [Memory.write, Memory.read, hv, h.symm]
  | cons c m ih =>
    obtain ⟨k, w⟩ := c
    simp only [Memory.write]
    split
    · simp only [Memory.read, ih]
    · split
      · rename_i hk
        split <;> simp [Memory.read, h.symm, hk]
      · split <;> simp [Memory.read, h.symm]

theorem Memory.read_write_same_from {lo a : Nat} {m : Memory} (hm : Memory.wfFrom lo m = true) (v : Byte) :
    Memory.read (Memory.write m a v) a = v := by
  induction m generalizing lo with
  | nil => by_cases hv : v = Config.unlistedByte <;> simp [Memory.write, Memory.read, hv]
  | cons c m ih =>
    obtain ⟨k, w⟩ := c
    rw [Memory.wfFrom_cons] at hm
    simp only [Memory.write]
    split
    · rename_i hk
      simp only [Memory.read, if_neg (show k ≠ a by omega)]
      exact ih hm.2.2.2
    · split
      · rename_i hk
        split
        · rename_i hv
          rw [hv]
          exact Memory.read_below hm.2.2.2 (by omega)
        · simp [Memory.read]
      · split
        · rename_i hv
          simp only [Memory.read, if_neg (show k ≠ a by omega), hv]
          exact Memory.read_below hm.2.2.2 (by omega)
        · simp [Memory.read]

/-- A read after a write to the same address gives the byte written. -/
theorem Memory.read_write_same {m : Memory} (hm : Memory.wf m = true) (a : Nat) (v : Byte) :
    Memory.read (Memory.write m a v) a = v := Memory.read_write_same_from hm v

theorem Memory.wfFrom_write {lo a : Nat} {m : Memory} (hm : Memory.wfFrom lo m = true) (hlo : lo ≤ a) (ha : a < 1440)
    (v : Byte) : Memory.wfFrom lo (Memory.write m a v) = true := by
  induction m generalizing lo with
  | nil =>
    by_cases hv : v = Config.unlistedByte
    · simp [Memory.write, hv, Memory.wfFrom]
    · simp only [Memory.write, if_neg hv, Memory.wfFrom_cons]
      exact ⟨hlo, ha, hv, rfl⟩
  | cons c m ih =>
    obtain ⟨k, w⟩ := c
    rw [Memory.wfFrom_cons] at hm
    obtain ⟨h1, h2, h3, h4⟩ := hm
    simp only [Memory.write]
    split
    · rw [Memory.wfFrom_cons]
      exact ⟨h1, h2, h3, ih h4 (by omega)⟩
    · split
      · split
        · exact Memory.wfFrom_mono (by omega) h4
        · rename_i hk hv
          rw [Memory.wfFrom_cons]
          exact ⟨hlo, ha, hv, hk ▸ h4⟩
      · split
        · rw [Memory.wfFrom_cons]
          exact ⟨h1, h2, h3, h4⟩
        · rename_i hv
          rw [Memory.wfFrom_cons, Memory.wfFrom_cons]
          exact ⟨hlo, ha, hv, by omega, h2, h3, h4⟩

/-- Every write keeps the canonical form. -/
theorem Memory.wf_write {a : Nat} {m : Memory} (hm : Memory.wf m = true) (ha : a < 1440) (v : Byte) :
    Memory.wf (Memory.write m a v) = true := Memory.wfFrom_write hm (Nat.zero_le _) ha v

theorem enAddress_lt (f : Fin 8) (k : Fin 18) : enAddress f k < 1440 := by unfold enAddress; omega

theorem blAddress_lt (f : Fin 8) (k : Fin 18) : blAddress f k < 1440 := by unfold blAddress; omega

theorem intAddress_lt (f : Fin 8) (i : Fin 144) : intAddress f i < 1440 := by unfold intAddress; omega

theorem enAddress_inj {f g : Fin 8} {k l : Fin 18} : enAddress f k = enAddress g l ↔ f = g ∧ k = l := by
  unfold enAddress; simp only [Fin.ext_iff]; omega

theorem blAddress_inj {f g : Fin 8} {k l : Fin 18} : blAddress f k = blAddress g l ↔ f = g ∧ k = l := by
  unfold blAddress; simp only [Fin.ext_iff]; omega

theorem intAddress_inj {f g : Fin 8} {i j : Fin 144} : intAddress f i = intAddress g j ↔ f = g ∧ i = j := by
  unfold intAddress; simp only [Fin.ext_iff]; omega

theorem enAddress_ne_blAddress (f g : Fin 8) (k l : Fin 18) : enAddress f k ≠ blAddress g l := by
  unfold enAddress blAddress; omega

theorem enAddress_ne_intAddress (f g : Fin 8) (k : Fin 18) (i : Fin 144) : enAddress f k ≠ intAddress g i := by
  unfold enAddress intAddress; omega

theorem blAddress_ne_intAddress (f g : Fin 8) (k : Fin 18) (i : Fin 144) : blAddress f k ≠ intAddress g i := by
  unfold blAddress intAddress; omega

end Sys2Proof.Machine
end

