-- ==== Sys2Proof/Laws/Operands.lean ====
section
/-! SUPPORT. Laws of the operand checks: each answers on exactly the operands the rules admit. -/

namespace Sys2Proof.Machine

theorem bankOperand_valid {p : Params} {v : Operand} (h : ValidBank p v) : bankOperand p v = some (v.setWidth 8) := by
  unfold bankOperand
  exact if_pos h

theorem bankOperand_invalid {p : Params} {v : Operand} (h : ¬ ValidBank p v) : bankOperand p v = none := by
  unfold bankOperand
  exact if_neg h

theorem byteOperand_within {v : Operand} (h : Within 0 255 v) : byteOperand v = some (v.setWidth 8) := by
  unfold byteOperand
  exact if_pos h

theorem byteOperand_outside {v : Operand} (h : ¬ Within 0 255 v) : byteOperand v = none := by
  unfold byteOperand
  exact if_neg h

theorem countOperand_within {v : Operand} (h : Within 0 7 v) : countOperand v = some (v.setWidth 8) := by
  unfold countOperand
  exact if_pos h

theorem countOperand_outside {v : Operand} (h : ¬ Within 0 7 v) : countOperand v = none := by
  unfold countOperand
  exact if_neg h

theorem scaledOperand_within {unit lo hi : Int} {v : Operand} (h : lo ≤ v.toInt / unit ∧ v.toInt / unit ≤ hi) :
    scaledOperand unit lo hi v = some (v.toInt / unit).toNat := by
  unfold scaledOperand
  exact if_pos h

theorem scaledOperand_outside {unit lo hi : Int} {v : Operand} (h : ¬ (lo ≤ v.toInt / unit ∧ v.toInt / unit ≤ hi)) :
    scaledOperand unit lo hi v = none := by
  unfold scaledOperand
  exact if_neg h

theorem frameOperand_index {v : Operand} {f : Fin 8} (h : v.toInt = (f.val : Int)) : frameOperand v = some f := by
  unfold frameOperand
  rw [dif_pos (by omega)]
  simp [h]

theorem frameOperand_outside {v : Operand} (h : ¬ Within 0 7 v) : frameOperand v = none := by
  unfold frameOperand
  exact dif_neg h

/-- A named frame passes its check and is the target. -/
theorem namesFrame_target {s : State} {frame : Option Operand} {f : Fin 8} (h : NamesFrame s frame f) :
    ∃ fr, checkOptional frameOperand frame = some fr ∧ targetFrame fr s = some f := by
  rcases h with ⟨rfl, h⟩ | ⟨v, rfl, h⟩
  · exact ⟨none, rfl, h⟩
  · exact ⟨some f, by simp [checkOptional, frameOperand_index h], rfl⟩

theorem badFrame_fails {frame : Option Operand} (h : BadFrame frame) : checkOptional frameOperand frame = none := by
  obtain ⟨v, rfl, h⟩ := h
  simp [checkOptional, frameOperand_outside h]

theorem badColor_fails {color : Option Operand} (h : BadColor color) : checkOptional byteOperand color = none := by
  obtain ⟨v, rfl, h⟩ := h
  simp [checkOptional, byteOperand_outside h]

theorem color_passes {color : Option Operand} (h : ∀ v, color = some v → Within 0 255 v) :
    checkOptional byteOperand color = some (color.map (·.setWidth 8)) := by
  cases color with
  | none => rfl
  | some v => simp [checkOptional, byteOperand_within (h v rfl)]

theorem frame_passes {frame : Option Operand} (h : ¬ BadFrame frame) :
    ∃ fr, checkOptional frameOperand frame = some fr := by
  cases frame with
  | none => exact ⟨_, rfl⟩
  | some v =>
    have hw : Within 0 7 v := by
      by_contra h'
      exact h ⟨v, rfl, h'⟩
    refine ⟨some ⟨v.toInt.toNat, by have := hw.2; omega⟩, ?_⟩
    have h1 := hw.1
    have h2 := hw.2
    simp [checkOptional, frameOperand, h1, h2]

theorem pixelOperands_named {x y : Operand} {px : Fin 17} {py : Fin 7} (h : NamesPixel x y px py) :
    pixelOperands x y = some (px, py) := by
  have h1 := h.1
  have h2 := h.2
  unfold pixelOperands
  rw [dif_pos (by omega)]
  simp [h1, h2]

theorem pixelOperands_off {x y : Operand} (h : OffMatrix x y) : pixelOperands x y = none := by
  unfold pixelOperands
  rw [dif_neg]
  intro h'
  exact h ⟨⟨h'.1, h'.2.1⟩, h'.2.2⟩

/-- A non-negative operand is its unsigned value. -/
theorem toInt_of_nonneg {v : Operand} (h : 0 ≤ v.toInt) : v.toInt = (v.toNat : Int) := by
  rw [BitVec.toInt_eq_toNat_cond] at h ⊢
  split <;> simp_all
  omega

/-- The masked low three bits of a byte are its value modulo 8. -/
theorem and_seven (q : Nat) : BitVec.ofNat 8 q &&& 0x07 = BitVec.ofNat 8 (q % 8) := by
  apply BitVec.eq_of_toNat_eq
  simp only [BitVec.toNat_and, BitVec.toNat_ofNat]
  rw [show BitVec.toNat (7 : Byte) = 2 ^ 3 - 1 by rfl, Nat.and_two_pow_sub_one_eq_mod]
  omega

/-- A field of three bits or'ed into a byte whose low three bits are clear is added to it. -/
theorem or_low_three {a : Byte} (h : a &&& 7 = 0) (f : Fin 8) : (a ||| BitVec.ofNat 8 f.val).toNat = a.toNat + f.val := by
  revert a f
  decide

end Sys2Proof.Machine
end

