-- ==== Sys2Proof/Laws/State.lean ====
section
/-! SUPPORT. One lemma per field per update of the state, and the laws of `State.get` and `State.put`. -/

namespace Sys2Proof.Machine

/-! ### respond -/

@[simp] theorem respond_params (st v s) : (respond st v s).params = s.params := rfl
@[simp] theorem respond_bsr (st v s) : (respond st v s).bsr = s.bsr := rfl
@[simp] theorem respond_fbr (st v s) : (respond st v s).fbr = s.fbr := rfl
@[simp] theorem respond_cfg (st v s) : (respond st v s).cfg = s.cfg := rfl
@[simp] theorem respond_ptr (st v s) : (respond st v s).ptr = s.ptr := rfl
@[simp] theorem respond_af (st v s) : (respond st v s).af = s.af := rfl
@[simp] theorem respond_ph (st v s) : (respond st v s).ph = .idle := rfl
@[simp] theorem respond_tr (st v s) : (respond st v s).tr = s.tr := rfl
@[simp] theorem respond_responses (st v s) : (respond st v s).responses = s.responses ++ [⟨st, v⟩] := rfl
@[simp] theorem respond_cmdPort (st v s) : (respond st v s).cmdPort = s.cmdPort := rfl
@[simp] theorem respond_agenda (st v s) : (respond st v s).agenda = s.agenda := rfl
@[simp] theorem respond_draws (st v s) : (respond st v s).draws = s.draws := rfl

/-! ### record -/

@[simp] theorem record_params (e op s) : (record e op s).params = s.params := rfl
@[simp] theorem record_bsr (e op s) : (record e op s).bsr = s.bsr := rfl
@[simp] theorem record_fbr (e op s) : (record e op s).fbr = s.fbr := rfl
@[simp] theorem record_cfg (e op s) : (record e op s).cfg = s.cfg := rfl
@[simp] theorem record_ptr (e op s) : (record e op s).ptr = s.ptr := rfl
@[simp] theorem record_af (e op s) : (record e op s).af = s.af := rfl
@[simp] theorem record_ph (e op s) : (record e op s).ph = s.ph := rfl
@[simp] theorem record_tr (e op s) : (record e op s).tr = s.tr ++ [⟨e, op⟩] := rfl
@[simp] theorem record_responses (e op s) : (record e op s).responses = s.responses := rfl
@[simp] theorem record_cmdPort (e op s) : (record e op s).cmdPort = s.cmdPort := rfl
@[simp] theorem record_agenda (e op s) : (record e op s).agenda = s.agenda := rfl
@[simp] theorem record_draws (e op s) : (record e op s).draws = s.draws := rfl

/-! ### setPtr -/

@[simp] theorem State.setPtr_params (s : State) (p) : (s.setPtr p).params = s.params := rfl
@[simp] theorem State.setPtr_bsr (s : State) (p) : (s.setPtr p).bsr = s.bsr := rfl
@[simp] theorem State.setPtr_fbr (s : State) (p) : (s.setPtr p).fbr = s.fbr := rfl
@[simp] theorem State.setPtr_cfg (s : State) (p) : (s.setPtr p).cfg = s.cfg := rfl
@[simp] theorem State.setPtr_ptr (s : State) (p) : (s.setPtr p).ptr = p := rfl
@[simp] theorem State.setPtr_af (s : State) (p) : (s.setPtr p).af = s.af := rfl
@[simp] theorem State.setPtr_ph (s : State) (p) : (s.setPtr p).ph = s.ph := rfl
@[simp] theorem State.setPtr_tr (s : State) (p) : (s.setPtr p).tr = s.tr := rfl
@[simp] theorem State.setPtr_responses (s : State) (p) : (s.setPtr p).responses = s.responses := rfl
@[simp] theorem State.setPtr_cmdPort (s : State) (p) : (s.setPtr p).cmdPort = s.cmdPort := rfl
@[simp] theorem State.setPtr_agenda (s : State) (p) : (s.setPtr p).agenda = s.agenda := rfl
@[simp] theorem State.setPtr_draws (s : State) (p) : (s.setPtr p).draws = s.draws := rfl
@[simp] theorem State.setPtr_setPtr (s : State) (p q) : (s.setPtr p).setPtr q = s.setPtr q := rfl

/-! ### put -/

theorem State.put_setPtr (s : State) (p l v) : (s.setPtr p).put l v = (s.put l v).setPtr p := by cases l <;> rfl

@[simp] theorem State.put_params (s : State) (l v) : (s.put l v).params = s.params := by cases l <;> rfl
@[simp] theorem State.put_ptr (s : State) (l v) : (s.put l v).ptr = s.ptr := by cases l <;> rfl
@[simp] theorem State.put_af (s : State) (l v) : (s.put l v).af = s.af := by cases l <;> rfl
@[simp] theorem State.put_ph (s : State) (l v) : (s.put l v).ph = s.ph := by cases l <;> rfl
@[simp] theorem State.put_tr (s : State) (l v) : (s.put l v).tr = s.tr := by cases l <;> rfl
@[simp] theorem State.put_responses (s : State) (l v) : (s.put l v).responses = s.responses := by cases l <;> rfl
@[simp] theorem State.put_cmdPort (s : State) (l v) : (s.put l v).cmdPort = s.cmdPort := by cases l <;> rfl
@[simp] theorem State.put_agenda (s : State) (l v) : (s.put l v).agenda = s.agenda := by cases l <;> rfl
@[simp] theorem State.put_draws (s : State) (l v) : (s.put l v).draws = s.draws := by cases l <;> rfl

@[simp] theorem State.put_unmapped (s : State) (v) : s.put .unmapped v = s := rfl

/-! ### The configuration bank -/

@[simp] theorem CfgBank.get_set_same (c : CfgBank) (n : CfgName) (v : Byte) : (c.set n v).get n = v := by cases n <;> rfl

theorem CfgBank.get_set_other (c : CfgBank) {n m : CfgName} (h : m ≠ n) (v : Byte) : (c.set n v).get m = c.get m := by
  cases n <;> cases m <;> first | rfl | exact absurd rfl h

theorem CfgName.mem_all (n : CfgName) : n ∈ CfgName.all := by cases n <;> decide

/-! ### get -/

@[simp] theorem State.get_bsr (s : State) : s.get .bsr = some s.bsr := rfl
@[simp] theorem State.get_unmapped (s : State) : s.get .unmapped = none := rfl

/-- A location holds no byte exactly when it is no register. -/
theorem State.get_eq_none {s : State} {l : Loc} : s.get l = none ↔ l = .unmapped := by
  cases l <;> simp [State.get]

/-- The device's bytes depend on BSR, the frame buffer RAM and the configuration bank only. -/
theorem State.get_congr {s t : State} (hb : t.bsr = s.bsr) (hf : t.fbr = s.fbr) (hc : t.cfg = s.cfg) (l : Loc) :
    t.get l = s.get l := by
  cases l <;> simp [State.get, hb, hf, hc]

@[simp] theorem get_respond (st v s l) : (respond st v s).get l = s.get l := State.get_congr rfl rfl rfl l
@[simp] theorem get_record (e op s l) : (record e op s).get l = s.get l := State.get_congr rfl rfl rfl l
@[simp] theorem State.get_setPtr (s : State) (p l) : (s.setPtr p).get l = s.get l := State.get_congr rfl rfl rfl l
@[simp] theorem State.get_with_af (s : State) (a l) : ({ s with af := a }).get l = s.get l :=
  State.get_congr rfl rfl rfl l
@[simp] theorem State.get_with_draws (s : State) (n l) : ({ s with draws := n }).get l = s.get l :=
  State.get_congr rfl rfl rfl l

/-- A byte stored at a register is what the register then holds. -/
theorem State.get_put_same {s : State} (hm : Memory.wf s.fbr = true) {l : Loc} (hl : l ≠ .unmapped) (v : Byte) :
    (s.put l v).get l = some v := by
  cases l with
  | bsr => rfl
  | en f k => simp [State.put, State.get, Memory.read_write_same hm]
  | bl f k => simp [State.put, State.get, Memory.read_write_same hm]
  | int f i => simp [State.put, State.get, Memory.read_write_same hm]
  | cfg n => simp [State.put, State.get]
  | unmapped => exact absurd rfl hl

/-- A store at one location leaves every other location alone. -/
theorem State.get_put_other (s : State) {l m : Loc} (h : m ≠ l) (v : Byte) : (s.put l v).get m = s.get m := by
  cases l with
  | bsr => cases m <;> first | rfl | exact absurd rfl h
  | unmapped => rfl
  | cfg n =>
    cases m with
    | cfg n' => simp [State.put, State.get, CfgBank.get_set_other s.cfg (n := n) (m := n') (by rintro rfl; exact h rfl)]
    | _ => rfl
  | en f k =>
    cases m with
    | en g l =>
      simp only [State.put, State.get]
      rw [Memory.read_write_other]
      rw [Ne, enAddress_inj]
      rintro ⟨rfl, rfl⟩
      exact h rfl
    | bl g l => simp only [State.put, State.get]; rw [Memory.read_write_other (enAddress_ne_blAddress f g k l).symm]
    | int g i => simp only [State.put, State.get]; rw [Memory.read_write_other (enAddress_ne_intAddress f g k i).symm]
    | _ => rfl
  | bl f k =>
    cases m with
    | bl g l =>
      simp only [State.put, State.get]
      rw [Memory.read_write_other]
      rw [Ne, blAddress_inj]
      rintro ⟨rfl, rfl⟩
      exact h rfl
    | en g l => simp only [State.put, State.get]; rw [Memory.read_write_other (enAddress_ne_blAddress g f l k)]
    | int g i => simp only [State.put, State.get]; rw [Memory.read_write_other (blAddress_ne_intAddress f g k i).symm]
    | _ => rfl
  | int f i =>
    cases m with
    | int g j =>
      simp only [State.put, State.get]
      rw [Memory.read_write_other]
      rw [Ne, intAddress_inj]
      rintro ⟨rfl, rfl⟩
      exact h rfl
    | en g l => simp only [State.put, State.get]; rw [Memory.read_write_other (enAddress_ne_intAddress g f l i)]
    | bl g l => simp only [State.put, State.get]; rw [Memory.read_write_other (blAddress_ne_intAddress g f l i)]
    | _ => rfl

/-- Every store keeps the frame buffer RAM canonical. -/
theorem State.wf_put {s : State} (hm : Memory.wf s.fbr = true) (l : Loc) (v : Byte) :
    Memory.wf (s.put l v).fbr = true := by
  cases l with
  | en f k => exact Memory.wf_write hm (enAddress_lt f k) v
  | bl f k => exact Memory.wf_write hm (blAddress_lt f k) v
  | int f i => exact Memory.wf_write hm (intAddress_lt f i) v
  | bsr => exact hm
  | cfg n => exact hm
  | unmapped => exact hm

/-- A store elsewhere leaves BSR alone. -/
theorem State.put_bsr (s : State) {l : Loc} (h : l ≠ .bsr) (v : Byte) : (s.put l v).bsr = s.bsr := by
  cases l <;> first | rfl | exact absurd rfl h

end Sys2Proof.Machine
end

