-- ==== Sys2Proof/Laws/Ops.lean ====
section
/-! SUPPORT. What the shared operations can do, said once: address resolution under the constraints of the parameters, the
transactions, and the BRP's primitives. -/

namespace Sys2Proof.Machine

/-! ### Resolution -/

@[simp] theorem resolve_bank (p : Params) (b : Byte) : resolve p b p.bankAddress = .bsr := by simp [resolve]

/-- Only `BANK_ADDRESS` reaches the bank-select register. -/
theorem resolve_eq_bsr {p : Params} {b a : Byte} : resolve p b a = .bsr ↔ a = p.bankAddress := by
  constructor
  · intro h
    by_contra hne
    simp only [resolve, if_neg hne] at h
    split at h
    · simp only [resolveFrame] at h
      split at h <;> try simp at h
      split at h <;> try simp at h
      split at h <;> simp at h
    · split at h
      · simp only [resolveConfig] at h
        split at h <;> simp at h
      · simp at h
  · rintro rfl
    exact resolve_bank p b

theorem frameBank_toNat (f : Fin 8) : (frameBank f).toNat = f.val := by
  simp only [frameBank, BitVec.toNat_ofNat]
  omega

theorem resolve_frameBank {p : Params} {a : Byte} (h : a ≠ p.bankAddress) (f : Fin 8) :
    resolve p (frameBank f) a = resolveFrame p f a := by
  have hf : (frameBank f).toNat < 8 := by rw [frameBank_toNat]; omega
  simp only [resolve, if_neg h, dif_pos hf]
  congr 1
  exact Fin.ext (frameBank_toNat f)

theorem addrPlus_toNat {off : Byte} {k : Nat} (h : off.toNat + k < 256) : (addrPlus off k).toNat = off.toNat + k := by
  simp only [addrPlus, BitVec.toNat_add, BitVec.toNat_ofNat]
  omega

theorem addrPlus_zero (off : Byte) : addrPlus off 0 = off := by simp [addrPlus]

theorem addrPlus_succ (off : Byte) (k : Nat) : addrPlus off (k + 1) = addrPlus (off + 1) k := by
  apply BitVec.eq_of_toNat_eq
  simp only [addrPlus, BitVec.toNat_add, BitVec.toNat_ofNat, show (1 : Byte).toNat = 1 from rfl]
  omega

theorem addrPlus_add (off : Byte) (j k : Nat) : addrPlus off (j + k) = addrPlus (addrPlus off j) k := by
  apply BitVec.eq_of_toNat_eq
  simp only [addrPlus, BitVec.toNat_add, BitVec.toNat_ofNat]
  omega

theorem resolve_en {p : Params} (hp : p.Ok) (f : Fin 8) (k : Fin 18) :
    resolve p (frameBank f) (addrPlus p.enableOffset k.val) = .en f k := by
  have h1 := hp.bank_not_enable
  have h2 := hp.enable_fits
  have ha := addrPlus_toNat (off := p.enableOffset) (k := k.val) (by omega)
  rw [resolve_frameBank (by rintro h; rw [← h, Params.inRegion, ha] at h1; omega)]
  simp only [resolveFrame]
  rw [dif_pos (by rw [ha]; omega)]
  congr 1
  exact Fin.ext (by simp only [ha]; omega)

theorem resolve_bl {p : Params} (hp : p.Ok) (f : Fin 8) (k : Fin 18) :
    resolve p (frameBank f) (addrPlus p.blinkOffset k.val) = .bl f k := by
  have h1 := hp.bank_not_blink
  have h2 := hp.blink_fits
  have h3 := hp.enable_blink_apart
  have ha := addrPlus_toNat (off := p.blinkOffset) (k := k.val) (by omega)
  rw [resolve_frameBank (by rintro h; rw [← h, Params.inRegion, ha] at h1; omega)]
  simp only [resolveFrame]
  rw [dif_neg (by rw [ha]; omega), dif_pos (by rw [ha]; omega)]
  congr 1
  exact Fin.ext (by simp only [ha]; omega)

theorem resolve_int {p : Params} (hp : p.Ok) (f : Fin 8) (i : Fin 144) :
    resolve p (frameBank f) (addrPlus p.colorOffset i.val) = .int f i := by
  have h1 := hp.bank_not_color
  have h2 := hp.color_fits
  have h3 := hp.enable_color_apart
  have h4 := hp.blink_color_apart
  have ha := addrPlus_toNat (off := p.colorOffset) (k := i.val) (by omega)
  rw [resolve_frameBank (by rintro h; rw [← h, Params.inRegion, ha] at h1; omega)]
  simp only [resolveFrame]
  rw [dif_neg (by rw [ha]; omega), dif_neg (by rw [ha]; omega), dif_pos (by rw [ha]; omega)]
  congr 1
  exact Fin.ext (by simp only [ha]; omega)

theorem regOffsets_eq (p : Params) : p.regOffsets = CfgName.all.map (·.offset p) := rfl

/-- Different names have different pointer addresses. -/
theorem offset_inj {p : Params} (hp : p.Ok) {n m : CfgName} (h : n.offset p = m.offset p) : n = m := by
  have hd := hp.regs_distinct
  rw [regOffsets_eq] at hd
  exact List.inj_on_of_nodup_map hd (CfgName.mem_all n) (CfgName.mem_all m) h

theorem offset_ne_bank {p : Params} (hp : p.Ok) (n : CfgName) : n.offset p ≠ p.bankAddress := by
  intro h
  apply hp.bank_not_config
  rw [← h, regOffsets_eq]
  exact List.mem_map_of_mem (CfgName.mem_all n)

/-- A configuration register's address in the configuration bank reaches it. -/
theorem resolve_cfg {p : Params} (hp : p.Ok) (n : CfgName) : resolve p p.configBank (n.offset p) = .cfg n := by
  have hc := hp.config_not_frame
  simp only [resolve, if_neg (offset_ne_bank hp n), dif_neg (show ¬ p.configBank.toNat < 8 by omega), if_true,
    resolveConfig]
  cases hfind : CfgName.all.find? (fun m => m.offset p == n.offset p) with
  | none =>
    rw [List.find?_eq_none] at hfind
    exact absurd (hfind n (CfgName.mem_all n)) (by simp)
  | some m =>
    have hfound := List.find?_some hfind
    have hmn : m = n := offset_inj hp (by simpa using hfound)
    rw [hmn]

/-- A configuration register is reached in the configuration bank at its own address only. -/
theorem resolve_eq_cfg {p : Params} {b a : Byte} {n : CfgName} (h : resolve p b a = .cfg n) :
    b = p.configBank ∧ a = n.offset p := by
  simp only [resolve] at h
  split at h
  · simp at h
  · split at h
    · simp only [resolveFrame] at h
      split at h <;> try simp at h
      split at h <;> try simp at h
      split at h <;> simp at h
    · split at h
      · rename_i hb
        simp only [resolveConfig] at h
        cases hm : CfgName.all.find? (fun m => m.offset p == a) with
        | none => simp [hm] at h
        | some m =>
          have hfound := List.find?_some hm
          simp only [hm, Loc.cfg.injEq] at h
          subst h
          exact ⟨hb, by simpa using (beq_iff_eq.mp hfound).symm⟩
      · simp at h

/-- In one bank two addresses reach one register only if they are the same address. -/
theorem resolve_inj {p : Params} (hp : p.Ok) {b a a' : Byte} (h : resolve p b a = resolve p b a')
    (hu : resolve p b a ≠ .unmapped) : a = a' := by
  have h1 := hp.enable_blink_apart
  have h2 := hp.enable_color_apart
  have h3 := hp.blink_color_apart
  by_cases hb : a = p.bankAddress
  · subst hb
    rw [resolve_bank] at h
    exact (resolve_eq_bsr.mp h.symm).symm
  · by_cases hb' : a' = p.bankAddress
    · subst hb'
      rw [resolve_bank] at h
      exact absurd (resolve_eq_bsr.mp h) hb
    · by_cases hf : b.toNat < 8
      · simp only [resolve, if_neg hb, if_neg hb', dif_pos hf, resolveFrame] at h hu
        apply BitVec.eq_of_toNat_eq
        split_ifs at h hu <;>
          simp only [Loc.en.injEq, Loc.bl.injEq, Loc.int.injEq, Fin.mk.injEq, true_and, reduceCtorEq, ne_eq,
            not_true_eq_false, not_false_eq_true] at h hu <;> omega
      · by_cases hc : b = p.configBank
        · cases hl : resolve p b a with
          | cfg n =>
            have ha := (resolve_eq_cfg hl).2
            have ha' := (resolve_eq_cfg (h ▸ hl)).2
            rw [ha, ha']
          | unmapped => exact absurd hl hu
          | bsr => exact absurd (resolve_eq_bsr.mp hl) hb
          | en f k =>
            simp only [resolve, if_neg hb, dif_neg hf, if_pos hc, resolveConfig] at hl
            split at hl <;> simp at hl
          | bl f k =>
            simp only [resolve, if_neg hb, dif_neg hf, if_pos hc, resolveConfig] at hl
            split at hl <;> simp at hl
          | int f k =>
            simp only [resolve, if_neg hb, dif_neg hf, if_pos hc, resolveConfig] at hl
            split at hl <;> simp at hl
        · simp [resolve, hb, hf, hc] at hu

/-! ### What a sequence of transactions leaves alone -/

/-- From `s` to `t` the transactions `ops` were emitted by `e`, and everything outside the device is as it was. -/
structure Emits (e : Emitter) (s t : State) (ops : List BusOp) : Prop where
  tr        : t.tr = s.tr ++ ops.map (Txn.mk e)
  ptr       : t.ptr = if ops = [] then s.ptr else none
  params    : t.params = s.params
  af        : t.af = s.af
  ph        : t.ph = s.ph
  responses : t.responses = s.responses
  cmdPort   : t.cmdPort = s.cmdPort
  agenda    : t.agenda = s.agenda

theorem Emits.refl (e : Emitter) (s : State) : Emits e s s [] := by
  constructor <;> simp

theorem Emits.trans {e : Emitter} {s t u : State} {xs ys : List BusOp} (h : Emits e s t xs) (h' : Emits e t u ys) :
    Emits e s u (xs ++ ys) where
  tr := by rw [h'.tr, h.tr, List.map_append, List.append_assoc]
  ptr := by
    rw [h'.ptr, h.ptr]
    by_cases hx : xs = [] <;> by_cases hy : ys = [] <;> simp [hx, hy]
  params := h'.params.trans h.params
  af := h'.af.trans h.af
  ph := h'.ph.trans h.ph
  responses := h'.responses.trans h.responses
  cmdPort := h'.cmdPort.trans h.cmdPort
  agenda := h'.agenda.trans h.agenda

/-- A command whose transactions are done answers OK. -/
theorem Emits.ran {i : Instr} {s t : State} {ops : List BusOp} (h : Emits (.command i) s t ops) (v : BitVec 16) :
    Ran i s (respond .ok v t) v ops where
  responses := by simp [h.responses]
  ph := rfl
  tr := h.tr
  ptr := h.ptr
  params := h.params
  cmdPort := h.cmdPort
  agenda := h.agenda

/-! ### Write transactions -/

/-- The fields a device write leaves alone. -/
theorem moveIn_fields (vs : List Byte) (s : State) :
    (moveIn vs s).tr = s.tr ∧ (moveIn vs s).params = s.params ∧ (moveIn vs s).af = s.af ∧ (moveIn vs s).ph = s.ph ∧
    (moveIn vs s).responses = s.responses ∧ (moveIn vs s).cmdPort = s.cmdPort ∧ (moveIn vs s).agenda = s.agenda ∧
    (moveIn vs s).draws = s.draws := by
  induction vs generalizing s with
  | nil => simp [moveIn]
  | cons v vs ih =>
    cases hp : s.ptr with
    | none => simp [moveIn, hp]
    | some a =>
      obtain ⟨h1, h2, h3, h4, h5, h6, h7, h8⟩ := ih ((devWrite a v s).setPtr (some (a + 1)))
      simp only [moveIn, hp, h1, h2, h3, h4, h5, h6, h7, h8]
      simp [devWrite]

theorem moveIn_wf (vs : List Byte) {s : State} (hm : Memory.wf s.fbr = true) :
    Memory.wf (moveIn vs s).fbr = true := by
  induction vs generalizing s with
  | nil => exact hm
  | cons v vs ih =>
    simp only [moveIn]
    split
    · exact hm
    · exact ih (s := (devWrite _ v s).setPtr _) (State.wf_put hm _ _)

/-- One byte of a transaction. -/
theorem moveIn_cons (v : Byte) (vs : List Byte) (s : State) (a : Byte) :
    moveIn (v :: vs) (s.setPtr (some a)) =
      moveIn vs ((s.put (resolve s.params s.bsr a) v).setPtr (some (a + 1))) := by
  simp [moveIn, devWrite, State.put_setPtr]

theorem memWrite_emits (e : Emitter) (a : Byte) (vs : List Byte) (s : State) :
    Emits e s (memWrite e a vs s) [.bwr s.params.devAddr a vs] := by
  obtain ⟨h1, h2, h3, h4, h5, h6, h7, h8⟩ := moveIn_fields vs (s.setPtr (some a))
  constructor <;> simp [memWrite, busWrite, h1, h2, h3, h4, h5, h6, h7]

theorem memWrite_draws (e : Emitter) (a : Byte) (vs : List Byte) (s : State) :
    (memWrite e a vs s).draws = s.draws := by
  obtain ⟨h1, h2, h3, h4, h5, h6, h7, h8⟩ := moveIn_fields vs (s.setPtr (some a))
  simp [memWrite, busWrite, h8]

theorem memWrite_wf (e : Emitter) (a : Byte) (vs : List Byte) {s : State} (hm : Memory.wf s.fbr = true) :
    Memory.wf (memWrite e a vs s).fbr = true := by
  have := moveIn_wf vs (s := s.setPtr (some a)) hm
  simpa [memWrite, busWrite] using this

/-- A one-byte write: one store, one entry of the trace. -/
theorem memWrite_one (e : Emitter) (a v : Byte) (s : State) :
    memWrite e a [v] s =
      State.put { s with ptr := none, tr := s.tr ++ [⟨e, .bwr s.params.devAddr a [v]⟩] } (resolve s.params s.bsr a) v := by
  rw [memWrite, busWrite, if_pos rfl, moveIn_cons, moveIn]
  cases resolve s.params s.bsr a <;> rfl

/-- A bank select sets BSR, under any bank. -/
theorem select_eq (e : Emitter) (b : Byte) (s : State) :
    select e b s = { s with bsr := b, ptr := none, tr := s.tr ++ [⟨e, selectOp s.params b⟩] } := by
  simp [select, memWrite_one, State.put, selectOp]

/-- `RegWrite`: one store under bank `b`, two entries of the trace. -/
theorem regWrite_eq (e : Emitter) (b r v : Byte) (s : State) :
    regWrite e b r v s =
      State.put { s with bsr := b, ptr := none, tr := s.tr ++ (regWriteOps s.params b r v).map (Txn.mk e) }
        (resolve s.params b r) v := by
  simp [regWrite, select_eq, memWrite_one, regWriteOps]

theorem regWrite_emits (e : Emitter) (b r v : Byte) (s : State) :
    Emits e s (regWrite e b r v s) (regWriteOps s.params b r v) := by
  constructor <;> simp [regWrite_eq, regWriteOps]

theorem regWrite_draws (e : Emitter) (b r v : Byte) (s : State) : (regWrite e b r v s).draws = s.draws := by
  simp [regWrite_eq]

theorem regWrite_wf (e : Emitter) (b r v : Byte) {s : State} (hm : Memory.wf s.fbr = true) :
    Memory.wf (regWrite e b r v s).fbr = true := by
  rw [regWrite_eq]
  exact State.wf_put (by exact hm) _ _

theorem regWrite_bsr (e : Emitter) {b r : Byte} (v : Byte) {s : State} (h : r ≠ s.params.bankAddress) :
    (regWrite e b r v s).bsr = b := by
  rw [regWrite_eq]
  exact State.put_bsr _ (by rwa [Ne, resolve_eq_bsr]) _

/-- What a device location holds after `RegWrite` (BSR apart). -/
theorem regWrite_get (e : Emitter) {b r : Byte} (v : Byte) {s : State} (hm : Memory.wf s.fbr = true) {l : Loc}
    (hl : l ≠ .bsr) (hu : l ≠ .unmapped) :
    (regWrite e b r v s).get l = if l = resolve s.params b r then some v else s.get l := by
  rw [regWrite_eq]
  split
  · rename_i h
    rw [← h]
    exact State.get_put_same (by exact hm) hu v
  · rename_i h
    rw [State.get_put_other _ h]
    cases l <;> first | rfl | exact absurd rfl hl

/-- `RegWrite` to a configuration register. -/
theorem cfgWrite_eq (e : Emitter) (n : CfgName) (v : Byte) {s : State} (hp : s.params.Ok) :
    cfgWrite e n v s =
      { s with bsr := s.params.configBank, cfg := s.cfg.set n v, ptr := none,
               tr := s.tr ++ (cfgWriteOps s.params (n.offset s.params) v).map (Txn.mk e) } := by
  rw [cfgWrite, regWrite_eq, resolve_cfg hp]
  rfl

theorem cfgWrite_emits (e : Emitter) (n : CfgName) (v : Byte) (s : State) :
    Emits e s (cfgWrite e n v s) (cfgWriteOps s.params (n.offset s.params) v) := regWrite_emits e _ _ v s

/-! ### Read transactions -/

/-- A one-byte read. -/
theorem memRead_eq (e : Emitter) (a : Byte) (s : State) :
    memRead e a s =
      match s.get (resolve s.params s.bsr a) with
      | some v => (v, { s with ptr := none, tr := s.tr ++ [⟨e, .brd s.params.devAddr a 1 (some [v])⟩] })
      | none => (Config.freeByte s.draws,
          { s with ptr := none, draws := s.draws + 1,
                   tr := s.tr ++ [⟨e, .brd s.params.devAddr a 1 (some [Config.freeByte s.draws])⟩] }) := by
  simp only [memRead, busRead, if_true, moveOut, devRead, State.get_setPtr, State.setPtr_ptr, State.setPtr_params,
    State.setPtr_bsr, State.setPtr_draws]
  cases s.get (resolve s.params s.bsr a) <;> simp [record, State.setPtr]

/-- `RegRead`. -/
theorem regRead_eq (e : Emitter) (b r : Byte) (s : State) :
    regRead e b r s =
      match State.get { s with bsr := b } (resolve s.params b r) with
      | some v => (v,
          { s with bsr := b, ptr := none,
                   tr := s.tr ++ (regReadOps s.params b r v).map (Txn.mk e) })
      | none => (Config.freeByte s.draws,
          { s with bsr := b, ptr := none, draws := s.draws + 1,
                   tr := s.tr ++ (regReadOps s.params b r (Config.freeByte s.draws)).map (Txn.mk e) }) := by
  have hg : ∀ tr l, State.get { s with bsr := b, ptr := none, tr := tr } l = State.get { s with bsr := b } l :=
    fun tr l => State.get_congr rfl rfl rfl l
  simp only [regRead, select_eq, memRead_eq, hg, regReadOps]
  cases State.get { s with bsr := b } (resolve s.params b r) <;> simp

/-! ### Bulk writes -/

/-- Consecutive bytes into an intensity plane: byte `k` becomes cell `j + k`; nothing else changes. -/
theorem moveIn_plane (vs : List Byte) {s : State} (hp : s.params.Ok) (hm : Memory.wf s.fbr = true) (f : Fin 8)
    (hb : s.bsr = frameBank f) (j : Nat) (hj : j + vs.length ≤ 144) :
    (moveIn vs (s.setPtr (some (addrPlus s.params.colorOffset j)))).bsr = s.bsr ∧
    (∀ l, (∀ k (hk : k < vs.length), l ≠ .int f ⟨j + k, by omega⟩) →
      (moveIn vs (s.setPtr (some (addrPlus s.params.colorOffset j)))).get l = s.get l) ∧
    (∀ k (hk : k < vs.length),
      (moveIn vs (s.setPtr (some (addrPlus s.params.colorOffset j)))).get (.int f ⟨j + k, by omega⟩) = some vs[k]) := by
  induction vs generalizing s j with
  | nil => simp [moveIn]
  | cons v vs ih =>
    simp only [List.length_cons] at hj
    rw [moveIn_cons, hb, resolve_int hp f ⟨j, by omega⟩]
    have hnext : addrPlus s.params.colorOffset j + 1 = addrPlus s.params.colorOffset (j + 1) := by
      rw [addrPlus_add]
      simp [addrPlus]
    obtain ⟨h1, h2, h3⟩ := ih (s := s.put (.int f ⟨j, by omega⟩) v) (by simpa using hp) (State.wf_put hm _ _)
      hb (j + 1) (by omega)
    simp only [State.put_params] at h1 h2 h3
    rw [hnext]
    refine ⟨h1.trans hb, ?_, ?_⟩
    · intro l hl
      rw [h2 l ?_, State.get_put_other _ (by simpa using hl 0 (by simp))]
      intro k hk
      have := hl (k + 1) (by simpa using hk)
      simpa [Nat.add_assoc, Nat.add_comm 1] using this
    · intro k hk
      cases k with
      | zero =>
        rw [h2 _ ?_]
        · exact State.get_put_same hm (by simp) v
        · intro k' hk'
          simp only [ne_eq, Loc.int.injEq, Fin.mk.injEq, true_and]
          omega
      | succ k =>
        have := h3 k (by simpa using hk)
        simpa [Nat.add_assoc, Nat.add_comm 1] using this

/-- A bulk write into an intensity plane. -/
theorem memWrite_plane (e : Emitter) (vs : List Byte) {s : State} (hp : s.params.Ok) (hm : Memory.wf s.fbr = true)
    (f : Fin 8) (hb : s.bsr = frameBank f) (j : Nat) (hj : j + vs.length ≤ 144) :
    (memWrite e (addrPlus s.params.colorOffset j) vs s).bsr = s.bsr ∧
    (∀ l, (∀ k (hk : k < vs.length), l ≠ .int f ⟨j + k, by omega⟩) →
      (memWrite e (addrPlus s.params.colorOffset j) vs s).get l = s.get l) ∧
    (∀ k (hk : k < vs.length),
      (memWrite e (addrPlus s.params.colorOffset j) vs s).get (.int f ⟨j + k, by omega⟩) = some vs[k]) := by
  have h := moveIn_plane vs hp hm f hb j hj
  simpa [memWrite, busWrite] using h

/-- FILL's six bulk writes make the whole plane `c` and touch nothing else. -/
theorem fillPlane_effect (e : Emitter) (c : Byte) {s : State} (hp : s.params.Ok) (hm : Memory.wf s.fbr = true)
    (f : Fin 8) (hb : s.bsr = frameBank f) :
    Emits e s (fillPlane e c s) (planeOps s.params c) ∧ (fillPlane e c s).draws = s.draws ∧
    Memory.wf (fillPlane e c s).fbr = true ∧ (fillPlane e c s).bsr = s.bsr ∧
    (∀ l, (∀ i, l ≠ .int f i) → (fillPlane e c s).get l = s.get l) ∧
    (∀ i, (fillPlane e c s).get (.int f i) = some c) := by
  have key : ∀ n ≤ 6,
      let t := (List.range n).foldl
        (fun s row => memWrite e (addrPlus s.params.colorOffset (24 * row)) (List.replicate 24 c) s) s
      Emits e s t ((List.range n).map fun row =>
        .bwr s.params.devAddr (addrPlus s.params.colorOffset (24 * row)) (List.replicate 24 c)) ∧
      t.draws = s.draws ∧ Memory.wf t.fbr = true ∧ t.bsr = s.bsr ∧
      (∀ l, (∀ i, l ≠ .int f i) → t.get l = s.get l) ∧ (∀ i : Fin 144, i.val < 24 * n → t.get (.int f i) = some c) := by
    intro n
    induction n with
    | zero =>
      intro _
      simp only [List.range_zero, List.foldl_nil, List.map_nil]
      exact ⟨Emits.refl e s, trivial, hm, trivial, fun _ _ => trivial, fun i hi => absurd hi (by omega)⟩
    | succ n ih =>
      intro hn
      obtain ⟨h1, h2, h3, h4, h5, h6⟩ := ih (by omega)
      simp only [List.range_succ, List.foldl_append, List.foldl_cons, List.foldl_nil, List.map_append, List.map_cons,
        List.map_nil]
      set t := (List.range n).foldl
        (fun s row => memWrite e (addrPlus s.params.colorOffset (24 * row)) (List.replicate 24 c) s) s with ht
      have hj : 24 * n + (List.replicate 24 c).length ≤ 144 := by simp; omega
      obtain ⟨g1, g2, g3⟩ := memWrite_plane e (List.replicate 24 c) (s := t) (by rw [h1.params]; exact hp) h3 f
        (h4.trans hb) (24 * n) hj
      have he := memWrite_emits e (addrPlus t.params.colorOffset (24 * n)) (List.replicate 24 c) t
      refine ⟨?_, ?_, ?_, g1.trans h4, ?_, ?_⟩
      · have := h1.trans he
        rwa [h1.params] at this ⊢
      · rw [memWrite_draws, h2]
      · exact memWrite_wf e _ _ h3
      · intro l hl
        rw [g2 l (fun k hk => hl _), h5 l hl]
      · intro i hi
        by_cases hlt : i.val < 24 * n
        · rw [g2 _ ?_, h6 i hlt]
          intro k hk
          simp only [ne_eq, Loc.int.injEq, true_and]
          rintro rfl
          simp at hlt
        · have hk : i.val - 24 * n < (List.replicate 24 c).length := by simp; omega
          have := g3 (i.val - 24 * n) hk
          have hi' : (⟨24 * n + (i.val - 24 * n), by omega⟩ : Fin 144) = i := Fin.ext (by simp; omega)
          rw [hi'] at this
          rw [this, List.getElem_replicate]
  obtain ⟨h1, h2, h3, h4, h5, h6⟩ := key 6 (by omega)
  exact ⟨h1, h2, h3, h4, h5, fun i => h6 i (by omega)⟩

/-- Eighteen single-byte writes of a mask: location `loc k` takes `m` for every `k`, nothing else but BSR changes. -/
theorem fillMask_effect (e : Emitter) (b off m : Byte) {s : State} (hm : Memory.wf s.fbr = true) (loc : Fin 18 → Loc)
    (hloc : ∀ k : Fin 18, resolve s.params b (addrPlus off k.val) = loc k)
    (hreg : ∀ k, loc k ≠ .bsr ∧ loc k ≠ .unmapped) :
    Emits e s (fillMask e b off m s) (maskOps s.params b off m) ∧ (fillMask e b off m s).draws = s.draws ∧
    Memory.wf (fillMask e b off m s).fbr = true ∧ (fillMask e b off m s).bsr = b ∧
    (∀ l, l ≠ .bsr → (∀ k, l ≠ loc k) → (fillMask e b off m s).get l = s.get l) ∧
    (∀ k, (fillMask e b off m s).get (loc k) = some m) := by
  have key : ∀ n ≤ 18,
      let t := (List.range n).foldl (fun s k => regWrite e b (addrPlus off k) m s) s
      Emits e s t ((List.range n).flatMap fun k => regWriteOps s.params b (addrPlus off k) m) ∧
      t.draws = s.draws ∧ Memory.wf t.fbr = true ∧ (0 < n → t.bsr = b) ∧
      (∀ l, l ≠ .bsr → (∀ k, l ≠ loc k) → t.get l = s.get l) ∧
      (∀ k : Fin 18, k.val < n → t.get (loc k) = some m) := by
    intro n
    induction n with
    | zero =>
      intro _
      simp only [List.range_zero, List.foldl_nil, List.flatMap_nil]
      exact ⟨Emits.refl e s, trivial, hm, fun h => absurd h (by omega), fun _ _ _ => trivial,
        fun k hk => absurd hk (by omega)⟩
    | succ n ih =>
      intro hn
      obtain ⟨h1, h2, h3, h4, h5, h6⟩ := ih (by omega)
      simp only [List.range_succ, List.foldl_append, List.foldl_cons, List.foldl_nil, List.flatMap_append,
        List.flatMap_cons, List.flatMap_nil, List.append_nil]
      set t := (List.range n).foldl (fun s k => regWrite e b (addrPlus off k) m s) s with ht
      have hn18 : n < 18 := by omega
      have hr : resolve t.params b (addrPlus off n) = loc ⟨n, hn18⟩ := by
        rw [h1.params]
        exact hloc ⟨n, hn18⟩
      have hget : ∀ l, l ≠ .bsr → l ≠ .unmapped → (regWrite e b (addrPlus off n) m t).get l =
          if l = loc ⟨n, hn18⟩ then some m else t.get l := by
        intro l hl hu
        rw [regWrite_get e m h3 hl hu, hr]
      refine ⟨?_, ?_, ?_, ?_, ?_, ?_⟩
      · have := h1.trans (regWrite_emits e b (addrPlus off n) m t)
        rwa [h1.params] at this
      · rw [regWrite_draws, h2]
      · exact regWrite_wf e _ _ _ h3
      · intro _
        apply regWrite_bsr
        intro h
        rw [← resolve_eq_bsr (b := b), hr] at h
        exact (hreg _).1 h
      · intro l hl hk
        by_cases hu : l = .unmapped
        · subst hu
          rfl
        · rw [hget l hl hu, if_neg (hk _), h5 l hl hk]
      · intro k hk
        rw [hget _ (hreg k).1 (hreg k).2]
        split
        · rfl
        · rename_i hne
          apply h6
          have : k ≠ ⟨n, hn18⟩ := by
            rintro rfl
            exact hne rfl
          rw [Ne, Fin.ext_iff] at this
          simp only at this
          omega
  obtain ⟨h1, h2, h3, h4, h5, h6⟩ := key 18 (by omega)
  exact ⟨h1, h2, h3, h4 (by omega), h5, fun k => h6 k (by omega)⟩

end Sys2Proof.Machine
end

