-- ==== Sys2Proof/Laws/PerInstr.lean ====
section
/-! SUPPORT. A statement made once per instruction: how many bytes its encoding has. -/

namespace Sys2Proof.Laws.EncodedLength

/-- The encoding of an instruction has 12 bytes and, for WRAW, the payload after them (30_encoding.md R81, R87); a write
record has two bytes and its data, a read record four (R88). -/
def Statement (i : Instr) : Prop :=
  (encode i).length =
    match i with
    | .wraw _ payload => 12 + payload.length
    | .bwr _ _ data => 2 + data.length
    | .brd _ _ _ => 4
    | .selb _ | .rdr _ _ | .wrr _ _ _ | .reset | .init | .sleep _ | .autoplay _ _ _ | .audioplay _ _ _ _
    | .blinkrate _ | .blinkq | .fade _ _ _ | .xlat _ _ | .fill _ _ _ | .setpx _ _ _ _ _ | .frame _ => 12

theorem selb (bank : Operand) : Statement (.selb bank) := rfl

theorem rdr (bank reg : Operand) : Statement (.rdr bank reg) := rfl

theorem wrr (bank reg value : Operand) : Statement (.wrr bank reg value) := rfl

theorem reset : Statement .reset := rfl

theorem init : Statement .init := rfl

theorem sleep (enable : Operand) : Statement (.sleep enable) := rfl

theorem autoplay (delayMs loops frames : Operand) : Statement (.autoplay delayMs loops frames) := rfl

theorem audioplay (rate gain agcEnable agcFast : Operand) : Statement (.audioplay rate gain agcEnable agcFast) := rfl

theorem blinkrate (rateMs : Operand) : Statement (.blinkrate rateMs) := rfl

theorem blinkq : Statement .blinkq := rfl

theorem fade (fadeIn fadeOut : Option Operand) (pauseMs : Operand) : Statement (.fade fadeIn fadeOut pauseMs) := rfl

theorem xlat (x y : Operand) : Statement (.xlat x y) := rfl

theorem fill (frame color blink : Option Operand) : Statement (.fill frame color blink) := rfl

theorem wraw (frame : Option Operand) (payload : List Byte) : Statement (.wraw frame payload) := by
  simp [Statement, encode, frameBytes]
  omega

theorem setpx (x y : Operand) (color blink frame : Option Operand) : Statement (.setpx x y color blink frame) := rfl

theorem frame (frame : Operand) : Statement (.frame frame) := rfl

theorem bwr (dev : BitVec 7) (reg : Byte) (data : List Byte) : Statement (.bwr dev reg data) := by
  simp [Statement, encode]
  omega

theorem brd (dev : BitVec 7) (reg : Byte) (n : Nat) : Statement (.brd dev reg n) := rfl

end Sys2Proof.Laws.EncodedLength
end

