-- ==== Sys2Proof/Laws/Sequences.lean ====
section
/-! SUPPORT. What the sequences the commands share can do: reads and writes of registers, the reset sequence, the planes of a
frame, the blink read-modify-write. -/

namespace Sys2Proof.Machine

/-- The reset sequence: BSR, the shutdown register, four records. -/
theorem resetSequence_eq (e : Emitter) {s : State} (hp : s.params.Ok) :
    resetSequence e s = { s with
      bsr := s.params.configBank, cfg := { s.cfg with shutdown := s.params.shutdownOff }, ptr := none
      tr := s.tr ++ (cfgWriteOps s.params s.params.regShutdown s.params.shutdownOn ++
          cfgWriteOps s.params s.params.regShutdown s.params.shutdownOff).map (Txn.mk e) } := by
  simp only [resetSequence, wait]
  rw [cfgWrite_eq (s := s) _ _ _ hp, cfgWrite_eq _ _ _ (by exact hp)]
  simp only [List.append_assoc, List.map_append]
  rfl

/-- With the RAM and the configuration bank kept, only BSR can differ. -/
theorem devFrame_bsr {s t : State} (hf : t.fbr = s.fbr) (hc : t.cfg = s.cfg) : DevFrame (· = .bsr) s t := by
  intro l hl
  cases l <;> simp_all [State.get]

/-- With the RAM kept and one configuration register set, only that register and BSR can differ. -/
theorem devFrame_cfg {s t : State} (hf : t.fbr = s.fbr) {n : CfgName} {v : Byte} (hc : t.cfg = s.cfg.set n v) :
   DevFrame (fun l => l = .bsr ∨ l = .cfg n) s t := by
    intro l hl
    push Not at hl
    cases l with
    | bsr => exact absurd rfl hl.1
    | cfg m =>
      have hn : m ≠ n := by rintro rfl; exact hl.2 rfl
      simp [State.get, hc, CfgBank.get_set_other _ hn]
    | _ => simp [State.get, hf]

/-- Everything a register read does. -/
theorem regRead_effect (e : Emitter) (b r : Byte) (s : State) :
   Emits e s (regRead e b r s).2 (regReadOps s.params b r (regRead e b r s).1) ∧ (regRead e b r s).2.bsr = b ∧
   DevFrame (· = .bsr) s (regRead e b r s).2 ∧
   (match (regRead e b r s).2.get (resolve s.params b r) with
     | some w => (regRead e b r s).1 = w ∧ (regRead e b r s).2.draws = s.draws
     | none => (regRead e b r s).1 = Config.freeByte s.draws ∧ (regRead e b r s).2.draws = s.draws + 1) := by
  rw [regRead_eq]
  split
  · rename_i v hv
    have : ∀ tr, State.get { s with bsr := b, ptr := none, tr := tr } (resolve s.params b r) = some v := fun tr => by
      rw [← hv]; exact State.get_congr rfl rfl rfl _
    refine ⟨by constructor <;> simp [regReadOps], rfl, devFrame_bsr rfl rfl, ?_⟩
    simp [this]
  · rename_i hv
    have : ∀ tr n, State.get { s with bsr := b, ptr := none, tr := tr, draws := n } (resolve s.params b r) = none := fun tr n => by
      rw [← hv]; exact State.get_congr rfl rfl rfl _
    refine ⟨by constructor <;> simp [regReadOps], rfl, devFrame_bsr rfl rfl, ?_⟩
    simp [this]

/-- Everything a register write does to the device. -/
theorem regWrite_effect (e : Emitter) (b r v : Byte) {s : State} (hm : Memory.wf s.fbr = true) :
   (resolve s.params b r ≠ .unmapped → (regWrite e b r v s).get (resolve s.params b r) = some v) ∧
   (resolve s.params b r ≠ .bsr → (regWrite e b r v s).bsr = b) ∧
   DevFrame (fun m => m = .bsr ∨ m = resolve s.params b r) s (regWrite e b r v s) := by
  rw [regWrite_eq]
  refine ⟨fun hu => State.get_put_same (by exact hm) hu v, fun hb => State.put_bsr _ hb _, ?_⟩
  intro l hl
  push Not at hl
  rw [State.get_put_other _ hl.2]
  exact devFrame_bsr (s := s) (t := { s with bsr := b, ptr := none, tr := s.tr ++ (regWriteOps s.params b r v).map (Txn.mk e) }) rfl rfl l hl.1

/-- Two configuration writes in a row. -/
theorem cfgWrite_cfgWrite (e : Emitter) (n m : CfgName) (v w : Byte) {s : State} (hp : s.params.Ok) :
    cfgWrite e m w (cfgWrite e n v s) =
      { s with bsr := s.params.configBank, cfg := (s.cfg.set n v).set m w, ptr := none,
               tr := s.tr ++ (cfgWriteOps s.params (n.offset s.params) v ++ cfgWriteOps s.params (m.offset s.params) w).map (Txn.mk e) } := by
  rw [cfgWrite_eq (s := s) _ _ _ hp, cfgWrite_eq _ _ _ (by exact hp)]
  simp [List.append_assoc]

/-- Three configuration writes in a row. -/
theorem cfgWrite_thrice (e : Emitter) (n m o : CfgName) (v w x : Byte) {s : State} (hp : s.params.Ok) :
    cfgWrite e o x (cfgWrite e m w (cfgWrite e n v s)) =
      { s with bsr := s.params.configBank, cfg := ((s.cfg.set n v).set m w).set o x, ptr := none,
               tr := s.tr ++ (cfgWriteOps s.params (n.offset s.params) v ++ cfgWriteOps s.params (m.offset s.params) w ++ cfgWriteOps s.params (o.offset s.params) x).map (Txn.mk e) } := by
  rw [cfgWrite_cfgWrite (s := s) _ _ _ _ _ hp, cfgWrite_eq _ _ _ (by exact hp)]
  simp [List.append_assoc]

/-- A configuration write keeps the parameters. -/
theorem cfgWrite_params (e n v s) : (cfgWrite e n v s).params = s.params := (cfgWrite_emits e n v s).params

/-- A transfer split in two: the second part starts at the stepped pointer. -/
theorem moveIn_append (xs ys : List Byte) (s : State) (a : Byte) :
    moveIn (xs ++ ys) (s.setPtr (some a)) = moveIn ys ((moveIn xs (s.setPtr (some a))).setPtr (some (addrPlus a xs.length))) := by
  induction xs generalizing s a with
  | nil => simp [moveIn, addrPlus_zero]
  | cons x xs ih =>
    rw [List.cons_append, moveIn_cons, moveIn_cons, ih]
    rw [List.length_cons, addrPlus_succ]

/-- A transfer depends on the device only. -/
theorem moveIn_congr (ys : List Byte) {s t : State} (hp : s.params = t.params) (hb : s.bsr = t.bsr) (hf : s.fbr = t.fbr)
   (hc : s.cfg = t.cfg) (hq : s.ptr = t.ptr) : (moveIn ys s).bsr = (moveIn ys t).bsr ∧ (moveIn ys s).fbr = (moveIn ys t).fbr ∧ (moveIn ys s).cfg = (moveIn ys t).cfg := by
  induction ys generalizing s t with
  | nil => exact ⟨hb, hf, hc⟩
  | cons y ys ih =>
    simp only [moveIn]
    rw [hq]
    split
    · exact ⟨hb, hf, hc⟩
    · apply ih <;> simp [devWrite, hp, hb]
      all_goals cases resolve t.params t.bsr _ <;> simp [State.put, *]

/-- What a bank select emits. -/
theorem select_emits (e : Emitter) (b : Byte) (s : State) : Emits e s (select e b s) [selectOp s.params b] := by
  rw [select_eq]; constructor <;> simp

/-- A bank select keeps soundness. -/
theorem select_sound {e b} {s : State} (hs : s.Sound) : (select e b s).Sound := by
  rw [select_eq]; exact ⟨hs.1, hs.2⟩

/-- A bank select changes BSR only. -/
theorem select_frame (e b) (s : State) : DevFrame (· = .bsr) s (select e b s) := by
  rw [select_eq]; exact devFrame_bsr rfl rfl

/-- Everything FILL's writes do. -/
theorem fillPlanes_effect (e : Emitter) (f : Fin 8) (c b : Option Operand) {s : State} (hs : s.Sound) (hb : s.bsr = frameBank f) :
  let t := fillPlanes e f (c.map (·.setWidth 8)) b s
  Emits e s t ((match c with | none => [] | some c => planeOps s.params (c.setWidth 8)) ++
     (match b with | none => [] | some b => maskOps s.params (frameBank f) s.params.blinkOffset (if b = 0 then 0x00 else 0xFF))) ∧
   t.bsr = frameBank f ∧ t.draws = s.draws ∧ Memory.wf t.fbr = true ∧
   (∀ v, c = some v → ∀ i, t.get (.int f i) = some (v.setWidth 8)) ∧
   (∀ v, b = some v → ∀ k, t.get (.bl f k) = some (if v = 0 then 0x00 else 0xFF)) ∧
   DevFrame (fun l => l = .bsr ∨ (c.isSome ∧ ∃ i, l = .int f i) ∨ (b.isSome ∧ ∃ k, l = .bl f k)) s t := by
  have main : ∀ (c : Option Operand) {s : State} (hs : s.Sound) (hb : s.bsr = frameBank f),
     let t := fillPlanes e f (c.map (·.setWidth 8)) none s
     Emits e s t ((match c with | none => [] | some c => planeOps s.params (c.setWidth 8))) ∧
   t.bsr = frameBank f ∧ t.draws = s.draws ∧ Memory.wf t.fbr = true ∧
   (∀ v, c = some v → ∀ i, t.get (.int f i) = some (v.setWidth 8)) ∧
   DevFrame (fun l => l = .bsr ∨ (c.isSome ∧ ∃ i, l = .int f i)) s t := by
    intro c s hs hb
    cases c with
    | none =>
      exact ⟨Emits.refl _ _, hb, rfl, hs.memory, by simp, fun _ _ => rfl⟩
    | some c =>
      obtain ⟨h1, h2, h3, h4, h5, h6⟩ := fillPlane_effect e (c.setWidth 8) hs.params hs.memory f hb
      refine ⟨h1, h4.trans hb, h2, h3, ?_, ?_⟩
      · intro v hv i; cases hv; exact h6 i
      · intro l hl; apply h5; intro i hi; exact hl (.inr ⟨rfl, i, hi⟩)
  cases b with
  | none =>
    obtain ⟨h1, h2, h3, h4, h5, h6⟩ := main c hs hb
    refine ⟨by simpa using h1, h2, h3, h4, h5, by simp, ?_⟩
    intro l hl; apply h6; rintro (h | h)
    · exact hl (.inl h)
    · exact hl (.inr (.inl h))
  | some b =>
    obtain ⟨h1, h2, h3, h4, h5, h6⟩ := main c hs hb
    have hbo : (if boolOf b then (0xFF : Byte) else 0) = if b = 0 then 0 else 0xFF := by
      by_cases h : b = 0 <;> simp [boolOf, h]
    have heq : fillPlanes e f (c.map (·.setWidth 8)) (some b) s = fillMask e (frameBank f) (fillPlanes e f (c.map (·.setWidth 8)) none s).params.blinkOffset (if b = 0 then 0 else 0xFF) (fillPlanes e f (c.map (·.setWidth 8)) none s) := by
      rw [← hbo]; rfl
    simp only [heq]
    generalize fillPlanes e f (c.map (·.setWidth 8)) none s = t at *
    have hp := h1.params
    rw [hp]
    obtain ⟨g1, g2, g3, g4, g5, g6⟩ := fillMask_effect e (frameBank f) s.params.blinkOffset (if b = 0 then 0 else 0xFF) h4 (fun k => .bl f k) (by rw [hp]; exact resolve_bl hs.params f) (by simp)
    rw [hp] at g1
    refine ⟨h1.trans g1, g4, g2.trans h3, g3, ?_, ?_, ?_⟩
    · intro v hv i; rw [g5 _ (by simp) (by simp)]; exact h5 v hv i
    · intro v hv k; cases hv; exact g6 k
    · intro l hl
      rw [g5 l (fun h => hl (.inl h)) (fun k h => hl (.inr (.inr ⟨rfl, k, h⟩)))]
      apply h6; rintro (h | h)
      · exact hl (.inl h)
      · exact hl (.inr (.inl h))

/-- The intensity byte is what the location holds. -/
theorem int_of_get {s : State} {f i v} (h : s.get (.int f i) = some v) : s.int f i = v := by simpa [State.get, State.int] using h

/-- The blink byte is what the location holds. -/
theorem bl_of_get {s : State} {f i v} (h : s.get (.bl f i) = some v) : s.bl f i = v := by simpa [State.get, State.bl] using h

/-- The enable byte is what the location holds. -/
theorem en_of_get {s : State} {f i v} (h : s.get (.en f i) = some v) : s.en f i = v := by simpa [State.get, State.en] using h

/-- Everything the blink read-modify-write does. -/
theorem setPixelBlink_effect (e : Emitter) (f : Fin 8) (i : Fin 144) (b : Bool) {s : State} (hs : s.Sound) :
   let t := setPixelBlink e f i b s
   let a := addrPlus s.params.blinkOffset (i.val / 8)
   Emits e s t (regReadOps s.params (frameBank f) a (s.bl f (maskByte i)) ++ regWriteOps s.params (frameBank f) a (t.bl f (maskByte i))) ∧
   t.bsr = frameBank f ∧ t.draws = s.draws ∧ Memory.wf t.fbr = true ∧
   t.bl f (maskByte i) = (if b then s.bl f (maskByte i) ||| (1:Byte) <<< (i.val % 8) else s.bl f (maskByte i) &&& (0xFF - (1:Byte) <<< (i.val % 8))) ∧
   DevFrame (fun l => l = .bsr ∨ l = .bl f (maskByte i)) s t := by
  intro t a
  have hr : resolve s.params (frameBank f) a = .bl f (maskByte i) := resolve_bl hs.params f (maskByte i)
  obtain ⟨h1, h2, h3, h4⟩ := regRead_effect e (frameBank f) a s
  have hg : (regRead e (frameBank f) a s).2.get (.bl f (maskByte i)) = some (s.bl f (maskByte i)) := by
    rw [h3 _ (by simp)]; rfl
  rw [hr, hg] at h4
  have hm : Memory.wf (regRead e (frameBank f) a s).2.fbr = true := by
    rw [regRead_eq]; split <;> exact hs.memory
  set u := (regRead e (frameBank f) a s).2 with hu
  have ht : t = regWrite e (frameBank f) a (if b then s.bl f (maskByte i) ||| (1:Byte) <<< (i.val % 8) else s.bl f (maskByte i) &&& (0xFF - (1:Byte) <<< (i.val % 8))) u := by
    show setPixelBlink e f i b s = _
    simp only [setPixelBlink]
    rw [← h4.1]
  have hru : resolve u.params (frameBank f) a = .bl f (maskByte i) := by rw [h1.params]; exact hr
  obtain ⟨g1, g2, g3⟩ := regWrite_effect e (frameBank f) a (if b then s.bl f (maskByte i) ||| (1:Byte) <<< (i.val % 8) else s.bl f (maskByte i) &&& (0xFF - (1:Byte) <<< (i.val % 8))) hm
  have g4 := regWrite_emits e (frameBank f) a (if b then s.bl f (maskByte i) ||| (1:Byte) <<< (i.val % 8) else s.bl f (maskByte i) &&& (0xFF - (1:Byte) <<< (i.val % 8))) u
  have g5 := regWrite_wf e (frameBank f) a (if b then s.bl f (maskByte i) ||| (1:Byte) <<< (i.val % 8) else s.bl f (maskByte i) &&& (0xFF - (1:Byte) <<< (i.val % 8))) hm
  have g6 := regWrite_draws e (frameBank f) a (if b then s.bl f (maskByte i) ||| (1:Byte) <<< (i.val % 8) else s.bl f (maskByte i) &&& (0xFF - (1:Byte) <<< (i.val % 8))) u
  rw [hru] at g1 g2 g3
  rw [← ht] at g1 g2 g3 g4 g5 g6
  have hb := bl_of_get (g1 (by simp))
  refine ⟨?_, g2 (by simp), g6.trans h4.2, g5, hb, ?_⟩
  · rw [hb]
    have := h1.trans g4
    rwa [h1.params, h4.1] at this
  · intro l hl
    rw [g3 l hl]
    exact h3 l (fun h => hl (.inl h))

/-- Everything INIT does to one frame. -/
theorem initFrame_effect (e : Emitter) (f : Fin 8) {s : State} (hs : s.Sound) :
  Emits e s (initFrame e f s) (initFrameOps s.params f) ∧ (initFrame e f s).draws = s.draws ∧ Memory.wf (initFrame e f s).fbr = true ∧
  (∀ i, (initFrame e f s).get (.int f i) = some 0) ∧ (∀ k, (initFrame e f s).get (.bl f k) = some 0) ∧
  (∀ k, (initFrame e f s).get (.en f k) = some 0xFF) ∧
  DevFrame (fun l => l = .bsr ∨ (∃ i, l = .int f i) ∨ (∃ k, l = .bl f k) ∨ (∃ k, l = .en f k)) s (initFrame e f s) := by
  have h0 := select_emits e (frameBank f) s
  have hs0 := select_sound (e := e) (b := frameBank f) hs
  have hf0 := select_frame e (frameBank f) s
  have hb0 : (select e (frameBank f) s).bsr = frameBank f := by rw [select_eq]
  have hd0 : (select e (frameBank f) s).draws = s.draws := by rw [select_eq]
  have he : initFrame e f s = fillMask e (frameBank f) (fillMask e (frameBank f) (fillPlane e 0 (select e (frameBank f) s)).params.blinkOffset 0 (fillPlane e 0 (select e (frameBank f) s))).params.enableOffset 0xFF (fillMask e (frameBank f) (fillPlane e 0 (select e (frameBank f) s)).params.blinkOffset 0 (fillPlane e 0 (select e (frameBank f) s))) := rfl
  rw [he]
  generalize select e (frameBank f) s = t at *
  obtain ⟨a1, a2, a3, a4, a5, a6⟩ := fillPlane_effect e 0 hs0.params hs0.memory f hb0
  generalize fillPlane e 0 t = u at *
  have hpu : u.params = s.params := a1.params.trans h0.params
  obtain ⟨b1, b2, b3, b4, b5, b6⟩ := fillMask_effect e (frameBank f) u.params.blinkOffset 0 a3 (fun k => .bl f k) (by rw [hpu]; exact resolve_bl hs.params f) (by simp)
  generalize fillMask e (frameBank f) u.params.blinkOffset 0 u = v at *
  have hpv : v.params = s.params := b1.params.trans hpu
  obtain ⟨c1, c2, c3, c4, c5, c6⟩ := fillMask_effect e (frameBank f) v.params.enableOffset 0xFF b3 (fun k => .en f k) (by rw [hpv]; exact resolve_en hs.params f) (by simp)
  generalize fillMask e (frameBank f) v.params.enableOffset 0xFF v = w at *
  rw [h0.params] at a1; rw [hpu] at b1; rw [hpv] at c1
  refine ⟨?_, c2.trans (b2.trans (a2.trans hd0)), c3, ?_, ?_, c6, ?_⟩
  · have := ((h0.trans a1).trans b1).trans c1
    simpa [initFrameOps] using this
  · intro i; rw [c5 _ (by simp) (by simp), b5 _ (by simp) (by simp)]; exact a6 i
  · intro k; rw [c5 _ (by simp) (by simp)]; exact b6 k
  · intro l hl
    push Not at hl
    rw [c5 l hl.1 hl.2.2.2, b5 l hl.1 hl.2.2.1, a5 l hl.2.1]
    exact hf0 l hl.1

/-- Everything INIT does to the frames of a list. -/
theorem initFrames_effect (e : Emitter) (fs : List (Fin 8)) (hn : fs.Nodup) {s : State} (hs : s.Sound) :
  let t := fs.foldl (fun s f => initFrame e f s) s
  Emits e s t (fs.flatMap (initFrameOps s.params)) ∧ t.draws = s.draws ∧ Memory.wf t.fbr = true ∧
  (∀ f ∈ fs, (∀ i, t.get (.int f i) = some 0) ∧ (∀ k, t.get (.bl f k) = some 0) ∧ (∀ k, t.get (.en f k) = some 0xFF)) ∧
  DevFrame (fun l => l = .bsr ∨ ∃ f ∈ fs, (∃ i, l = .int f i) ∨ (∃ k, l = .bl f k) ∨ (∃ k, l = .en f k)) s t := by
  induction fs generalizing s with
  | nil => exact ⟨Emits.refl _ _, rfl, hs.memory, by simp, fun _ _ => rfl⟩
  | cons f fs ih =>
    obtain ⟨a1, a2, a3, a4, a5, a6, a7⟩ := initFrame_effect e f hs
    simp only [List.foldl_cons]
    obtain ⟨b1, b2, b3, b4, b5⟩ := ih (List.nodup_cons.mp hn).2 (s := initFrame e f s) ⟨by rw [a1.params]; exact hs.params, a3⟩
    have hnf := (List.nodup_cons.mp hn).1
    refine ⟨?_, b2.trans a2, b3, ?_, ?_⟩
    · rw [a1.params] at b1; exact a1.trans b1
    · intro g hg
      rcases List.mem_cons.mp hg with rfl | hg
      · refine ⟨?_, ?_, ?_⟩
        · intro i; rw [b5 _ (by simp [hnf])]; exact a4 i
        · intro i; rw [b5 _ (by simp [hnf])]; exact a5 i
        · intro i; rw [b5 _ (by simp [hnf])]; exact a6 i
      · exact b4 g hg
    · intro l hl
      rw [b5 l, a7 l]
      · rintro (h | h)
        · exact hl (.inl h)
        · exact hl (.inr ⟨f, by simp, h⟩)
      · rintro (h | ⟨g, hg, h⟩)
        · exact hl (.inl h)
        · exact hl (.inr ⟨g, by simp [hg], h⟩)

/-- Configuration banks with equal registers are equal. -/
theorem cfg_of_get {s t : State} (h : ∀ n, t.get (.cfg n) = s.get (.cfg n)) : t.cfg = s.cfg := by
  have : ∀ n, t.cfg.get n = s.cfg.get n := fun n => by simpa [State.get] using h n
  have h1 := this .mode; have h2 := this .frame; have h3 := this .autoplay1; have h4 := this .autoplay2; have h5 := this .blink
  have h6 := this .audiosync; have h7 := this .breath1; have h8 := this .breath2; have h9 := this .shutdown; have h10 := this .gain; have h11 := this .adc
  cases hs : s.cfg; cases ht : t.cfg
  simp_all [CfgBank.get]

end Sys2Proof.Machine
end

