-- ==== Sys2Proof/Laws/Step.lean ====
section
/-! SUPPORT. What a step can do, said once: whose turn it was and what that agent did. -/

namespace Sys2Proof.Machine

@[simp] theorem hostSend_cmdPort (bytes s) : (hostSend bytes s).cmdPort = s.cmdPort ++ bytes := rfl
@[simp] theorem hostReceive_responses (s) : (hostReceive s).responses = s.responses.tail := rfl

/-- The BRP's turn: a command runs, an illegal frame is answered, or the BRP waits. -/
theorem brp_cases {s t : State}
    (h : (match fetchCommand s with
      | .run i s' => exec i s'
      | .done s' => .next s'
      | .malformed => .fault .malformedRecord) = Host.Outcome.next t) :
    (∃ i rest, decodeFrame s.cmdPort = .ok (i, rest) ∧ exec i (accept rest s) = .next t) ∨
    (decodeFrame s.cmdPort = .error .illegalHead ∧ t = answerIllegal s) ∨ t = s := by
  cases hd : decodeFrame s.cmdPort with
  | ok p => exact .inl ⟨p.1, p.2, rfl, by simpa only [fetchCommand, hd] using h⟩
  | error r =>
    cases r <;> simp only [fetchCommand, hd, Host.Outcome.next.injEq] at h
    case illegalHead => exact .inr (.inl ⟨rfl, h.symm⟩)
    all_goals exact .inr (.inr h.symm)

/-- Everything a step that answers a next state can have done. -/
theorem step_cases {s t : State} (h : step s = .next t) :
    (s.ph = .busy ∧ t = s) ∨ s.ph = .idle ∧
    ((∃ later, (s.agenda = [] ∧ later = [] ∨ s.agenda = .brp :: later) ∧
        ((∃ i rest, decodeFrame s.cmdPort = .ok (i, rest) ∧ exec i (accept rest { s with agenda := later }) = .next t) ∨
         (decodeFrame s.cmdPort = .error .illegalHead ∧ t = answerIllegal { s with agenda := later }) ∨
         t = { s with agenda := later })) ∨
     (∃ bytes later, s.agenda = .hostSend bytes :: later ∧ t = hostSend bytes { s with agenda := later }) ∨
     (∃ later, s.agenda = .hostReceive :: later ∧ t = hostReceive { s with agenda := later }) ∨
     (∃ m later, s.agenda = .ext m :: later ∧ t = extMove m { s with agenda := later }) ∨
     (∃ bytes later i, s.agenda = .bus bytes :: later ∧ decodeRecord bytes = .ok i ∧
        exec i { s with agenda := later } = .next t) ∨
     ∃ later, s.agenda = .disp :: later ∧ t = { s with agenda := later }) := by
  obtain ⟨params, bsr, fbr, cfg, ptr, af, ph, tr, responses, cmdPort, agenda, draws⟩ := s
  cases ph with
  | busy => cases h; exact .inl ⟨rfl, rfl⟩
  | idle =>
    refine .inr ⟨rfl, ?_⟩
    cases agenda with
    | nil => exact .inl ⟨[], .inl ⟨rfl, rfl⟩, brp_cases h⟩
    | cons event later =>
      cases event with
      | brp => exact .inl ⟨later, .inr rfl, brp_cases h⟩
      | hostSend bytes => cases h; exact .inr (.inl ⟨bytes, later, rfl, rfl⟩)
      | hostReceive => cases h; exact .inr (.inr (.inl ⟨later, rfl, rfl⟩))
      | ext m => cases h; exact .inr (.inr (.inr (.inl ⟨m, later, rfl, rfl⟩)))
      | bus bytes =>
        simp only [step, fetch] at h
        cases hd : decodeRecord bytes with
        | ok i => exact .inr (.inr (.inr (.inr (.inl ⟨bytes, later, i, rfl, hd, by simpa only [hd] using h⟩))))
        | error r => simp only [hd] at h; cases h
      | disp => cases h; exact .inr (.inr (.inr (.inr (.inr ⟨later, rfl, rfl⟩))))

end Sys2Proof.Machine
end

