-- ==== Sys2Proof/Tests/Slice0.lean ====
section
/-! SUPPORT. Tests: expected values from 95_test_vectors.md and 30_encoding.md (the vector's name stands with each test), and a
witness for the hypotheses of every statement that has some. -/

namespace Sys2Proof.Tests

open Sys2Proof Sys2Proof.Machine

/-! ### Helpers -/

/-- A small state: `AF = 2`, the device awake in picture mode, cell 7 of frame 0 lit, everything else zero. -/
def lit : State :=
  { State.reset with af := some 2, cfg := { CfgBank.zero with shutdown := 0x01 }, fbr := [(43, 0xFF)] }

/-- The same with the optional blink operand of SETPX built in and `AF = 0`. -/
def blinky : State := { lit with params := { Params.default with pixelBlinkImpl := true }, af := some 0 }

/-- The state after, if there is one. -/
def after : Result → Option State
  | .next t => some t
  | .fault _ => none
  | .refused _ => none

/-- What a test looks at: the response and the transactions. -/
def seen (r : Result) : Option (Option Response × List BusOp) :=
  (after r).map fun t => (t.lastResponse, t.tr.map (·.op))

/-- A write to this device. -/
def w (reg : Byte) (data : List Byte) : BusOp := .bwr 0x74 reg data

/-- A one-byte read of this device. -/
def r (reg v : Byte) : BusOp := .brd 0x74 reg 1 (some [v])

/-- An error answer, nothing emitted. -/
def bad (status : Status) : Option (Option Response × List BusOp) := some (some ⟨status, 0⟩, [])

theorem default_ok : Params.default.Ok := by constructor <;> decide

theorem default_modes : Params.default.ModesInField := by constructor <;> decide

theorem reset_sound : State.reset.Sound := ⟨default_ok, rfl⟩

theorem lit_sound : lit.Sound := ⟨default_ok, by decide⟩

theorem blinky_sound : blinky.Sound := ⟨by constructor <;> decide, by decide⟩

/-! ### WellFormed refuses (30_encoding.md R82, R88: the two 16-bit length fields) -/

theorem test_wf_wraw_too_long : (Instr.wraw none (List.replicate 65536 0)).wf = false := by
  simp only [Instr.wf, List.length_replicate]
  decide

theorem test_wf_brd_too_long : (Instr.brd 0x74 0 65536).wf = false := by decide

theorem test_wf_accepts : (Instr.brd 0x74 0 65535).wf = true ∧ (Instr.wraw none []).wf = true := by decide

/-! ### Decoding: the words of 95_test_vectors.md section 8 -/

/-- A frame of seven leading bytes, the rest zero. -/
def short (bs : List Byte) : List Byte := bs ++ List.replicate (12 - bs.length) 0

theorem test_decode_selb : decodeFrame (short [0x01, 0x01, 0x00, 0x03]) = .ok (.selb 3, []) := rfl
theorem test_decode_rdr : decodeFrame (short [0x02, 0x03, 0x00, 0x01, 0x00, 0xB3]) = .ok (.rdr 1 0xB3, []) := rfl
theorem test_decode_wrr :
    decodeFrame (short [0x03, 0x07, 0x00, 0x00, 0x00, 0x2B, 0x00, 0xFF]) = .ok (.wrr 0 0x2B 255, []) := rfl
theorem test_decode_reset : decodeFrame (short [0x10, 0x00]) = .ok (.reset, []) := rfl
theorem test_decode_init : decodeFrame (short [0x11, 0x00]) = .ok (.init, []) := rfl
theorem test_decode_sleep : decodeFrame (short [0x12, 0x01, 0x00, 0x01]) = .ok (.sleep 1, []) := rfl
theorem test_decode_autoplay :
    decodeFrame (short [0x13, 0x07, 0x00, 0x6E, 0x00, 0x03, 0x00, 0x05]) = .ok (.autoplay 110 3 5, []) := rfl
theorem test_decode_audioplay :
    decodeFrame (short [0x14, 0x0F, 0x11, 0xF8, 0x00, 0x09, 0x00, 0x01]) = .ok (.audioplay 4600 9 1 0, []) := rfl
theorem test_decode_blinkrate : decodeFrame (short [0x15, 0x01, 0x03, 0xE8]) = .ok (.blinkrate 1000, []) := rfl
theorem test_decode_blinkq : decodeFrame (short [0x16, 0x00]) = .ok (.blinkq, []) := rfl
theorem test_decode_fade :
    decodeFrame (short [0x17, 0x05, 0x00, 0x64, 0x00, 0x00, 0x00, 0x1A]) = .ok (.fade (some 100) none 26, []) ∧
    decodeFrame (short [0x17, 0x04]) = .ok (.fade none none 0, []) := ⟨rfl, rfl⟩
theorem test_decode_xlat : decodeFrame (short [0x20, 0x03, 0x00, 0x08]) = .ok (.xlat 8 0, []) := rfl
theorem test_decode_fill :
    decodeFrame (short [0x30, 0x03, 0x00, 0x01, 0x00, 0x09]) = .ok (.fill (some 1) (some 9) none, []) ∧
    decodeFrame (short [0x30, 0x05, 0x00, 0x02, 0x00, 0x00, 0x00, 0x01]) = .ok (.fill (some 2) none (some 1), []) ∧
    decodeFrame (short [0x30, 0x02, 0x00, 0x00, 0x01, 0x00]) = .ok (.fill none (some 256) none, []) := ⟨rfl, rfl, rfl⟩
theorem test_decode_wraw :
    decodeFrame (short [0x31, 0x03, 0x00, 0x01, 0x00, 0x03] ++ [0x01, 0x02, 0x03]) = .ok (.wraw (some 1) [1, 2, 3], []) ∧
    decodeFrame (short [0x31, 0x03, 0x00, 0x01, 0x00, 0x03] ++ [0x01, 0x02]) = .error .incompletePayload := ⟨rfl, rfl⟩
theorem test_decode_setpx :
    decodeFrame (short [0x32, 0x07, 0xFF, 0xFF, 0x00, 0x00, 0x00, 0xFF]) = .ok (.setpx (-1) 0 (some 255) none none, []) ∧
    decodeFrame [0x32, 0x17, 0x00, 0x10, 0x00, 0x06, 0x00, 0x80, 0x00, 0x00, 0x00, 0x03]
      = .ok (.setpx 16 6 (some 128) none (some 3), []) ∧
    decodeFrame (short [0x32, 0x0B, 0x00, 0x05, 0x00, 0x05, 0x00, 0x00, 0x00, 0x01])
      = .ok (.setpx 5 5 none (some 1) none, []) := ⟨rfl, rfl, rfl⟩
theorem test_decode_frame : decodeFrame (short [0x33, 0x01, 0x00, 0x02]) = .ok (.frame 2, []) := rfl
/-- B8. -/
theorem test_decode_bwr : decodeRecord [0xE8, 0xFD, 0x0B] = .ok (.bwr 0x74 0xFD [0x0B]) := rfl
/-- B9. -/
theorem test_decode_brd : decodeRecord [0xE9, 0x05, 0x00, 0x01] = .ok (.brd 0x74 0x05 1) := rfl

/-- The illegal heads of the decoding vectors. -/
theorem test_illegal_heads :
    [0x3008, 0x1703, 0x3100, 0x3201, 0x3223, 0x0100, 0x0103, 0x1001, 0x0000, 0x0400, 0x1800, 0x2103, 0x3400, 0xFFFF].all
      (fun head => opOfHead (BitVec.ofNat 16 head) == none) = true := by decide

/-- The eight legal SETPX presence patterns, and the other legal heads of the decoding vectors. -/
theorem test_legal_heads :
    [0x3203, 0x3207, 0x320B, 0x320F, 0x3213, 0x3217, 0x321B, 0x321F].all
      (fun head => opOfHead (BitVec.ofNat 16 head) == some .setpx) = true ∧
    [0x1704, 0x1705, 0x1706, 0x1707].all (fun head => opOfHead (BitVec.ofNat 16 head) == some .fade) = true ∧
    opOfHead 0x3000 = some .fill ∧ opOfHead 0x3102 = some .wraw := by decide

/-- The encoder against the same words. -/
theorem test_encode :
    encode (.setpx 16 6 (some 128) none (some 3)) = [0x32, 0x17, 0x00, 0x10, 0x00, 0x06, 0x00, 0x80, 0x00, 0x00, 0x00, 0x03] ∧
    encode (.wraw none [0xFF]) = short [0x31, 0x02, 0x00, 0x00, 0x00, 0x01] ++ [0xFF] ∧
    encode (.brd 0x74 0x05 1) = [0xE9, 0x05, 0x00, 0x01] := by decide

/-- Table words: a 16-bit head, the 96-bit frame in both numberings, and the 8-bit rows of the transactions. -/
theorem test_table_words :
    decodeTableWord 16 0x0203 = some (.rdr 0 0) ∧
    decodeTableWord 96 0x020300010005000000000000 = some (.rdr 1 5) ∧
    decodeTableWord 96 0x00000000000000050001_0203 = some (.rdr 1 5) ∧
    decodeTableWord 8 0 = some (.bwr 0 0 []) ∧ decodeTableWord 8 1 = some (.brd 0 0 0) := by decide

/-- The very next step runs the placed word, as a command and as a transaction. -/
theorem test_withFetchWord :
    seen (step (State.reset.withFetchWord 16 0x0101)) = some (some ⟨.ok, 0⟩, [w 0xFD [0x00]]) ∧
    seen (step (State.reset.withFetchWord 8 0)) = some (none, [.bwr 0 0 []]) := by decide

/-- HOST's turns: presented bytes stand behind those already there, the oldest response is received first. -/
theorem test_host_turns :
    (after (step { lit with cmdPort := [1], agenda := [.hostSend [2, 3], .brp] })).map (fun t => (t.cmdPort, t.agenda))
      = some ([1, 2, 3], [.brp]) ∧
    (after (step { lit with responses := [⟨.ok, 7⟩, ⟨.ok, 8⟩], agenda := [.hostReceive] })).map (·.responses)
      = some [⟨.ok, 8⟩] := by decide

/-! ### The instructions -/

/-- B4: the bytes after one that lands on BANK_ADDRESS resolve under the new bank, and the pointer wraps. -/
theorem test_bwr_bank_inside : (after (exec (.bwr 0x74 0xFC [0xAA, 0x02, 0xBB, 0xCC, 0x55]) State.reset)).map
    (fun t => (t.bsr, t.en 2 0, t.en 0 0)) = some (2, 0x55, 0) := by decide

/-- B5: cells 140 to 143 and two bytes dropped. -/
theorem test_bwr_end_of_plane : (after (exec (.bwr 0x74 0xB0 [1, 2, 3, 4, 5, 6]) State.reset)).map (·.fbr)
    = some [(176, 1), (177, 2), (178, 3), (179, 4)] := by decide

/-- B3. -/
theorem test_brd_bank : (after (exec (.brd 0x74 0xFD 1) { lit with bsr := 5 })).map (fun t => (t.bsr, t.tr))
    = some (5, [⟨.busMaster, r 0xFD 5⟩]) := by decide

/-- B2: two cells and an unmapped byte, which is drawn. -/
theorem test_brd_unmapped : (after (exec (.brd 0x74 0xB2 3) { lit with fbr := [(178, 9), (179, 9)] })).map (·.tr)
    = some [⟨.busMaster, .brd 0x74 0xB2 3 (some [9, 9, Config.freeByte 0])⟩] := rfl

/-- K1, K3. -/
theorem test_selb : seen (exec (.selb 3) lit) = some (some ⟨.ok, 0⟩, [w 0xFD [3]]) ∧
    (after (exec (.selb 11) lit)).map (·.bsr) = some 0x0B := by decide

/-- K2. -/
theorem test_selb_bad : [8, -1, 12].all (fun b => seen (exec (.selb b) lit) == bad .rangeError) = true := by decide

/-- K5. -/
theorem test_rdr : seen (exec (.rdr 0 0x2B) lit) = some (some ⟨.ok, 255⟩, [w 0xFD [0], r 0x2B 0xFF]) := by decide

/-- K7. -/
theorem test_rdr_bank : seen (exec (.rdr 3 0xFD) lit) = some (some ⟨.ok, 3⟩, [w 0xFD [3], r 0xFD 3]) := by decide

/-- K4. -/
theorem test_wrr : (after (exec (.wrr 0 0x2B 254) lit)).map (fun t => (t.int 0 7, t.bsr)) = some (254, 0) := by decide

/-- K8, K9. -/
theorem test_wrr_bank : (after (exec (.wrr 0 0xFD 0x0C) lit)).map (·.bsr) = some 0x0C ∧
    seen (exec (.wrr 0 256 0) lit) = bad .rangeError ∧ seen (exec (.wrr 9 0 0) lit) = bad .rangeError := by decide

/-- M5. -/
theorem test_reset : seen (exec .reset lit)
    = some (some ⟨.ok, 0⟩, [w 0xFD [0x0B], w 0x0A [0x00], w 0xFD [0x0B], w 0x0A [0x01]]) := by decide

set_option maxRecDepth 4000 in
/-- M6, one frame: a select, six transfers, 18 blink and 18 enable writes. -/
theorem test_init_frame :
    (initFrame .ext 1 lit).tr.length = 79 ∧ ((initFrame .ext 1 lit).tr.map (·.op)).take 3
      = [w 0xFD [1], w 0x24 (List.replicate 24 0), w 0x3C (List.replicate 24 0)] ∧
    ((initFrame .ext 1 lit).tr.map (·.op)).drop 77 = [w 0xFD [1], w 0x11 [0xFF]] := ⟨rfl, rfl, rfl⟩

/-- M7. -/
theorem test_sleep : seen (exec (.sleep (-1)) lit) = some (some ⟨.ok, 0⟩, [w 0xFD [0x0B], w 0x0A [0x00]]) ∧
    (after (exec (.sleep 5) lit)).map (·.lstate) = some (some .sleeping) := by decide

/-- M9. -/
theorem test_wake : (after (exec (.sleep 0) { lit with cfg := { lit.cfg with mode := 0x0A, shutdown := 0 } })).map
    (fun t => (t.lstate, t.cfg.mode)) = some (some .autoplayMode, 0x0A) := by decide

/-- M3. -/
theorem test_autoplay : seen (exec (.autoplay 110 3 5) lit) = some (some ⟨.ok, 0⟩,
    [w 0xFD [0x0B], w 0x02 [0x35], w 0xFD [0x0B], w 0x03 [0x0A], w 0xFD [0x0B], w 0x00 [0x0A]]) := by decide

/-- The table of section 4, and M2, M4. -/
theorem test_autoplay_bounds :
    [-11, 1, 10, 715, 32767].all (fun d => seen (exec (.autoplay d 0 0) lit) == bad .rangeError) = true ∧
    [(11, 1), (21, 1), (22, 2), (703, 0x3F), (704, 0), (714, 0)].all
      (fun d => (after (exec (.autoplay d.1 0 0) lit)).map (·.cfg.autoplay2) == some d.2) = true ∧
    seen (exec (.autoplay 11 8 0) lit) = bad .rangeError ∧
    seen (exec (.autoplay 0 9 9) lit) = some (some ⟨.ok, 0⟩, [w 0xFD [0x0B], w 0x00 [0x00]]) := by decide

/-- M10, M12. -/
theorem test_audioplay : seen (exec (.audioplay 4600 9 1 0) lit) = some (some ⟨.ok, 0⟩,
    [w 0xFD [0x0B], w 0x0C [0x64], w 0xFD [0x0B], w 0x0B [0x0B], w 0xFD [0x0B], w 0x00 [0x18]]) ∧
    seen (exec (.audioplay 46 24 0 0) lit) = bad .rangeError := by decide

/-- The two tables of section 4. -/
theorem test_audioplay_bounds :
    [-46, 45, 11822].all (fun d => seen (exec (.audioplay d 0 0 0) lit) == bad .rangeError) = true ∧
    [(46, 1), (91, 1), (92, 2), (11775, 0xFF), (11776, 0), (11821, 0)].all
      (fun d => (after (exec (.audioplay d.1 0 0 0) lit)).map (·.cfg.adc) == some d.2) = true ∧
    [(9, 5, 0, 0x0B), (21, 1, 1, 0x1F), (23, 0, 1, 0x17)].all
      (fun g => (after (exec (.audioplay 46 g.1 g.2.1 g.2.2.1) lit)).map (·.cfg.gain) == some g.2.2.2) = true := by decide

/-- The table of section 4. -/
theorem test_blinkrate : seen (exec (.blinkrate (-1)) lit) = bad .rangeError ∧
    [(0, 0x00), (269, 0x08), (270, 0x09), (1000, 0x0B), (2159, 0x0F), (2160, 0x08), (32767, 0x09)].all
      (fun q => (after (exec (.blinkrate q.1) lit)).map (·.cfg.blink) == some q.2) = true := by decide

/-- S11. -/
theorem test_blinkq : seen (exec .blinkq { lit with cfg := { lit.cfg with blink := 0x0B } })
    = some (some ⟨.ok, 810⟩, [w 0xFD [0x0B], r 0x05 0x0B]) := by decide

/-- M13, M14, M15. -/
theorem test_fade :
    (after (exec (.fade (some 26) (some 6655) 3328) lit)).map (fun t => (t.cfg.breath1, t.cfg.breath2)) = some (0x70, 0x17) ∧
    (after (exec (.fade none (some 832) 208) lit)).map (fun t => (t.cfg.breath1, t.cfg.breath2)) = some (0x55, 0x13) ∧
    (after (exec (.fade (some 416) none 52) lit)).map (fun t => (t.cfg.breath1, t.cfg.breath2)) = some (0x44, 0x11) := by
  decide

/-- M17, M18. -/
theorem test_fade_off : seen (exec (.fade none none 0) lit) = some (some ⟨.ok, 0⟩, [w 0xFD [0x0B], w 0x09 [0x00]]) ∧
    seen (exec (.fade (some 100) (some 100) 6656) lit) = bad .rangeError ∧
    seen (exec (.fade (some 25) (some 100) 26) lit) = bad .rangeError := by decide

/-- X1. -/
theorem test_xlat : [(0, 0, 7), (8, 0, 135), (9, 0, 136), (16, 6, 30)].all
    (fun q => seen (exec (.xlat q.1 q.2.1) lit) == some (some ⟨.ok, q.2.2⟩, [])) = true := by decide

/-- X2. -/
theorem test_xlat_off : [(17, 0), (-1, 0), (0, 7), (0, -1), (20, 20)].all
    (fun q => seen (exec (.xlat q.1 q.2) lit) == some (some ⟨.ok, 0xFFFF⟩, [])) = true := by decide

/-- FS1. -/
theorem test_fill : (seen (exec (.fill (some 1) (some 9) none) lit)) = some (some ⟨.ok, 0⟩,
    w 0xFD [1] :: [0x24, 0x3C, 0x54, 0x6C, 0x84, 0x9C].map (w · (List.replicate 24 9))) := by decide

/-- FS7, FS8. -/
theorem test_fill_bad : seen (exec (.fill (some 8) (some 0) none) lit) = bad .rangeError ∧
    seen (exec (.fill (some 0) (some (-1)) none) lit) = bad .rangeError ∧
    exec (.fill none (some 0) none) State.reset = .refused .activeFrameUnset := ⟨by decide, by decide, rfl⟩

/-- FS9 with the active frame 2. -/
theorem test_wraw : (after (exec (.wraw none [0, 0, 0, 0, 0, 0, 0, 0xFE]) lit)).map (fun t => (t.int 2 7, t.int 0 7, t.bsr))
    = some (0xFE, 0xFF, 2) := by decide

/-- FS12, FS13. -/
theorem test_wraw_bad : seen (exec (.wraw (some 9) [1]) lit) = bad .rangeError ∧
    seen (exec (.wraw (some 9) (List.replicate 145 7)) lit) = bad .sizeError := ⟨by decide, by
  simp [exec, execWraw, raiseError, respond, seen, after, bad, State.lastResponse, lit, State.reset]⟩

/-- FS17, FS18, FS19. -/
theorem test_setpx :
    seen (exec (.setpx 16 6 (some 128) none (some 3)) lit) = some (some ⟨.ok, 0⟩, [w 0xFD [3], w 0x42 [0x80]]) ∧
    seen (exec (.setpx 20 0 (some 1) none (some 9)) lit) = some (some ⟨.ok, 0⟩, []) ∧
    seen (exec (.setpx 0 0 (some 1) none (some 8)) lit) = bad .rangeError := by decide

/-- FS23. -/
theorem test_setpx_blink : seen (exec (.setpx 3 2 (some 255) (some 1) none) blinky) = some (some ⟨.ok, 0⟩,
    [w 0xFD [0], w 0x59 [0xFF], w 0xFD [0], r 0x18 0x00, w 0xFD [0], w 0x18 [0x20]]) := by decide

/-- FS24, FS25. -/
theorem test_frame : (after (exec (.frame 3) lit)).map (fun t => (t.af, t.cfg.frame)) = some (some 3, 3) ∧
    seen (exec (.frame 2) lit) = some (some ⟨.ok, 0⟩, [w 0xFD [0x0B], w 0x01 [0x02]]) ∧
    seen (exec (.frame 8) lit) = bad .rangeError := by decide

/-! ### Witnesses: the hypotheses of each statement hold together somewhere, for each clause and at the ends of its ranges -/

theorem witness_CommandRoundTrip :
    [Instr.setpx (-32768) 32767 (some 0) none (some (-1)), .fade none none 0, .wraw (some 1) [1, 2, 3], .reset].all
      (fun i => i.wf && i.isCommand) = true := by decide

theorem witness_RecordRoundTrip :
    [Instr.bwr 0x7F 0xFF [1], .bwr 0 0 [], .brd 0x74 0xFF 65535].all (fun i => i.wf && !i.isCommand) = true := by decide

theorem witness_OpcodeRowsDisjoint :
    (⟨.fill, 0x3000, 0xFFF8⟩ : OpRow) ∈ opRows ∧ (⟨.fill, 0x3000, 0xFFF8⟩ : OpRow).hits 0x3007 = true := by decide

theorem witness_DecodedCommandConsumesItsBytes :
    decodeFrame (short [0x31, 0x03, 0x00, 0x01, 0x00, 0x03] ++ [1, 2, 3, 0xAA]) = .ok (.wraw (some 1) [1, 2, 3], [0xAA]) := rfl

/-- A state with these bytes on the port and these turns to come. -/
def fed (cmdPort : List Byte) (agenda : List Event) : State := { lit with cmdPort := cmdPort, agenda := agenda }

theorem witness_StepRunsDecodedCommand :
    (∀ agenda, (fed (short [0x01, 0x01, 0x00, 0x03]) agenda).ph = .idle) ∧
    decodeFrame (fed (short [0x01, 0x01, 0x00, 0x03]) []).cmdPort = .ok (.selb 3, []) ∧
    decodeFrame (fed (short [0x01, 0x01, 0x00, 0x03]) [.brp, .disp]).cmdPort = .ok (.selb 3, []) :=
  ⟨fun _ => rfl, rfl, rfl⟩

theorem witness_StepRunsDecodedRecord :
    (fed [] [.bus [0xE9, 0x05, 0x00, 0x01]]).ph = .idle ∧ decodeRecord [0xE9, 0x05, 0x00, 0x01] = .ok (.brd 0x74 5 1) ∧
    decodeRecord [0xE9, 0x05] = .error .malformedRecord ∧ decodeRecord [] = .error .malformedRecord := ⟨rfl, rfl, rfl, rfl⟩

theorem witness_IllegalFrameAnswered :
    (fed (0x31 :: 0x00 :: (List.replicate 10 1 ++ [0xAA])) []).ph = .idle ∧
    (fed (0x31 :: 0x00 :: (List.replicate 10 1 ++ [0xAA])) []).agenda = [] ∧
    ∀ row ∈ opRows, row.hits (wordOf 0x31 0x00) = false := by decide

theorem witness_IncompleteFrameWaits :
    (fed [] []).cmdPort.length < 12 ∧ (fed (List.replicate 11 0) [.brp, .disp]).cmdPort.length < 12 ∧
    (fed [] [.brp, .disp]).ph = .idle ∧ (fed [] [.brp, .disp]).agenda = .brp :: [.disp] ∧ (Instr.wraw (some 1) [1]).wf = true ∧
    (fed (short [0x31, 0x03, 0x00, 0x01, 0x00, 0x01]) [.brp]).cmdPort = (encode (.wraw (some 1) [1])).take 12 ++ [] ∧
    ({ lit with ph := .busy } : State).ph = .busy := by decide

theorem witness_ExtMovesBetweenCommands :
    (fed [] [.ext (.setBsr 0x55)]).ph = .idle ∧ (fed [] [.ext .reset, .brp]).ph = .idle ∧
    (fed [] [.ext .reset, .brp]).Sound := ⟨rfl, rfl, default_ok, by decide⟩

theorem witness_AddressResolution :
    Params.default.Ok ∧
    [(0, 0xFD, .bsr), (0x0B, 0xFD, .bsr), (0, 0x00, .en 0 0), (7, 0x11, .en 7 17), (0, 0x12, .bl 0 0), (7, 0x23, .bl 7 17),
     (0, 0x24, .int 0 0), (7, 0xB3, .int 7 143), (0, 0xB4, .unmapped), (7, 0xFF, .unmapped), (0x0B, 0x00, .cfg .mode),
     (0x0B, 0x0C, .cfg .adc), (0x0B, 0x04, .unmapped), (8, 0x24, .unmapped), (0xFF, 0x00, .unmapped)].all
      (fun q : Byte × Byte × Loc => resolve Params.default q.1 q.2.1 == q.2.2) = true := ⟨default_ok, by decide⟩

theorem witness_RegistersDistinct :
    resolve Params.default 7 0xB3 = resolve Params.default 7 0xB3 ∧ resolve Params.default 7 0xB3 ≠ .bsr ∧
    resolve Params.default 7 0xB3 ≠ .unmapped := by decide

theorem witness_BwrEffect :
    Memory.wf lit.fbr = true ∧ (0x75 : BitVec 7) ≠ lit.params.devAddr ∧ (0x74 : BitVec 7) = lit.params.devAddr ∧
    resolve lit.params lit.bsr 0xB3 ≠ .unmapped ∧ resolve lit.params lit.bsr 0xFD ≠ .unmapped ∧
    resolve lit.params lit.bsr 0xB4 = .unmapped ∧ ([1, 2] : List Byte) = [1] ++ [2] := by decide

set_option maxRecDepth 4000 in
theorem witness_BwrBulkWritesConsecutive :
    lit.Sound ∧ (List.replicate 255 (0x07 : Byte)).length ≤ 256 ∧
    (∀ k < 255, addrPlus 0xFE k ≠ lit.params.bankAddress) ∧
    resolve lit.params lit.bsr (addrPlus 0xFE 2) ≠ .unmapped := ⟨lit_sound, by decide, by decide, by decide⟩

theorem witness_BrdEffect :
    (0x00 : BitVec 7) ≠ lit.params.devAddr ∧ (0x74 : BitVec 7) = lit.params.devAddr := by decide

theorem witness_SelbEffect :
    ValidBank lit.params 0 ∧ ValidBank lit.params 7 ∧ ValidBank lit.params 0x0B ∧ ¬ ValidBank lit.params 8 ∧
    ¬ ValidBank lit.params (-1) := by unfold ValidBank; decide

theorem witness_RdrEffect :
    ValidBank lit.params 7 ∧ Within 0 255 0 ∧ Within 0 255 255 ∧ Within 0 255 0xFD ∧
    ¬ (ValidBank lit.params 7 ∧ Within 0 255 256) ∧ ¬ (ValidBank lit.params 8 ∧ Within 0 255 0) := by
  unfold ValidBank Within; decide

theorem witness_WrrEffect :
    Memory.wf lit.fbr = true ∧ ValidBank lit.params 0x0B ∧ Within 0 255 0x0C ∧ Within 0 255 255 ∧
    ¬ (ValidBank lit.params 0x0B ∧ Within 0 255 0x0C ∧ Within 0 255 256) := by unfold ValidBank Within; decide

theorem witness_WrrReadsBack :
    lit.Sound ∧ ValidBank lit.params 7 ∧ Within 0 255 0xB3 ∧ Within 0 255 255 ∧
    resolve lit.params 7 0xB3 ≠ .unmapped ∧ resolve lit.params 7 0xB3 ≠ .bsr :=
  ⟨lit_sound, by unfold ValidBank; decide, by unfold Within; decide, by unfold Within; decide, by decide, by decide⟩

theorem witness_ResetEffect : lit.Sound := lit_sound

theorem witness_InitEffect : lit.Sound := lit_sound

theorem witness_SleepEffect : lit.Sound := lit_sound

theorem witness_BlinkqEffect : lit.Sound := lit_sound

theorem witness_AutoplayEffect :
    lit.Sound ∧ lit.af = some 2 ∧ Within 11 714 11 ∧ Within 11 714 714 ∧ Within 0 7 0 ∧ Within 0 7 7 ∧
    ¬ (Within 11 714 10 ∧ Within 0 7 0 ∧ Within 0 7 0) ∧ ¬ (Within 11 714 715 ∧ Within 0 7 0 ∧ Within 0 7 0) ∧
    ¬ (Within 11 714 11 ∧ Within 0 7 8 ∧ Within 0 7 0) ∧ (10 : Operand) ≠ 0 :=
  ⟨lit_sound, rfl, by unfold Within; decide⟩

theorem witness_AudioplayEffect :
    lit.Sound ∧ Within 46 11821 46 ∧ Within 46 11821 11821 ∧ Within 0 23 0 ∧ Within 0 23 23 ∧
    ¬ (Within 46 11821 45 ∧ Within 0 23 0) ∧ ¬ (Within 46 11821 11822 ∧ Within 0 23 0) ∧
    ¬ (Within 46 11821 46 ∧ Within 0 23 24) ∧ ¬ (Within 46 11821 46 ∧ Within 0 23 (-1)) :=
  ⟨lit_sound, by unfold Within; decide⟩

theorem witness_BlinkrateEffect :
    lit.Sound ∧ 0 ≤ (0 : Operand).toInt ∧ 0 ≤ (32767 : Operand).toInt ∧ (-1 : Operand).toInt < 0 := ⟨lit_sound, by decide⟩

theorem witness_FadeEffect :
    lit.Sound ∧ IsLog26 (26 : Operand).toInt 0 ∧ IsLog26 (51 : Operand).toInt 0 ∧ IsLog26 (3328 : Operand).toInt 7 ∧
    IsLog26 (6655 : Operand).toInt 7 ∧ ¬ (Within 26 6655 25 ∧ Within 26 6655 26 ∧ Within 26 6655 26) ∧
    ¬ (Within 26 6655 26 ∧ Within 26 6655 26 ∧ Within 26 6655 6656) :=
  ⟨lit_sound, by unfold IsLog26 Within; decide⟩

theorem witness_FadeExponentIsGreatest :
    26 ≤ (26 : Operand).toInt ∧ 26 ≤ (32767 : Operand).toInt ∧ IsLog26 (52 : Operand).toInt 1 := by unfold IsLog26; decide

theorem witness_XlatEffect :
    NamesPixel 0 0 0 0 ∧ NamesPixel 8 6 8 6 ∧ NamesPixel 9 0 9 0 ∧ NamesPixel 16 6 16 6 ∧ OffMatrix 17 0 ∧
    OffMatrix (-1) 0 ∧ OffMatrix 0 7 ∧ OffMatrix 0 (-1) := by unfold NamesPixel OffMatrix Within; decide

theorem witness_TranslatorInverse : pixel 7 = some (0, 0) ∧ pixel 30 = some (16, 6) ∧ pixel 112 = none := by decide

theorem witness_FillEffect :
    lit.Sound ∧ NamesFrame lit none 2 ∧ NamesFrame lit (some 7) 7 ∧ Within 0 255 255 ∧ BadFrame (some 8) ∧
    BadFrame (some (-1)) ∧ BadColor (some 256) ∧ BadColor (some (-1)) :=
  ⟨lit_sound, .inl ⟨rfl, rfl⟩, .inr ⟨7, rfl, by decide⟩, by unfold Within; decide, ⟨8, rfl, by unfold Within; decide⟩,
    ⟨-1, rfl, by unfold Within; decide⟩, ⟨256, rfl, by unfold Within; decide⟩, ⟨-1, rfl, by unfold Within; decide⟩⟩

theorem witness_FillReadsBack : lit.Sound ∧ Within 0 7 7 ∧ Within 0 255 255 := ⟨lit_sound, by unfold Within; decide⟩

theorem witness_WrawEffect :
    lit.Sound ∧ NamesFrame lit none 2 ∧ (List.replicate 144 (7 : Byte)).length ≤ 144 ∧
    144 < (List.replicate 145 (7 : Byte)).length ∧ BadFrame (some 8) :=
  ⟨lit_sound, .inl ⟨rfl, rfl⟩, by simp, by simp, 8, rfl, by unfold Within; decide⟩

theorem witness_SetpxEffect :
    lit.Sound ∧ OffMatrix 17 0 ∧ NamesPixel 16 6 16 6 ∧ BadFrame (some 8) ∧ BadColor (some 256) ∧ ¬ BadFrame none ∧
    ¬ BadFrame (some 7) ∧ NamesFrame lit (some 0) 0 ∧ Within 0 255 255 ∧ lit.params.pixelBlinkImpl = false :=
  ⟨lit_sound, by unfold OffMatrix Within; decide, by unfold NamesPixel; decide, ⟨8, rfl, by unfold Within; decide⟩,
    ⟨256, rfl, by unfold Within; decide⟩, by simp [BadFrame], by simp [BadFrame, Within], .inr ⟨0, rfl, by decide⟩,
    by unfold Within; decide, rfl⟩

theorem witness_SetpxBlinkReadModifyWrite :
    blinky.Sound ∧ blinky.params.pixelBlinkImpl = true ∧ NamesPixel 16 6 16 6 ∧ NamesFrame blinky none 0 ∧
    ∀ c : Operand, some (255 : Operand) = some c → Within 0 255 c :=
  ⟨blinky_sound, rfl, by unfold NamesPixel; decide, .inl ⟨rfl, rfl⟩, by rintro c ⟨⟩; unfold Within; decide⟩

theorem witness_FrameEffect :
    lit.Sound ∧ (0 : Operand).toInt = ((0 : Fin 8).val : Int) ∧ (7 : Operand).toInt = ((7 : Fin 8).val : Int) ∧
    ¬ Within 0 7 8 ∧ ¬ Within 0 7 (-1) := ⟨lit_sound, by unfold Within; decide⟩

theorem witness_PixelWritesDoNotInterfere :
    lit.Sound ∧ NamesPixel 8 0 8 0 ∧ ((9 : Fin 17), (0 : Fin 7)) ≠ (8, 0) ∧
    ∃ t, exec (.setpx 8 0 (some 5) none none) lit = .next t :=
  ⟨lit_sound, by unfold NamesPixel; decide, by decide, _, rfl⟩

theorem witness_UnsetActiveFrameRefuses :
    State.reset.af = none ∧ ¬ BadColor (some 255) ∧ ¬ BadColor none ∧ NamesPixel 16 6 16 6 ∧ Within 0 255 0 ∧
    Within 11 714 11 ∧ Within 0 7 7 ∧ ({ blinky with af := none } : State).af = none ∧
    ({ blinky with af := none } : State).params.pixelBlinkImpl = true :=
  ⟨rfl, by simp [BadColor, Within], by simp [BadColor], by unfold NamesPixel; decide, by unfold Within; decide,
    by unfold Within; decide, by unfold Within; decide, rfl, rfl⟩

theorem reset_inv : State.reset.Inv := ⟨default_ok, rfl, rfl, rfl⟩

theorem witness_StepKeepsInv : lit.Inv ∧ ∃ t, step (lit.withFetchWord 96 0x020300010005000000000000) = .next t :=
  ⟨⟨default_ok, by decide, rfl, rfl⟩, _, rfl⟩

theorem witness_StepOnlyExtendsTrace : ∃ t, step (lit.withFetchWord 16 0x0101) = .next t := ⟨_, rfl⟩

theorem witness_CommandAnswersOnce : (Instr.selb 3).isCommand = true ∧ ∃ t, exec (.selb 3) lit = .next t := ⟨rfl, _, rfl⟩

theorem witness_ErrorChangesNothing :
    (Instr.frame 8).isCommand = true ∧ ∃ t, exec (.frame 8) lit = .next t ∧ t.lastResponse = some ⟨.rangeError, 0⟩ ∧
    (⟨.rangeError, 0⟩ : Response).status ≠ .ok := ⟨rfl, _, rfl, rfl, by decide⟩

theorem witness_ResponseOutcomes :
    (∃ t, exec (.xlat 17 0) lit = .next t ∧ t.lastResponse = some ⟨.ok, 0xFFFF⟩) ∧
    (∃ t, exec .blinkq { lit with cfg := { lit.cfg with blink := 0xFF } } = .next t ∧ t.lastResponse = some ⟨.ok, 1890⟩) ∧
    (∃ t, exec (.rdr 0 0x2B) lit = .next t ∧ t.lastResponse = some ⟨.ok, 255⟩) ∧
    (Instr.xlat 17 0).isCommand = true :=
  ⟨⟨_, rfl, rfl⟩, ⟨_, rfl, rfl⟩, ⟨_, rfl, rfl⟩, rfl⟩

theorem witness_OnlyUnsetActiveFrameStops : exec (.wraw none []) State.reset = .refused .activeFrameUnset := rfl

theorem witness_SelectPrecedesAccess : (Instr.frame 3).isCommand = true ∧ ∃ t, exec (.frame 3) lit = .next t := ⟨rfl, _, rfl⟩

theorem witness_BankInsensitive : (Instr.frame 3).isCommand = true ∧ (Instr.xlat 0 0).isCommand = true := by decide

theorem witness_ActiveFrameWriters : ∃ t, exec (.frame 3) lit = .next t ∧ t.af ≠ lit.af := ⟨_, rfl, by decide⟩

theorem witness_FramesIndependent :
    lit.Sound ∧ (Instr.wrr 0 0x24 1).isCommand = true ∧ Instr.wrr 0 0x24 1 ≠ .init ∧
    (∃ t, exec (.wrr 0 0x24 1) lit = .next t ∧ t.get (.int 0 0) ≠ lit.get (.int 0 0)) ∧
    (Loc.int 0 0).InFrame 0 ∧ (Loc.en 7 17).InFrame 7 ∧ (0 : Fin 8) ≠ 7 :=
  ⟨lit_sound, rfl, by decide, ⟨_, rfl, by decide⟩, rfl, rfl, by decide⟩

theorem witness_EnableMaskWriters :
    lit.Sound ∧ (Instr.wrr 0 0x11 1).isCommand = true ∧ ∃ t, exec (.wrr 0 0x11 1) lit = .next t ∧ t.en 0 17 ≠ lit.en 0 17 :=
  ⟨lit_sound, rfl, _, rfl, by decide⟩

theorem witness_ModeWrittenLast :
    lit.Sound ∧ (∃ t, exec (.autoplay 110 3 5) lit = .next t ∧ t.lastResponse = some ⟨.ok, 0⟩) ∧
    (∃ t, exec (.autoplay 0 3 5) lit = .next t ∧ t.lastResponse = some ⟨.ok, 0⟩) ∧
    (∃ t, exec (.autoplay 10 3 5) lit = .next t ∧ t.lastResponse ≠ some ⟨.ok, 0⟩) ∧
    (∃ t, exec (.audioplay 46 0 0 0) lit = .next t ∧ t.lastResponse = some ⟨.ok, 0⟩) ∧
    ∃ t, exec (.audioplay 46 24 0 0) lit = .next t ∧ t.lastResponse ≠ some ⟨.ok, 0⟩ :=
  ⟨lit_sound, ⟨_, rfl, rfl⟩, ⟨_, rfl, rfl⟩, ⟨_, rfl, by decide⟩, ⟨_, rfl, rfl⟩, _, rfl, by decide⟩

theorem witness_TransactionsBounded : (Instr.blinkq).isCommand = true ∧ ∃ t, exec .blinkq lit = .next t := ⟨rfl, _, rfl⟩

theorem witness_LifecycleTransitions :
    lit.Sound ∧ lit.params.ModesInField ∧ lit.af = some 2 ∧ (1 : Operand) ≠ 0 ∧ Within 11 714 714 ∧ Within 0 7 7 ∧
    Within 46 11821 46 ∧ Within 0 23 23 := ⟨lit_sound, default_modes, rfl, by decide, by unfold Within; decide⟩

theorem witness_LifecycleUnchangedByOthers :
    lit.Sound ∧ (Instr.sleep 1).isCommand = true ∧ ∃ t, exec (.sleep 1) lit = .next t ∧ t.lstate ≠ lit.lstate :=
  ⟨lit_sound, rfl, _, rfl, by decide⟩

theorem witness_BlinkRateReadsBack : lit.Sound ∧ 0 ≤ (32767 : Operand).toInt := ⟨lit_sound, by decide⟩

/-- A power-on state with other contents than reset's, and RESET, INIT on the port. -/
def powerOn : State :=
  { State.reset with bsr := 0x55, fbr := [(0, 0xAA)], cfg := { CfgBank.zero with mode := 0x1F },
                     cmdPort := encode .reset ++ encode .init }

theorem witness_BootEstablishesKnownState :
    powerOn.PowerOn ∧ powerOn.params.ModesInField ∧ powerOn.agenda = [] ∧
    powerOn.cmdPort = encode .reset ++ encode .init := ⟨⟨default_ok, by decide, rfl, rfl, rfl, rfl⟩, default_modes, rfl, rfl⟩

theorem witness_ShownFollowsSetpx :
    ({ lit with af := some 0 } : State).Sound ∧ ({ lit with af := some 0 } : State).params.pixelBlinkImpl = false ∧
    ({ lit with af := some 0 } : State).lstate = some .pictureMode ∧
    ({ lit with af := some 0 } : State).af = some ({ lit with af := some 0 } : State).shownFrame ∧
    NamesPixel 0 0 0 0 ∧ Within 0 255 0 ∧ ({ lit with af := some 0 } : State).shown 0 0 = some ⟨255, false, false⟩ :=
  ⟨⟨default_ok, by decide⟩, rfl, by decide, by decide, by unfold NamesPixel; decide, by unfold Within; decide, by decide⟩

theorem witness_HostAndDisplayTurns :
    (fed [] [.hostSend [1]]).ph = .idle ∧ (fed [] [.hostSend [1]]).agenda = .hostSend [1] :: [] ∧
    ({ fed [] [.hostReceive] with responses := [⟨.ok, 7⟩, ⟨.ok, 0⟩] } : State).responses = ⟨.ok, 7⟩ :: [⟨.ok, 0⟩] ∧
    (fed [] [.hostReceive]).responses = [] ∧ (fed [] [.disp]).agenda = .disp :: [] ∧
    (Instr.selb 3).wf = true ∧ (Instr.selb 3).isCommand = true ∧
    (fed [] [.hostSend (encode (.selb 3)), .brp]).cmdPort = [] ∧
    (fed [] [.hostSend (encode (.selb 3)), .brp]).agenda = .hostSend (encode (.selb 3)) :: .brp :: [] := by decide

theorem witness_WrrFrameLeavesActiveFrame : lit.Sound ∧ Within 0 7 0 ∧ Within 0 7 7 := ⟨lit_sound, by unfold Within; decide⟩

theorem witness_BankInterferenceReachable :
    (fed [] [.bus [0xE8, 0xFD, 0x00], .bus [0xE8, 0xFD, 0x0B], .bus [0xE8, 0x00, 0xFF]]).Inv ∧
    (fed [] []).params = Params.default ∧ (fed [] []).cfg.shutdown = 0x01 := ⟨⟨default_ok, by decide, rfl, rfl⟩, rfl, rfl⟩

end Sys2Proof.Tests
end

section
/-! PROOFS of the statements about addresses (20_memory.md). `resolve_en`, `resolve_bl`, `resolve_int` and `resolve_cfg`
(Laws/Ops) give the mapped cases at canonical arguments; here stand the bridge from numbers to those arguments and the
three ways an address is unmapped. -/

namespace Sys2Proof.Machine

/-- A bank id equal to a frame index as a number is that frame's bank. -/
theorem eq_frameBank {b : Byte} {f : Fin 8} (h : b.toNat = f.val) : b = frameBank f :=
  BitVec.eq_of_toNat_eq (h.trans (frameBank_toNat f).symm)

/-- An address that lies `k` above an offset as a number, without wrapping, is that offset's `k`-th address. -/
theorem eq_addrPlus {a off : Byte} {k : Nat} (h : a.toNat = off.toNat + k) : a = addrPlus off k :=
  BitVec.eq_of_toNat_eq (h.trans (addrPlus_toNat (h ▸ a.isLt)).symm)

/-- In a frame bank an address outside the three regions reaches nothing. -/
theorem resolve_frameBank_unmapped {p : Params} {a : Byte} (ha : a ≠ p.bankAddress) (f : Fin 8)
    (he : ¬ Params.inRegion p.enableOffset 18 a) (hb : ¬ Params.inRegion p.blinkOffset 18 a)
    (hc : ¬ Params.inRegion p.colorOffset 144 a) : resolve p (frameBank f) a = .unmapped := by
  rw [resolve_frameBank ha, resolveFrame, dif_neg he, dif_neg hb, dif_neg hc]

/-- Outside the frame banks and the configuration bank an address reaches nothing. -/
theorem resolve_invalidBank {p : Params} {b a : Byte} (ha : a ≠ p.bankAddress) (hf : 8 ≤ b.toNat)
    (hb : b ≠ p.configBank) : resolve p b a = .unmapped := by
  rw [resolve, if_neg ha, dif_neg (Nat.not_lt.mpr hf), if_neg hb]

theorem resolve_configBank {p : Params} (hp : p.Ok) {a : Byte} (ha : a ≠ p.bankAddress) :
    resolve p p.configBank a = resolveConfig p a := by
  rw [resolve, if_neg ha, dif_neg (Nat.not_lt.mpr hp.config_not_frame), if_pos rfl]

/-- In the configuration bank an address that is no register's offset reaches nothing. -/
theorem resolve_configBank_unmapped {p : Params} (hp : p.Ok) {a : Byte} (ha : a ≠ p.bankAddress)
    (hr : a ∉ p.regOffsets) : resolve p p.configBank a = .unmapped := by
  have hnone : CfgName.all.find? (fun n => n.offset p == a) = none := by
    rw [List.find?_eq_none]
    intro n hn hna
    apply hr
    rw [regOffsets_eq, ← beq_iff_eq.mp hna]
    exact List.mem_map_of_mem hn
  rw [resolve_configBank hp ha, resolveConfig, hnone]

/-- Settles O11: in each bank, every mapped address by its law at the canonical argument, every other one by the lemma
that says why it is unmapped. -/
theorem addressResolution : Obligations.AddressResolution := by
  intro p b a hp
  refine ⟨fun hbank => hbank ▸ resolve_bank p b, fun ha => ⟨fun f hf => ?_, fun hb => ?_, resolve_invalidBank ha⟩⟩
  · rw [eq_frameBank hf]
    refine ⟨fun k hk => ?enable, fun k hk => ?blink, fun i hi => ?color, resolve_frameBank_unmapped ha f⟩
    case enable => rw [eq_addrPlus hk, resolve_en hp]
    case blink => rw [eq_addrPlus hk, resolve_bl hp]
    case color => rw [eq_addrPlus hi, resolve_int hp]
  · subst hb
    exact ⟨fun n hn => hn ▸ resolve_cfg hp n, resolve_configBank_unmapped hp ha⟩

end Sys2Proof.Machine
end

section
/-! PROOFS of the statements about the bank-register protocol (41_bank_protocol.md): SELB and WRR, and "select before
access" (R114). The relation `SelectsFirst` is reflexive and transitive, and each register access satisfies it, so every
command does; that a list with a select at its head meets R114 is a fact about lists. -/

namespace Sys2Proof.Machine

/-! ### SELB and WRR -/

/-- `RangeError` is the answer that changes nothing else (R176). -/
theorem raiseError_eq (status : Status) (s : State) : raiseError status s = .next (s.rejected status) := rfl

/-- The answer touches no location. -/
theorem DevFrame.respond {touched : Loc → Prop} {s t : State} (h : DevFrame touched s t) (st : Status) (v : BitVec 16) :
    DevFrame touched s (respond st v t) := fun l hl => (get_respond st v t l).trans (h l hl)

theorem execSelb_valid {s : State} {bank : Operand} (hb : ValidBank s.params bank) :
    execSelb bank s = finish 0 (select (.command (.selb bank)) (bank.setWidth 8) s) := by
  rw [execSelb, bankOperand_valid hb]

theorem execSelb_invalid {s : State} {bank : Operand} (hb : ¬ ValidBank s.params bank) :
    execSelb bank s = raiseError .rangeError s := by
  rw [execSelb, bankOperand_invalid hb]

/-- Settles O16: the valid bank by what a select emits and changes, the invalid one by the error entry. -/
theorem selbEffect : Obligations.SelbEffect := by
  intro s bank
  refine ⟨fun hb => ⟨_, execSelb_valid hb, (select_emits _ _ s).ran 0, ?bsr, (select_frame _ _ s).respond _ _, ?latch⟩,
    execSelb_invalid⟩
  case bsr => simp [select_eq]
  case latch => simp [KeepsLatch, select_eq]

theorem execWrr_legal {s : State} {bank reg value : Operand} (hb : ValidBank s.params bank) (hr : Within 0 255 reg)
    (hv : Within 0 255 value) :
    execWrr bank reg value s =
      finish 0 (regWrite (.command (.wrr bank reg value)) (bank.setWidth 8) (reg.setWidth 8) (value.setWidth 8) s) := by
  rw [execWrr, bankOperand_valid hb, byteOperand_within hr, byteOperand_within hv]

theorem execWrr_illegal {s : State} {bank reg value : Operand}
    (h : ¬ (ValidBank s.params bank ∧ Within 0 255 reg ∧ Within 0 255 value)) :
    execWrr bank reg value s = raiseError .rangeError s := by
  rw [execWrr]
  obtain hb | hr | hv : ¬ ValidBank s.params bank ∨ ¬ Within 0 255 reg ∨ ¬ Within 0 255 value := by
    simpa only [not_and_or] using h
  · rw [bankOperand_invalid hb]
  · rw [byteOperand_outside hr]
    cases bankOperand s.params bank <;> rfl
  · rw [byteOperand_outside hv]
    cases bankOperand s.params bank <;> cases byteOperand reg <;> rfl

/-- Settles O18: legal operands by what a register write emits and does, any other by the error entry. -/
theorem wrrEffect : Obligations.WrrEffect := by
  intro s bank reg value hm
  refine ⟨fun hb hr hv => ?legal, execWrr_illegal⟩
  obtain ⟨hget, hbsr, hframe⟩ :=
    regWrite_effect (.command (.wrr bank reg value)) (bank.setWidth 8) (reg.setWidth 8) (value.setWidth 8) hm
  have hemits := regWrite_emits (.command (.wrr bank reg value)) (bank.setWidth 8) (reg.setWidth 8) (value.setWidth 8) s
  exact ⟨_, execWrr_legal hb hr hv, hemits.ran 0,
    ⟨fun hu => (get_respond ..).trans (hget hu), hbsr, hframe.respond _ _⟩, hemits.af, regWrite_draws ..⟩

/-! ### A list with a select at its head meets R114 -/

/-- The list is empty or its first transaction is a bank select. -/
def SelectAtHead (p : Params) (ops : List BusOp) : Prop := ops = [] ∨ ∃ b rest, ops = selectOp p b :: rest

theorem SelectAtHead.append {p : Params} {xs ys : List BusOp} (hx : SelectAtHead p xs) (hy : SelectAtHead p ys) :
    SelectAtHead p (xs ++ ys) := by
  obtain rfl | ⟨b, rest, rfl⟩ := hx
  · exact hy
  · exact .inr ⟨b, rest ++ ys, rfl⟩

/-- A list that holds a bank select can be cut at its last one. -/
theorem exists_last_select {p : Params} {ops : List BusOp} (h : ∃ o ∈ ops, o.isSelect p) :
    ∃ pre b mid, ops = pre ++ selectOp p b :: mid ∧ ∀ m ∈ mid, ¬ m.isSelect p := by
  induction ops with
  | nil => simp at h
  | cons o ops ih =>
    by_cases hlater : ∃ o ∈ ops, o.isSelect p
    · obtain ⟨pre, b, mid, rfl, hmid⟩ := ih hlater
      exact ⟨o :: pre, b, mid, rfl, hmid⟩
    · push Not at hlater
      obtain ⟨x, hx, b, rfl⟩ := h
      obtain rfl | hx := List.mem_cons.mp hx
      · exact ⟨[], b, ops, rfl, hlater⟩
      · exact absurd ⟨b, rfl⟩ (hlater _ hx)

/-- An access at another address is not the head itself, so the head stands before it. -/
theorem SelectAtHead.selectBeforeAccess {p : Params} {ops : List BusOp} (h : SelectAtHead p ops) :
    SelectBeforeAccess p ops := by
  rintro before o after rfl hreg
  obtain hnil | ⟨b, rest, hcons⟩ := h
  · simp at hnil
  · cases before with
    | nil =>
      obtain ⟨rfl, -⟩ := List.cons.inj hcons
      exact absurd rfl hreg
    | cons x before =>
      obtain ⟨rfl, -⟩ := List.cons.inj hcons
      exact exists_last_select ⟨_, List.mem_cons_self, b, rfl⟩

/-! ### What selects first -/

/-- From `s` to `t` the emitter `e` emitted no transaction, or some of which the first is a bank select. -/
def SelectsFirst (e : Emitter) (s t : State) : Prop :=
  t.params = s.params ∧ ∃ ops, t.tr = s.tr ++ ops.map (Txn.mk e) ∧ SelectAtHead s.params ops

section
variable {e : Emitter} {s t u : State}

theorem SelectsFirst.of_silent (hp : t.params = s.params) (htr : t.tr = s.tr) : SelectsFirst e s t :=
  ⟨hp, [], by simp [htr], .inl rfl⟩

theorem SelectsFirst.refl : SelectsFirst e s s := .of_silent rfl rfl

theorem SelectsFirst.trans (h : SelectsFirst e s t) (h' : SelectsFirst e t u) : SelectsFirst e s u := by
  obtain ⟨hp, xs, htr, hx⟩ := h
  obtain ⟨hp', ys, htr', hy⟩ := h'
  exact ⟨hp'.trans hp, xs ++ ys, by simp [htr', htr], hx.append (hp ▸ hy)⟩

theorem Emits.selectsFirst {b : Byte} {rest : List BusOp} (h : Emits e s t (selectOp s.params b :: rest)) :
    SelectsFirst e s t := ⟨h.params, _, h.tr, .inr ⟨b, rest, rfl⟩⟩

/-- After a bank select any transactions may follow. -/
theorem Emits.selectsFirst_of_select {b : Byte} {ops : List BusOp} (h : Emits e (select e b s) t ops) :
    SelectsFirst e s t := ((select_emits e b s).trans h).selectsFirst

theorem SelectsFirst.foldl {α : Type} {f : State → α → State} (hf : ∀ s x, SelectsFirst e s (f s x)) (xs : List α)
    (s : State) : SelectsFirst e s (xs.foldl f s) := by
  induction xs generalizing s with
  | nil => exact .refl
  | cons x xs ih => exact (hf s x).trans (ih (f s x))

end

/-- A loop emits the transactions of its rounds, one after the other. -/
theorem Emits.foldl {e : Emitter} {α : Type} {f : State → α → State} {ops : Params → α → List BusOp}
    (hf : ∀ s x, Emits e s (f s x) (ops s.params x)) (xs : List α) (s : State) :
    Emits e s (xs.foldl f s) (xs.flatMap (ops s.params)) := by
  induction xs generalizing s with
  | nil => exact .refl e s
  | cons x xs ih =>
    have hrest := ih (f s x)
    rw [(hf s x).params] at hrest
    exact (hf s x).trans hrest

/-! ### The shared sequences -/

/-- FILL's bulk writes emit the same transactions whatever the bank and the parameters. -/
theorem fillPlane_emits (e : Emitter) (c : Byte) (s : State) : Emits e s (fillPlane e c s) (planeOps s.params c) := by
  have h := Emits.foldl (fun s row => memWrite_emits e (addrPlus s.params.colorOffset (24 * row)) (List.replicate 24 c) s)
    (ops := fun p row => [.bwr p.devAddr (addrPlus p.colorOffset (24 * row)) (List.replicate 24 c)]) (List.range 6) s
  rwa [← List.map_eq_flatMap] at h

section
variable (e : Emitter) (s : State)

theorem select_selectsFirst (b : Byte) : SelectsFirst e s (select e b s) := (select_emits e b s).selectsFirst

theorem regWrite_selectsFirst (b r v : Byte) : SelectsFirst e s (regWrite e b r v s) :=
  (regWrite_emits e b r v s).selectsFirst

theorem regRead_selectsFirst (b r : Byte) : SelectsFirst e s (regRead e b r s).2 :=
  (regRead_effect e b r s).1.selectsFirst

theorem cfgWrite_selectsFirst (n : CfgName) (v : Byte) : SelectsFirst e s (cfgWrite e n v s) :=
  regWrite_selectsFirst e s _ _ v

theorem resetSequence_selectsFirst : SelectsFirst e s (resetSequence e s) :=
  (cfgWrite_selectsFirst ..).trans (cfgWrite_selectsFirst ..)

/-- Each byte of a mask is written after a select of its own. -/
theorem fillMask_selectsFirst (b off m : Byte) : SelectsFirst e s (fillMask e b off m s) :=
  .foldl (fun s _ => regWrite_selectsFirst e s b _ m) _ s

/-- FILL selects once for its bulk writes. -/
theorem fillPlanes_selectsFirst (b : Byte) (f : Fin 8) (color : Option Byte) (blink : Option Operand) :
    SelectsFirst e s (fillPlanes e f color blink (select e b s)) := by
  have hcolor : SelectsFirst e s (fillPlanes e f color none (select e b s)) := by
    cases color with
    | none => exact select_selectsFirst e s b
    | some c => exact (fillPlane_emits e c _).selectsFirst_of_select
  cases blink with
  | none => exact hcolor
  | some _ => exact hcolor.trans (fillMask_selectsFirst ..)

theorem initFrame_selectsFirst (f : Fin 8) : SelectsFirst e s (initFrame e f s) :=
  (fillPlane_emits e 0 _).selectsFirst_of_select.trans
    ((fillMask_selectsFirst ..).trans (fillMask_selectsFirst ..))

theorem setPixelBlink_selectsFirst (f : Fin 8) (i : Fin 144) (b : Bool) :
    SelectsFirst e s (setPixelBlink e f i b s) :=
  (regRead_selectsFirst ..).trans (regWrite_selectsFirst ..)

theorem setPixel_selectsFirst (f : Fin 8) (i : Fin 144) (color : Option Byte) (blink : Option Operand) :
    SelectsFirst e s (setPixel e f i color blink s) := by
  have hcolor : SelectsFirst e s (setPixel e f i color none s) := by
    cases color with
    | none => exact .refl
    | some c => exact regWrite_selectsFirst ..
  cases blink with
  | none => exact hcolor
  | some b =>
    have hblink : ∀ u : State,
        SelectsFirst e u (if u.params.pixelBlinkImpl then setPixelBlink e f i (boolOf b) u else u) := by
      intro u
      split
      · exact setPixelBlink_selectsFirst ..
      · exact .refl
    exact hcolor.trans (hblink _)

end

/-! ### The commands -/

/-- Whatever state the outcome `r` of a command leads to, the command selected first. -/
def OutcomeSelectsFirst (e : Emitter) (s : State) (r : Result) : Prop := ∀ t, r = .next t → SelectsFirst e s t

theorem SelectsFirst.finish {e : Emitter} {s t : State} (h : SelectsFirst e s t) (v : BitVec 16) :
    OutcomeSelectsFirst e s (finish v t) := by
  rintro _ ⟨⟩
  exact h

theorem raiseError_selectsFirst {e : Emitter} {st : Status} {s : State} : OutcomeSelectsFirst e s (raiseError st s) := by
  rintro _ ⟨⟩
  exact .of_silent rfl rfl

theorem refused_selectsFirst {e : Emitter} {s : State} {r : Refusal} : OutcomeSelectsFirst e s (.refused r) := by
  rintro _ ⟨⟩

section
variable (s : State)

theorem execSelb_selectsFirst (bank : Operand) :
    OutcomeSelectsFirst (.command (.selb bank)) s (execSelb bank s) := by
  rw [execSelb]
  split
  · exact raiseError_selectsFirst
  · exact (select_selectsFirst ..).finish 0

theorem execRdr_selectsFirst (bank reg : Operand) :
    OutcomeSelectsFirst (.command (.rdr bank reg)) s (execRdr bank reg s) := by
  rw [execRdr]
  split
  · exact (regRead_selectsFirst ..).finish _
  · exact raiseError_selectsFirst

theorem execWrr_selectsFirst (bank reg value : Operand) :
    OutcomeSelectsFirst (.command (.wrr bank reg value)) s (execWrr bank reg value s) := by
  rw [execWrr]
  split
  · exact (regWrite_selectsFirst ..).finish 0
  · exact raiseError_selectsFirst

/-- Every frame of INIT is written in the same way, after the two configuration writes. -/
theorem execInit_selectsFirst : OutcomeSelectsFirst (.command .init) s (execInit s) := by
  have hmode := cfgWrite_selectsFirst (.command .init) s .mode s.params.modePicture
  have haf : SelectsFirst (.command .init) (cfgWrite (.command .init) .mode s.params.modePicture s)
      { cfgWrite (.command .init) .mode s.params.modePicture s with af := some 0 } := .of_silent rfl rfl
  have hframes := SelectsFirst.foldl (initFrame_selectsFirst (.command .init)) (List.finRange Config.NFRAME)
  exact (((hmode.trans haf).trans (cfgWrite_selectsFirst ..)).trans
    ((hframes _).trans (cfgWrite_selectsFirst ..))).finish 0

theorem execSleep_selectsFirst (enable : Operand) :
    OutcomeSelectsFirst (.command (.sleep enable)) s (execSleep enable s) := by
  rw [execSleep]
  split <;> exact (cfgWrite_selectsFirst ..).finish 0

theorem execAutoplay_selectsFirst (delayMs loops frames : Operand) :
    OutcomeSelectsFirst (.command (.autoplay delayMs loops frames)) s (execAutoplay delayMs loops frames s) := by
  rw [execAutoplay]
  split
  · exact (cfgWrite_selectsFirst ..).finish 0
  · split
    · split
      · exact refused_selectsFirst
      · exact (((cfgWrite_selectsFirst ..).trans (cfgWrite_selectsFirst ..)).trans (cfgWrite_selectsFirst ..)).finish 0
    · exact raiseError_selectsFirst

theorem execAudioplay_selectsFirst (rate gain agcEnable agcFast : Operand) :
    OutcomeSelectsFirst (.command (.audioplay rate gain agcEnable agcFast)) s
      (execAudioplay rate gain agcEnable agcFast s) := by
  rw [execAudioplay]
  split
  · exact (cfgWrite_selectsFirst ..).finish 0
  · split
    · exact (((cfgWrite_selectsFirst ..).trans (cfgWrite_selectsFirst ..)).trans (cfgWrite_selectsFirst ..)).finish 0
    · exact raiseError_selectsFirst

theorem execBlinkrate_selectsFirst (rateMs : Operand) :
    OutcomeSelectsFirst (.command (.blinkrate rateMs)) s (execBlinkrate rateMs s) := by
  rw [execBlinkrate]
  split
  · exact raiseError_selectsFirst
  · split <;> exact (cfgWrite_selectsFirst ..).finish 0

theorem setFade_selectsFirst (e : Emitter) (fadeIn fadeOut pause : Operand) :
    OutcomeSelectsFirst e s (setFade e fadeIn fadeOut pause s) := by
  rw [setFade]
  split
  · exact ((cfgWrite_selectsFirst ..).trans (cfgWrite_selectsFirst ..)).finish 0
  · exact raiseError_selectsFirst

theorem execFade_selectsFirst (fadeIn fadeOut : Option Operand) (pauseMs : Operand) :
    OutcomeSelectsFirst (.command (.fade fadeIn fadeOut pauseMs)) s (execFade fadeIn fadeOut pauseMs s) := by
  match fadeIn, fadeOut with
  | none, none => exact (cfgWrite_selectsFirst ..).finish 0
  | some i, none => exact setFade_selectsFirst s _ i i pauseMs
  | none, some o => exact setFade_selectsFirst s _ o o pauseMs
  | some i, some o => exact setFade_selectsFirst s _ i o pauseMs

theorem execXlat_selectsFirst (x y : Operand) :
    OutcomeSelectsFirst (.command (.xlat x y)) s (execXlat x y s) := by
  rw [execXlat]
  split <;> exact SelectsFirst.refl.finish _

theorem execFill_selectsFirst (frame color blink : Option Operand) :
    OutcomeSelectsFirst (.command (.fill frame color blink)) s (execFill frame color blink s) := by
  rw [execFill]
  split
  · split
    · exact refused_selectsFirst
    · exact (fillPlanes_selectsFirst ..).finish 0
  · exact raiseError_selectsFirst

theorem execWraw_selectsFirst (frame : Option Operand) (payload : List Byte) :
    OutcomeSelectsFirst (.command (.wraw frame payload)) s (execWraw frame payload s) := by
  rw [execWraw]
  split
  · exact raiseError_selectsFirst
  · split
    · exact raiseError_selectsFirst
    · split
      · exact refused_selectsFirst
      · exact (memWrite_emits _ _ payload _).selectsFirst_of_select.finish 0

theorem execSetpx_selectsFirst (x y : Operand) (color blink frame : Option Operand) :
    OutcomeSelectsFirst (.command (.setpx x y color blink frame)) s (execSetpx x y color blink frame s) := by
  rw [execSetpx]
  split
  · exact SelectsFirst.refl.finish 0
  · split
    · split
      · split
        · exact refused_selectsFirst
        · exact (setPixel_selectsFirst ..).finish 0
      · exact SelectsFirst.refl.finish 0
    · exact raiseError_selectsFirst

theorem execFrame_selectsFirst (frame : Operand) :
    OutcomeSelectsFirst (.command (.frame frame)) s (execFrame frame s) := by
  rw [execFrame]
  split
  · exact raiseError_selectsFirst
  next f _ =>
    have haf : SelectsFirst (.command (.frame frame)) s { s with af := some f } := .of_silent rfl rfl
    exact (haf.trans (cfgWrite_selectsFirst ..)).finish 0

/-- Every command selects before anything else it emits. -/
theorem exec_selectsFirst {i : Instr} (hi : i.isCommand = true) : OutcomeSelectsFirst (.command i) s (exec i s) := by
  cases i with
  | selb bank => exact execSelb_selectsFirst s bank
  | rdr bank reg => exact execRdr_selectsFirst s bank reg
  | wrr bank reg value => exact execWrr_selectsFirst s bank reg value
  | reset => exact (resetSequence_selectsFirst _ s).finish 0
  | init => exact execInit_selectsFirst s
  | sleep enable => exact execSleep_selectsFirst s enable
  | autoplay delayMs loops frames => exact execAutoplay_selectsFirst s delayMs loops frames
  | audioplay rate gain agcEnable agcFast => exact execAudioplay_selectsFirst s rate gain agcEnable agcFast
  | blinkrate rateMs => exact execBlinkrate_selectsFirst s rateMs
  | blinkq => exact (regRead_selectsFirst ..).finish _
  | fade fadeIn fadeOut pauseMs => exact execFade_selectsFirst s fadeIn fadeOut pauseMs
  | xlat x y => exact execXlat_selectsFirst s x y
  | fill frame color blink => exact execFill_selectsFirst s frame color blink
  | wraw frame payload => exact execWraw_selectsFirst s frame payload
  | setpx x y color blink frame => exact execSetpx_selectsFirst s x y color blink frame
  | frame frame => exact execFrame_selectsFirst s frame
  | bwr dev reg data => exact absurd hi Bool.false_ne_true
  | brd dev reg n => exact absurd hi Bool.false_ne_true

end

/-- Settles O46: every command selects first, and in such a list the last select before an access is the one R114 asks
for. -/
theorem selectPrecedesAccess : Obligations.SelectPrecedesAccess := by
  intro i s t hi h
  obtain ⟨-, ops, htr, hhead⟩ := exec_selectsFirst s hi t h
  exact ⟨ops, htr, hhead.selectBeforeAccess, hhead⟩

end Sys2Proof.Machine
end

section
/-! PROOFS of the statements about lifecycle and mode (42_lifecycle_mode.md). RESET, SLEEP, AUTOPLAY, AUDIOPLAY, BLINKRATE
and FADE each make a short list of configuration writes: `State.cfgWritten` is the state such a list leaves, an equation per
command and case names its list, and what a list emits and changes is proved once. -/

namespace Sys2Proof.Machine

/-! ### Lists of configuration writes -/

/-- The configuration bank after the writes `ws`, in order. -/
def CfgBank.setAll (c : CfgBank) (ws : List (CfgName × Byte)) : CfgBank := ws.foldl (fun c w => c.set w.1 w.2) c

/-- The transactions of the configuration writes `ws`, in order. -/
def cfgOps (p : Params) (ws : List (CfgName × Byte)) : List BusOp :=
  ws.flatMap fun w => cfgWriteOps p (w.1.offset p) w.2

/-- The state after `e` made the configuration writes `ws`, at least one. -/
def State.cfgWritten (s : State) (e : Emitter) (ws : List (CfgName × Byte)) : State :=
  { s with bsr := s.params.configBank, cfg := s.cfg.setAll ws, ptr := none,
           tr := s.tr ++ (cfgOps s.params ws).map (Txn.mk e) }

@[simp] theorem cfgWritten_bsr (s : State) (e ws) : (s.cfgWritten e ws).bsr = s.params.configBank := rfl
@[simp] theorem cfgWritten_draws (s : State) (e ws) : (s.cfgWritten e ws).draws = s.draws := rfl

theorem cfgWrite_eq_cfgWritten {s : State} (hp : s.params.Ok) (e : Emitter) (n : CfgName) (v : Byte) :
    cfgWrite e n v s = s.cfgWritten e [(n, v)] := by
  rw [cfgWrite_eq e n v hp, State.cfgWritten, cfgOps, List.flatMap_singleton]
  rfl

/-- One more write joins the list. -/
theorem cfgWrite_cfgWritten {s : State} (hp : s.params.Ok) (e : Emitter) (ws : List (CfgName × Byte)) (n : CfgName)
    (v : Byte) : cfgWrite e n v (s.cfgWritten e ws) = s.cfgWritten e (ws ++ [(n, v)]) := by
  rw [cfgWrite_eq e n v (s := s.cfgWritten e ws) hp]
  simp [State.cfgWritten, cfgOps, CfgBank.setAll]

theorem cfgOps_ne_nil (p : Params) {ws : List (CfgName × Byte)} (h : ws ≠ []) : cfgOps p ws ≠ [] := by
  obtain ⟨w, ws, rfl⟩ := List.exists_cons_of_ne_nil h
  simp [cfgOps, cfgWriteOps, regWriteOps]

theorem cfgWritten_emits (s : State) (e : Emitter) {ws : List (CfgName × Byte)} (h : ws ≠ []) :
    Emits e s (s.cfgWritten e ws) (cfgOps s.params ws) := by
  constructor <;> simp [State.cfgWritten, cfgOps_ne_nil _ h]

/-- A register no write names keeps its value. -/
theorem CfgBank.get_setAll_other (c : CfgBank) {ws : List (CfgName × Byte)} {n : CfgName} (h : ∀ w ∈ ws, n ≠ w.1) :
    (c.setAll ws).get n = c.get n := by
  induction ws generalizing c with
  | nil => rfl
  | cons w ws ih =>
    obtain ⟨hw, hws⟩ := List.forall_mem_cons.mp h
    exact (ih (c.set w.1 w.2) hws).trans (c.get_set_other hw w.2)

/-- Only BSR and the registers the writes name can differ. -/
theorem cfgWritten_frame (s : State) (e : Emitter) {ws : List (CfgName × Byte)} {touched : Loc → Prop}
    (hb : touched .bsr) (hw : ∀ w ∈ ws, touched (.cfg w.1)) : DevFrame touched s (s.cfgWritten e ws) := by
  intro l hl
  cases l with
  | bsr => exact absurd hb hl
  | cfg n =>
    have hn : ∀ w ∈ ws, n ≠ w.1 := fun w hmem hnw => hl (hnw ▸ hw w hmem)
    exact congrArg some (s.cfg.get_setAll_other hn)
  | en f k => rfl
  | bl f k => rfl
  | int f i => rfl
  | unmapped => rfl

/-- A command that makes the writes `ws` and answers OK. -/
theorem cfgWritten_ran (s : State) (i : Instr) {ws : List (CfgName × Byte)} (h : ws ≠ []) :
    Ran i s (respond .ok 0 (s.cfgWritten (.command i) ws)) 0 (cfgOps s.params ws) := (cfgWritten_emits s _ h).ran 0

/-- What such a command leaves of the device and of AF. -/
theorem cfgWritten_leaves (s : State) (e : Emitter) {ws : List (CfgName × Byte)} {touched : Loc → Prop}
    (hb : touched .bsr) (hw : ∀ w ∈ ws, touched (.cfg w.1)) :
    (respond .ok 0 (s.cfgWritten e ws)).bsr = s.params.configBank ∧
    DevFrame touched s (respond .ok 0 (s.cfgWritten e ws)) ∧ KeepsLatch s (respond .ok 0 (s.cfgWritten e ws)) :=
  ⟨rfl, (cfgWritten_frame s e hb hw).respond .ok 0, rfl, rfl⟩

/-! ### RESET and SLEEP -/

theorem execReset_eq {s : State} (hp : s.params.Ok) :
    execReset s = finish 0 (s.cfgWritten (.command .reset)
      [(.shutdown, s.params.shutdownOn), (.shutdown, s.params.shutdownOff)]) := by
  rw [execReset, resetSequence_eq _ hp]
  rfl

/-- Settles O20: RESET is two writes of the shutdown register. -/
theorem resetEffect : Obligations.ResetEffect := by
  intro s hs
  exact ⟨_, execReset_eq hs.params, cfgWritten_ran s .reset (by simp), rfl, rfl,
    (cfgWritten_leaves s _ (by simp) (by simp)).2⟩

/-- The byte SLEEP writes: the operand's truth (R122). -/
def sleepByte (p : Params) (enable : Operand) : Byte := if enable = 0 then p.shutdownOff else p.shutdownOn

theorem execSleep_eq {s : State} (hp : s.params.Ok) (enable : Operand) :
    execSleep enable s =
      finish 0 (s.cfgWritten (.command (.sleep enable)) [(.shutdown, sleepByte s.params enable)]) := by
  rw [execSleep, sleepByte, boolOf]
  by_cases h : enable = 0
  · rw [if_neg (by simp [h]), if_pos h, cfgWrite_eq_cfgWritten hp]
  · rw [if_pos (by simpa using h), if_neg h, cfgWrite_eq_cfgWritten hp]

/-- Settles O22: SLEEP is one write of the shutdown register, and a second one writes the same byte. -/
theorem sleepEffect : Obligations.SleepEffect := by
  intro s enable hs
  obtain ⟨hbsr, hframe, hlatch⟩ := cfgWritten_leaves s (.command (.sleep enable))
    (ws := [(.shutdown, sleepByte s.params enable)])
    (touched := fun l => l = .bsr ∨ l = .cfg .shutdown) (by simp) (by simp)
  refine ⟨_, execSleep_eq hs.params enable, ⟨cfgWritten_ran s _ (by simp), rfl⟩, hbsr, hframe, hlatch, ?again⟩
  case again => exact ⟨_, execSleep_eq (by exact hs.params) enable, State.get_congr rfl rfl rfl⟩

/-! ### Packed bytes -/

/-- Two fields of four bits in one byte. -/
theorem nibbles_toNat {hi lo : Byte} (hhi : hi.toNat < 16) (hlo : lo.toNat < 16) :
    ((hi <<< 4) ||| lo).toNat = 16 * hi.toNat + lo.toNat := by
  have hshift : (hi <<< 4).toNat = 2 ^ 4 * hi.toNat := by
    simp only [BitVec.toNat_shiftLeft, Nat.shiftLeft_eq]
    omega
  rw [BitVec.toNat_or, hshift, ← Nat.two_pow_add_eq_or_of_lt hlo]

/-- A small operand as a byte keeps its value. -/
theorem setWidth_byte_toNat {v : Operand} {hi : Int} (h : Within 0 hi v) (hhi : hi ≤ 255) :
    (v.setWidth 8).toNat = v.toNat := by
  obtain ⟨h0, h1⟩ := h
  rw [toInt_of_nonneg h0] at h1
  rw [BitVec.toNat_setWidth]
  omega

/-! ### Scaled operands -/

/-- `v div unit` lies in `[lo, hi]` exactly when `v` lies between `lo` units and the last value before `hi + 1` units. -/
theorem scaled_iff_within {unit : Nat} (hunit : 0 < unit) (lo hi : Int) (v : Operand) :
    (lo ≤ v.toInt / unit ∧ v.toInt / unit ≤ hi) ↔ Within (lo * unit) (hi * unit + (unit - 1)) v := by
  have hpos : (0 : Int) < unit := by exact_mod_cast hunit
  have hupper : v.toInt / unit ≤ hi ↔ v.toInt < (hi + 1) * unit := by
    rw [← Int.ediv_lt_iff_lt_mul hpos, Int.lt_add_one_iff]
  rw [Within, Int.le_ediv_iff_mul_le hpos, hupper, add_mul]
  omega

theorem scaledOperand_legal {unit : Nat} {lo hi : Int} {v : Operand} (hunit : 0 < unit) (hlo : 0 ≤ lo)
    (h : Within (lo * unit) (hi * unit + (unit - 1)) v) : scaledOperand unit lo hi v = some (v.toNat / unit) := by
  have hnonneg : 0 ≤ v.toInt := (mul_nonneg hlo unit.cast_nonneg).trans h.1
  rw [scaledOperand_within ((scaled_iff_within hunit lo hi v).mpr h), toInt_of_nonneg hnonneg, ← Int.natCast_ediv,
    Int.toNat_natCast]

theorem scaledOperand_illegal {unit : Nat} {lo hi : Int} {v : Operand} (hunit : 0 < unit)
    (h : ¬ Within (lo * unit) (hi * unit + (unit - 1)) v) : scaledOperand unit lo hi v = none :=
  scaledOperand_outside (mt (scaled_iff_within hunit lo hi v).mp h)

/-! ### AUTOPLAY -/

/-- An operand bounded below by a positive number is not zero. -/
theorem ne_zero_of_within {v : Operand} {lo hi : Int} (h : Within lo hi v) (hlo : 0 < lo) : v ≠ 0 := by
  rintro rfl
  exact absurd h.1 (by simpa using hlo)

/-- AUTOPLAY's zero shortcut and AUDIOPLAY's make one write (R123, R124). -/
abbrev pictureWrites (p : Params) : List (CfgName × Byte) := [(.mode, p.modePicture)]

/-- The writes of AUTOPLAY with active frame `f` (R123). -/
def autoplayWrites (p : Params) (delayMs loops frames : Operand) (f : Fin 8) : List (CfgName × Byte) :=
  [(.autoplay1, (loops.setWidth 8 <<< 4) ||| frames.setWidth 8), (.autoplay2, BitVec.ofNat 8 (delayMs.toNat / 11 % 64)),
   (.mode, p.modeAutoplay ||| frameBank f)]

theorem scaledOperand_delay {v : Operand} (h : Within 11 714 v) :
    scaledOperand Config.AP_UNIT 1 64 v = some (v.toNat / 11) := scaledOperand_legal (unit := 11) (by decide) (by decide) h

theorem scaledOperand_delay_outside {v : Operand} (h : ¬ Within 11 714 v) :
    scaledOperand Config.AP_UNIT 1 64 v = none := scaledOperand_illegal (unit := 11) (by decide) h

section
variable {s : State} {delayMs loops frames : Operand}

theorem execAutoplay_zero (hp : s.params.Ok) (h : delayMs = 0) :
    execAutoplay delayMs loops frames s =
      finish 0 (s.cfgWritten (.command (.autoplay delayMs loops frames)) (pictureWrites s.params)) := by
  rw [execAutoplay, if_pos h, cfgWrite_eq_cfgWritten hp]

theorem execAutoplay_legal (hp : s.params.Ok) (hd : Within 11 714 delayMs) (hl : Within 0 7 loops)
    (hf : Within 0 7 frames) {f : Fin 8} (haf : s.af = some f) :
    execAutoplay delayMs loops frames s = finish 0 (s.cfgWritten (.command (.autoplay delayMs loops frames))
      (autoplayWrites s.params delayMs loops frames f)) := by
  rw [execAutoplay, if_neg (ne_zero_of_within hd (by omega)), countOperand_within hl, countOperand_within hf,
    scaledOperand_delay hd]
  simp only [haf, cfgWrite_eq_cfgWritten hp, cfgWrite_cfgWritten hp]
  rfl

theorem execAutoplay_unset (hd : Within 11 714 delayMs) (hl : Within 0 7 loops) (hf : Within 0 7 frames)
    (haf : s.af = none) : execAutoplay delayMs loops frames s = .refused .activeFrameUnset := by
  rw [execAutoplay, if_neg (ne_zero_of_within hd (by omega)), countOperand_within hl, countOperand_within hf,
    scaledOperand_delay hd]
  simp only [haf]

theorem execAutoplay_illegal (hd : delayMs ≠ 0) (h : ¬ (Within 11 714 delayMs ∧ Within 0 7 loops ∧ Within 0 7 frames)) :
    execAutoplay delayMs loops frames s = raiseError .rangeError s := by
  rw [execAutoplay, if_neg hd]
  obtain hd | hl | hf : ¬ Within 11 714 delayMs ∨ ¬ Within 0 7 loops ∨ ¬ Within 0 7 frames := by
    simpa only [not_and_or] using h
  · rw [scaledOperand_delay_outside hd]
    cases countOperand loops <;> cases countOperand frames <;> rfl
  · rw [countOperand_outside hl]
  · rw [countOperand_outside hf]
    cases countOperand loops <;> rfl

end

/-- The counts share AUTOPLAY's first register. -/
theorem autoplay1_toNat {loops frames : Operand} (hl : Within 0 7 loops) (hf : Within 0 7 frames) :
    ((loops.setWidth 8 <<< 4) ||| frames.setWidth 8 : Byte).toNat = 16 * loops.toNat + frames.toNat := by
  have hl' := toInt_of_nonneg hl.1
  have hf' := toInt_of_nonneg hf.1
  have hl7 := hl.2
  have hf7 := hf.2
  have hlb := setWidth_byte_toNat hl (by omega)
  have hfb := setWidth_byte_toNat hf (by omega)
  rw [nibbles_toNat (by omega) (by omega), hlb, hfb]

/-- Settles O23: an equation for each of the three cases, and the values of the three registers of the legal one. -/
theorem autoplayEffect : Obligations.AutoplayEffect := by
  intro s delayMs loops frames hs
  refine ⟨fun hd => ?zero, fun hd hl hf f haf => ?legal, execAutoplay_illegal⟩
  case zero =>
    exact ⟨_, execAutoplay_zero hs.params hd, cfgWritten_ran s _ (by simp), rfl, cfgWritten_leaves s _ (by simp) (by simp)⟩
  case legal =>
    refine ⟨_, execAutoplay_legal hs.params hd hl hf haf, cfgWritten_ran s _ (by simp [autoplayWrites]),
      autoplay1_toNat hl hf, ?delay, or_low_three hs.params.autoplay_low f,
      cfgWritten_leaves s _ (by simp) (by simp [autoplayWrites])⟩
    case delay =>
      show (BitVec.ofNat 8 (delayMs.toNat / 11 % 64)).toNat = _
      rw [BitVec.toNat_ofNat]
      omega

/-! ### AUDIOPLAY -/

/-- The writes of AUDIOPLAY (R124). -/
def audioplayWrites (p : Params) (rate gain agcEnable agcFast : Operand) : List (CfgName × Byte) :=
  [(.adc, BitVec.ofNat 8 (rate.toNat / 46 % 256)),
   (.gain, gainByte p (boolOf agcEnable) (boolOf agcFast) (gain.toNat / 3)), (.mode, p.modeAudioplay)]

theorem scaledOperand_rate {v : Operand} (h : Within 46 11821 v) :
    scaledOperand Config.SR_UNIT 1 256 v = some (v.toNat / 46) := scaledOperand_legal (unit := 46) (by decide) (by decide) h

theorem scaledOperand_rate_outside {v : Operand} (h : ¬ Within 46 11821 v) :
    scaledOperand Config.SR_UNIT 1 256 v = none := scaledOperand_illegal (unit := 46) (by decide) h

theorem scaledOperand_gain {v : Operand} (h : Within 0 23 v) :
    scaledOperand Config.GAIN_UNIT 0 7 v = some (v.toNat / 3) := scaledOperand_legal (unit := 3) (by decide) (by decide) h

theorem scaledOperand_gain_outside {v : Operand} (h : ¬ Within 0 23 v) :
    scaledOperand Config.GAIN_UNIT 0 7 v = none := scaledOperand_illegal (unit := 3) (by decide) h

section
variable {s : State} {rate gain agcEnable agcFast : Operand}

theorem execAudioplay_zero (hp : s.params.Ok) (h : rate = 0) :
    execAudioplay rate gain agcEnable agcFast s =
      finish 0 (s.cfgWritten (.command (.audioplay rate gain agcEnable agcFast)) (pictureWrites s.params)) := by
  rw [execAudioplay, if_pos h, cfgWrite_eq_cfgWritten hp]

theorem execAudioplay_legal (hp : s.params.Ok) (hr : Within 46 11821 rate) (hg : Within 0 23 gain) :
    execAudioplay rate gain agcEnable agcFast s =
      finish 0 (s.cfgWritten (.command (.audioplay rate gain agcEnable agcFast))
        (audioplayWrites s.params rate gain agcEnable agcFast)) := by
  rw [execAudioplay, if_neg (ne_zero_of_within hr (by omega)), scaledOperand_rate hr, scaledOperand_gain hg]
  simp only [cfgWrite_eq_cfgWritten hp, cfgWrite_cfgWritten hp]
  rfl

theorem execAudioplay_illegal (hr : rate ≠ 0) (h : ¬ (Within 46 11821 rate ∧ Within 0 23 gain)) :
    execAudioplay rate gain agcEnable agcFast s = raiseError .rangeError s := by
  rw [execAudioplay, if_neg hr]
  obtain hr | hg := not_and_or.mp h
  · rw [scaledOperand_rate_outside hr]
  · rw [scaledOperand_gain_outside hg]
    cases scaledOperand Config.SR_UNIT 1 256 rate <;> rfl

end

/-- Two bits at different positions are added, and at positions from 3 on they leave the low three bits clear. -/
theorem twoBits_toNat (b c : Bool) {i j : Fin 8} (hij : i ≠ j) (hi : 3 ≤ i.val) (hj : 3 ≤ j.val) :
    let a : Byte := ((if b then (1 : Byte) else 0) <<< i.val) ||| ((if c then (1 : Byte) else 0) <<< j.val)
    a.toNat = (if b then 2 ^ i.val else 0) + (if c then 2 ^ j.val else 0) ∧ a &&& 7 = 0 := by
  revert b c i j
  decide

theorem gainByte_toNat {p : Params} (hp : p.Ok) (b c : Bool) {g : Nat} (hg : g < 8) :
    (gainByte p b c g).toNat =
      (if b then 2 ^ p.agcEnBit.val else 0) + (if c then 2 ^ p.agcFastBit.val else 0) + g := by
  obtain ⟨hsum, hlow⟩ := twoBits_toNat b c hp.agc_distinct hp.agcEn_high hp.agcFast_high
  rw [gainByte, or_low_three hlow ⟨g, hg⟩, hsum]

/-- Settles O24: an equation for each of the three cases, and the values of the registers of the legal one. -/
theorem audioplayEffect : Obligations.AudioplayEffect := by
  intro s rate gain agcEnable agcFast hs
  refine ⟨fun hr => ?zero, fun hr hg => ?legal, execAudioplay_illegal⟩
  case zero =>
    exact ⟨_, execAudioplay_zero hs.params hr, cfgWritten_ran s _ (by simp), rfl, cfgWritten_leaves s _ (by simp) (by simp)⟩
  case legal =>
    refine ⟨_, execAudioplay_legal hs.params hr hg, cfgWritten_ran s _ (by simp [audioplayWrites]), ?adc, ?gain, rfl,
      cfgWritten_leaves s _ (by simp) (by simp [audioplayWrites])⟩
    case adc =>
      show (BitVec.ofNat 8 (rate.toNat / 46 % 256)).toNat = _
      rw [BitVec.toNat_ofNat]
      omega
    case gain =>
      have hg8 : gain.toNat / 3 < 8 := by
        have hnat := toInt_of_nonneg hg.1
        have hhi := hg.2
        omega
      refine (gainByte_toNat hs.params (boolOf agcEnable) (boolOf agcFast) hg8).trans ?_
      simp [boolOf]

/-! ### "Mode last" (R129) -/

theorem lastResponse_respond (st : Status) (v : BitVec 16) (s : State) :
    (respond st v s).lastResponse = some ⟨st, v⟩ := by simp [State.lastResponse]

/-- A list of configuration writes that ends with its only write of the mode register. -/
theorem modeLast_cfgOps {p : Params} (hp : p.Ok) {ws : List (CfgName × Byte)} (hws : ∀ w ∈ ws, w.1 ≠ .mode) (v : Byte) :
    ModeLast p (ws.map (·.1.offset p)) (cfgOps p (ws ++ [(.mode, v)])) := by
  have hselect : (selectOp p p.configBank).reg ≠ p.regMode := (offset_ne_bank hp .mode).symm
  refine ⟨cfgOps p ws ++ [selectOp p p.configBank], v, ?split, ?earlier, ?parameters⟩
  case split => simp [cfgOps, cfgWriteOps, regWriteOps, CfgName.offset]
  case earlier =>
    intro o ho
    simp only [cfgOps, cfgWriteOps, regWriteOps, List.mem_append, List.mem_flatMap, List.mem_cons, List.not_mem_nil,
      or_false] at ho
    obtain ⟨w, hw, rfl | rfl⟩ | rfl := ho
    · exact hselect
    · exact fun h => hws w hw (offset_inj hp h)
    · exact hselect
  case parameters =>
    intro a ha
    obtain ⟨w, hw, rfl⟩ := List.mem_map.mp ha
    refine ⟨w.2, List.mem_append_left _ (List.mem_flatMap.mpr ⟨w, hw, ?_⟩)⟩
    simp [cfgWriteOps, regWriteOps]

/-- What R129 asks of a step of command `i` from `s` to `t`. -/
def WritesModeLast (i : Instr) (parameters : List Byte) (s t : State) : Prop :=
  ∃ ops : List BusOp, t.tr = s.tr ++ ops.map (Txn.mk (.command i)) ∧
    if t.lastResponse = some ⟨.ok, 0⟩ then ModeLast s.params parameters ops else ops = []

theorem writesModeLast_cfgWritten {s : State} (hp : s.params.Ok) (i : Instr) {ws : List (CfgName × Byte)}
    (hws : ∀ w ∈ ws, w.1 ≠ .mode) (v : Byte) :
    WritesModeLast i (ws.map (·.1.offset s.params)) s
      (respond .ok 0 (s.cfgWritten (.command i) (ws ++ [(.mode, v)]))) := by
  refine ⟨cfgOps s.params (ws ++ [(.mode, v)]), rfl, ?_⟩
  rw [if_pos (lastResponse_respond ..)]
  exact modeLast_cfgOps hp hws v

/-- An error answers no OK and emits nothing. -/
theorem writesModeLast_error (i : Instr) (parameters : List Byte) (s : State) :
    WritesModeLast i parameters s (respond .rangeError 0 s) := by
  refine ⟨[], by simp, ?_⟩
  rw [if_neg (by simp [lastResponse_respond])]

theorem execAutoplay_writesModeLast {s t : State} (hp : s.params.Ok) {d l n : Operand}
    (h : execAutoplay d l n s = .next t) :
    WritesModeLast (.autoplay d l n) (if d = 0 then [] else [s.params.regAutoplay1, s.params.regAutoplay2]) s t := by
  by_cases hd : d = 0
  · rw [execAutoplay_zero hp hd] at h
    cases h
    rw [if_pos hd]
    exact writesModeLast_cfgWritten hp _ (ws := []) (by simp) _
  · rw [if_neg hd]
    by_cases hlegal : Within 11 714 d ∧ Within 0 7 l ∧ Within 0 7 n
    · obtain ⟨hdelay, hloops, hframes⟩ := hlegal
      cases haf : s.af with
      | none =>
        rw [execAutoplay_unset hdelay hloops hframes haf] at h
        cases h
      | some f =>
        rw [execAutoplay_legal hp hdelay hloops hframes haf] at h
        cases h
        exact writesModeLast_cfgWritten hp _ (ws := [(.autoplay1, _), (.autoplay2, _)]) (by simp) _
    · rw [execAutoplay_illegal hd hlegal] at h
      cases h
      exact writesModeLast_error ..

theorem execAudioplay_writesModeLast {s t : State} (hp : s.params.Ok) {r g e q : Operand}
    (h : execAudioplay r g e q s = .next t) :
    WritesModeLast (.audioplay r g e q) (if r = 0 then [] else [s.params.regAdc, s.params.regGain]) s t := by
  by_cases hr : r = 0
  · rw [execAudioplay_zero hp hr] at h
    cases h
    rw [if_pos hr]
    exact writesModeLast_cfgWritten hp _ (ws := []) (by simp) _
  · rw [if_neg hr]
    by_cases hlegal : Within 46 11821 r ∧ Within 0 23 g
    · rw [execAudioplay_legal hp hlegal.1 hlegal.2] at h
      cases h
      exact writesModeLast_cfgWritten hp _ (ws := [(.adc, _), (.gain, _)]) (by simp) _
    · rw [execAudioplay_illegal hr hlegal] at h
      cases h
      exact writesModeLast_error ..

/-- Settles O51: the lists of both commands end with their only write of the mode register, and an error emits nothing. -/
theorem modeWrittenLast : Obligations.ModeWrittenLast :=
  ⟨fun _ _ _ _ _ hs h => execAutoplay_writesModeLast hs.params h,
   fun _ _ _ _ _ _ hs h => execAudioplay_writesModeLast hs.params h⟩

/-! ### BLINKRATE and BLINKQ -/

/-- The byte BLINKRATE writes for a rate of at least 0 (R125). -/
def rateByte (p : Params) (rateMs : Operand) : Byte := if rateMs = 0 then 0x00 else blinkByte p rateMs.toNat

theorem execBlinkrate_nonneg {s : State} (hp : s.params.Ok) {rateMs : Operand} (h : 0 ≤ rateMs.toInt) :
    execBlinkrate rateMs s =
      finish 0 (s.cfgWritten (.command (.blinkrate rateMs)) [(.blink, rateByte s.params rateMs)]) := by
  rw [execBlinkrate, if_neg (by omega), rateByte]
  simp only [cfgWrite_eq_cfgWritten hp]
  split <;> rfl

theorem execBlinkrate_negative {s : State} {rateMs : Operand} (h : rateMs.toInt < 0) :
    execBlinkrate rateMs s = raiseError .rangeError s := by
  rw [execBlinkrate, if_pos h]

theorem blinkByte_toNat {p : Params} (hp : p.Ok) (n : Nat) :
    (blinkByte p n).toNat = n / 270 % 8 + p.blinkEn.toNat := by
  rw [blinkByte, and_seven, BitVec.or_comm, or_low_three hp.blinkEn_high ⟨n / 270 % 8, by omega⟩, Nat.add_comm]

theorem rateByte_toNat {p : Params} (hp : p.Ok) (rateMs : Operand) :
    (rateByte p rateMs).toNat = if rateMs = 0 then 0 else rateMs.toNat / 270 % 8 + p.blinkEn.toNat := by
  rw [rateByte]
  split
  · rfl
  · exact blinkByte_toNat hp rateMs.toNat

/-- Settles O25: one write of the blink register, or the error entry. -/
theorem blinkrateEffect : Obligations.BlinkrateEffect := by
  intro s rateMs hs
  exact ⟨fun h => ⟨_, execBlinkrate_nonneg hs.params h, cfgWritten_ran s _ (by simp), rateByte_toNat hs.params rateMs,
    cfgWritten_leaves s _ (by simp) (by simp)⟩, execBlinkrate_negative⟩

/-- Reading the blink register gives what it holds. -/
theorem regRead_blink {s : State} (hp : s.params.Ok) (e : Emitter) :
    (regRead e s.params.configBank s.params.regBlink s).1 = s.cfg.blink ∧
    (regRead e s.params.configBank s.params.regBlink s).2.draws = s.draws := by
  obtain ⟨-, -, hframe, hvalue⟩ := regRead_effect e s.params.configBank s.params.regBlink s
  have hr : resolve s.params s.params.configBank s.params.regBlink = .cfg .blink := resolve_cfg hp .blink
  rw [hr, hframe (.cfg .blink) (by simp)] at hvalue
  exact hvalue

theorem and_seven_toNat (b : Byte) : (b &&& 0x07).toNat = b.toNat % 8 := by
  rw [BitVec.toNat_and]
  exact Nat.and_two_pow_sub_one_eq_mod b.toNat 3

/-- Settles O26: BLINKQ is one register read. -/
theorem blinkqEffect : Obligations.BlinkqEffect := by
  intro s hs
  obtain ⟨hemits, hbsr, hframe, -⟩ :=
    regRead_effect (.command .blinkq) s.params.configBank s.params.regBlink s
  obtain ⟨hvalue, hdraws⟩ := regRead_blink hs.params (.command .blinkq)
  rw [hvalue] at hemits
  have hexec : execBlinkq s = finish (BitVec.ofNat 16 (s.cfg.blink.toNat % 8 * 270))
      (regRead (.command .blinkq) s.params.configBank s.params.regBlink s).2 := by
    rw [← and_seven_toNat, ← hvalue]
    rfl
  exact ⟨_, hexec, hemits.ran _, hbsr, hframe.respond _ _, hemits.af, hdraws⟩

/-! ### FADE -/

/-- The model's logarithm is the exponent R127 names. -/
theorem ilog26_eq {t e : Nat} (h : IsLog26 t e) : ilog26 t = e := by
  obtain ⟨hlo, hhi⟩ := h
  norm_cast at hlo hhi
  have hpos : 0 < 2 ^ e := Nat.two_pow_pos e
  have hne : t / 26 ≠ 0 := by omega
  rw [ilog26, Nat.log2_eq_iff hne]
  omega

theorem fadeOperand_log {v : Operand} {e : Nat} (h : IsLog26 v.toInt e) (he : e ≤ 7) :
    fadeOperand v = some (BitVec.ofNat 8 e) := by
  have hpos : (0 : Int) < 2 ^ e := by positivity
  have hlo : 26 ≤ v.toInt := by have := h.1; omega
  have hlog : ilog26 v.toInt.toNat = e := ilog26_eq (by rwa [Int.toNat_of_nonneg (by omega)])
  rw [fadeOperand, if_neg (by omega), hlog, if_neg (by omega)]

theorem fadeOperand_outside {v : Operand} (h : ¬ Within 26 6655 v) : fadeOperand v = none := by
  rw [Within] at h
  rw [fadeOperand]
  split
  · rfl
  · have hne : v.toInt.toNat / 26 ≠ 0 := by omega
    have hlog : 8 ≤ ilog26 v.toInt.toNat := (Nat.le_log2 hne).mpr (by omega)
    rw [if_pos (by omega)]

/-- The two fades name `i` and `o`: each is present, or mirrored from the other (R127). -/
def NamesFades (fadeIn fadeOut : Option Operand) (i o : Operand) : Prop :=
  fadeIn = some i ∧ fadeOut = some o ∨ fadeIn = some i ∧ fadeOut = none ∧ o = i ∨ fadeIn = none ∧ fadeOut = some o ∧ i = o

theorem execFade_names {fadeIn fadeOut : Option Operand} {i o : Operand} (h : NamesFades fadeIn fadeOut i o)
    (pause : Operand) (s : State) :
    execFade fadeIn fadeOut pause s = setFade (.command (.fade fadeIn fadeOut pause)) i o pause s := by
  obtain ⟨rfl, rfl⟩ | ⟨rfl, rfl, rfl⟩ | ⟨rfl, rfl, rfl⟩ := h
  · rfl
  · rfl
  · rfl

/-- The writes of FADE for three exponents (R127). -/
def fadeWrites (p : Params) (fi fo pe : Nat) : List (CfgName × Byte) :=
  [(.breath1, (BitVec.ofNat 8 fo <<< 4) ||| BitVec.ofNat 8 fi), (.breath2, p.breathEn ||| BitVec.ofNat 8 pe)]

section
variable {s : State} {i o pause : Operand}

theorem setFade_legal (hp : s.params.Ok) (e : Emitter) {fi fo pe : Nat} (hi : IsLog26 i.toInt fi)
    (ho : IsLog26 o.toInt fo) (hpause : IsLog26 pause.toInt pe) (hfi : fi ≤ 7) (hfo : fo ≤ 7) (hpe : pe ≤ 7) :
    setFade e i o pause s = finish 0 (s.cfgWritten e (fadeWrites s.params fi fo pe)) := by
  rw [setFade, fadeOperand_log hi hfi, fadeOperand_log ho hfo, fadeOperand_log hpause hpe]
  simp only [cfgWrite_eq_cfgWritten hp, cfgWrite_cfgWritten hp]
  rfl

theorem setFade_illegal (e : Emitter) (h : ¬ (Within 26 6655 i ∧ Within 26 6655 o ∧ Within 26 6655 pause)) :
    setFade e i o pause s = raiseError .rangeError s := by
  rw [setFade]
  obtain hi | ho | hp : ¬ Within 26 6655 i ∨ ¬ Within 26 6655 o ∨ ¬ Within 26 6655 pause := by
    simpa only [not_and_or] using h
  · rw [fadeOperand_outside hi]
  · rw [fadeOperand_outside ho]
    cases fadeOperand i <;> rfl
  · rw [fadeOperand_outside hp]
    cases fadeOperand i <;> cases fadeOperand o <;> rfl

end

theorem breath1_toNat {fi fo : Nat} (hfi : fi ≤ 7) (hfo : fo ≤ 7) :
    ((BitVec.ofNat 8 fo <<< 4) ||| BitVec.ofNat 8 fi : Byte).toNat = 16 * fo + fi := by
  have hi : (BitVec.ofNat 8 fi).toNat = fi := by rw [BitVec.toNat_ofNat]; omega
  have ho : (BitVec.ofNat 8 fo).toNat = fo := by rw [BitVec.toNat_ofNat]; omega
  rw [nibbles_toNat (by omega) (by omega), hi, ho]

/-- Settles O27: fade off is one write; otherwise three exponents give two writes, or the error entry is taken. -/
theorem fadeEffect : Obligations.FadeEffect := by
  intro s fadeIn fadeOut pause hs
  refine ⟨?off, fun i o hnames => ⟨fun fi fo pe hi ho hpause hfi hfo hpe => ?legal, fun h => ?illegal⟩⟩
  case off =>
    rintro rfl rfl
    exact ⟨_, congrArg (finish 0) (cfgWrite_eq_cfgWritten hs.params _ .breath2 0x00), cfgWritten_ran s _ (by simp), rfl,
      cfgWritten_leaves s _ (by simp) (by simp)⟩
  case legal =>
    exact ⟨_, (execFade_names hnames pause s).trans (setFade_legal hs.params _ hi ho hpause hfi hfo hpe),
      cfgWritten_ran s _ (by simp [fadeWrites]), breath1_toNat hfi hfo, rfl,
      cfgWritten_leaves s _ (by simp) (by simp [fadeWrites])⟩
  case illegal => exact (execFade_names hnames pause s).trans (setFade_illegal _ h)

/-! ### INIT -/

/-- INIT after its first two writes: AF is set between them, which neither write notices (R121). -/
def initStarted (s : State) : State :=
  { s with af := some 0 }.cfgWritten (.command .init) [(.mode, s.params.modePicture), (.frame, 0x00)]

/-- INIT after its eight frames. -/
def initFramesDone (s : State) : State :=
  (List.finRange 8).foldl (fun s f => initFrame (.command .init) f s) (initStarted s)

section
variable {s : State}

theorem initStarted_sound (hs : s.Sound) : (initStarted s).Sound := ⟨hs.params, hs.memory⟩

/-- From the state with AF set, INIT emits its first two writes and the eight frames. -/
theorem initFramesDone_emits (hs : s.Sound) :
    Emits (.command .init) { s with af := some 0 } (initFramesDone s)
      (cfgWriteOps s.params s.params.regMode s.params.modePicture ++ cfgWriteOps s.params s.params.regFrame 0x00 ++
        (List.finRange 8).flatMap (initFrameOps s.params)) :=
  (cfgWritten_emits { s with af := some 0 } (.command .init) (by simp)).trans
    (initFrames_effect (.command .init) (List.finRange 8) (List.nodup_finRange 8) (initStarted_sound hs)).1

/-- The frames leave the configuration bank alone. -/
theorem initFramesDone_cfg (hs : s.Sound) : (initFramesDone s).cfg = (initStarted s).cfg := by
  obtain ⟨-, -, -, -, hframe⟩ :=
    initFrames_effect (.command .init) (List.finRange 8) (List.nodup_finRange 8) (initStarted_sound hs)
  exact cfg_of_get fun n => hframe (.cfg n) (by simp)

/-- INIT after its last write. -/
def initDone (s : State) : State :=
  (initFramesDone s).cfgWritten (.command .init) [(.audiosync, s.params.audiosyncOff)]

theorem execInit_eq (hs : s.Sound) : execInit s = finish 0 (initDone s) := by
  have hparams : (initFramesDone s).params = s.params := (initFramesDone_emits hs).params
  have hstart : cfgWrite (.command .init) .frame 0x00
      { cfgWrite (.command .init) .mode s.params.modePicture s with af := some 0 } = initStarted s := by
    rw [cfgWrite_eq_cfgWritten hs.params]
    exact cfgWrite_cfgWritten (s := { s with af := some 0 }) hs.params ..
  have hlast : execInit s = finish 0
      (cfgWrite (.command .init) .audiosync (initFramesDone s).params.audiosyncOff (initFramesDone s)) := by
    simp only [execInit, hstart, initFramesDone, Config.NFRAME]
  rw [hlast, hparams, cfgWrite_eq_cfgWritten (by rw [hparams]; exact hs.params), initDone]

theorem initDone_emits (hs : s.Sound) :
    Emits (.command .init) { s with af := some 0 } (initDone s) (initOps s.params) := by
  have hframes := initFramesDone_emits hs
  have hlast := cfgWritten_emits (initFramesDone s) (.command .init) (ws := [(.audiosync, s.params.audiosyncOff)]) (by simp)
  rw [hframes.params, cfgOps, List.flatMap_singleton] at hlast
  exact hframes.trans hlast

theorem initDone_bsr (hs : s.Sound) : (initDone s).bsr = s.params.configBank := by
  rw [initDone, cfgWritten_bsr, (initFramesDone_emits hs).params]

theorem initDone_draws (hs : s.Sound) : (initDone s).draws = s.draws := by
  obtain ⟨-, hdraws, -⟩ :=
    initFrames_effect (.command .init) (List.finRange 8) (List.nodup_finRange 8) (initStarted_sound hs)
  rw [initDone, cfgWritten_draws]
  exact hdraws

/-- Every plane of every frame is cleared and every mask enabled, and the last write keeps them so. -/
theorem initDone_planes (hs : s.Sound) (f : Fin 8) :
    (∀ i, (respond .ok 0 (initDone s)).int f i = 0x00) ∧ (∀ k, (respond .ok 0 (initDone s)).bl f k = 0x00) ∧
    (∀ k, (respond .ok 0 (initDone s)).en f k = 0xFF) := by
  obtain ⟨-, -, -, hplanes, -⟩ :=
    initFrames_effect (.command .init) (List.finRange 8) (List.nodup_finRange 8) (initStarted_sound hs)
  obtain ⟨hint, hbl, hen⟩ := hplanes f (List.mem_finRange f)
  have hkept : DevFrame (fun l => l = .bsr ∨ l = .cfg .audiosync) (initFramesDone s) (respond .ok 0 (initDone s)) :=
    (cfgWritten_frame _ _ (by simp) (by simp)).respond .ok 0
  exact ⟨fun i => int_of_get ((hkept _ (by simp)).trans (hint i)),
    fun k => bl_of_get ((hkept _ (by simp)).trans (hbl k)), fun k => en_of_get ((hkept _ (by simp)).trans (hen k))⟩

/-- Of the configuration bank INIT writes three registers. -/
theorem initDone_cfg (hs : s.Sound) : (initDone s).cfg =
    s.cfg.setAll [(.mode, s.params.modePicture), (.frame, 0x00), (.audiosync, s.params.audiosyncOff)] :=
  congrArg (fun c : CfgBank => c.set .audiosync s.params.audiosyncOff) (initFramesDone_cfg hs)

end

/-- What a command did does not depend on AF's value before it. -/
theorem Ran.of_with_af {i : Instr} {s t : State} {a : Option (Fin 8)} {v : BitVec 16} {ops : List BusOp}
    (h : Ran i { s with af := a } t v ops) : Ran i s t v ops :=
  ⟨h.responses, h.ph, h.tr, h.ptr, h.params, h.cmdPort, h.agenda⟩

theorem initOps_length (p : Params) : (initOps p).length = 638 := by
  simp [initOps, initFrameOps, planeOps, maskOps, cfgWriteOps, regWriteOps]

/-- Settles O21: the two writes before the frames, the frames, and the write after them. -/
theorem initEffect : Obligations.InitEffect := by
  intro s hs
  have hplanes := initDone_planes hs
  have hcfg := initDone_cfg hs
  refine ⟨respond .ok 0 (initDone s), execInit_eq hs, ((initDone_emits hs).ran 0).of_with_af, initOps_length s.params,
    fun f => (hplanes f).1, fun f => (hplanes f).2.1, fun f => (hplanes f).2.2, ?mode, ?frame, ?audiosync,
    (respond_af ..).trans (initDone_emits hs).af, (respond_bsr ..).trans (initDone_bsr hs),
    (respond_draws ..).trans (initDone_draws hs), fun n hm hf ha => ?others⟩
  case mode => rw [respond_cfg, hcfg]; rfl
  case frame => rw [respond_cfg, hcfg]; rfl
  case audiosync => rw [respond_cfg, hcfg]; rfl
  case others =>
    rw [respond_cfg, hcfg]
    exact s.cfg.get_setAll_other (by simp [hm, hf, ha])

end Sys2Proof.Machine
end

section
/-! PROOFS of the statements about the pixel translator (43_pixel_translator.md). -/

namespace Sys2Proof.Machine

/-- R140 as one expression. -/
theorem addr_val (x : Fin 17) (y : Fin 7) :
    (addr x y).val = if x.val ≤ 8 then x.val * 16 + (7 - y.val) else (17 - x.val) * 16 + (y.val + 8) := by
  rw [addr]
  split <;> rfl

theorem execXlat_named {x y : Operand} {px : Fin 17} {py : Fin 7} (h : NamesPixel x y px py) (s : State) :
    execXlat x y s = finish (BitVec.ofNat 16 (addr px py).val) s := by
  rw [execXlat, pixelOperands_named h]

theorem execXlat_offMatrix {x y : Operand} (h : OffMatrix x y) (s : State) : execXlat x y s = finish 0xFFFF s := by
  rw [execXlat, pixelOperands_off h]

/-- Settles O29: on and off the matrix XLAT only answers, on it with the index of R140. -/
theorem xlatEffect : Obligations.XlatEffect := by
  intro s x y
  refine ⟨fun px py h => ?named, fun h => execXlat_offMatrix h s⟩
  case named =>
    rw [← addr_val]
    exact execXlat_named h s

end Sys2Proof.Machine
end

section
/-! PROOFS of the statements about the frame store (44_frame_store.md): FILL, WRAW and FRAME. An equation per command and
case gives its next state; FILL and WRAW then write under the bank their select named, FRAME is one configuration write. -/

namespace Sys2Proof.Machine

/-! ### Frames -/

theorem DevFrame.trans {touched : Loc → Prop} {s t u : State} (h : DevFrame touched s t) (h' : DevFrame touched t u) :
    DevFrame touched s u := fun l hl => (h' l hl).trans (h l hl)

theorem DevFrame.mono {touched touched' : Loc → Prop} {s t : State} (h : DevFrame touched s t)
    (hsub : ∀ l, touched l → touched' l) : DevFrame touched' s t := fun l hl => h l fun hl' => hl (hsub l hl')

/-- What changed in the device does not depend on AF's value before. -/
theorem DevFrame.of_with_af {touched : Loc → Prop} {s t : State} {a : Option (Fin 8)}
    (h : DevFrame touched { s with af := a } t) : DevFrame touched s t :=
  fun l hl => (h l hl).trans (State.get_with_af s a l)

theorem select_bsr (e : Emitter) (b : Byte) (s : State) : (select e b s).bsr = b := by rw [select_eq]

theorem select_draws (e : Emitter) (b : Byte) (s : State) : (select e b s).draws = s.draws := by rw [select_eq]

theorem select_params (e : Emitter) (b : Byte) (s : State) : (select e b s).params = s.params :=
  (select_emits e b s).params

/-! ### FILL -/

section
variable {s : State} {frame color : Option Operand}

theorem execFill_legal {f : Fin 8} (hf : NamesFrame s frame f) (hc : ∀ c, color = some c → Within 0 255 c)
    (blink : Option Operand) :
    execFill frame color blink s =
      finish 0 (fillPlanes (.command (.fill frame color blink)) f (color.map (·.setWidth 8)) blink
        (select (.command (.fill frame color blink)) (frameBank f) s)) := by
  obtain ⟨fr, hcheck, htarget⟩ := namesFrame_target hf
  simp only [execFill, hcheck, color_passes hc, htarget]

theorem execFill_illegal (h : BadFrame frame ∨ BadColor color) (blink : Option Operand) :
    execFill frame color blink s = raiseError .rangeError s := by
  rw [execFill]
  obtain hf | hc := h
  · rw [badFrame_fails hf]
  · rw [badColor_fails hc]
    cases checkOptional frameOperand frame <;> rfl

end

/-- Settles O31: the select, then what FILL's writes do under the selected bank; or the error entry. -/
theorem fillEffect : Obligations.FillEffect := by
  intro s frame color blink hs
  refine ⟨fun f hf hc => ?legal, fun h => execFill_illegal h blink⟩
  obtain ⟨hemits, hbsr, hdraws, -, hint, hbl, hframe⟩ :=
    fillPlanes_effect (.command (.fill frame color blink)) f color blink (select_sound hs)
      (select_bsr (.command (.fill frame color blink)) (frameBank f) s)
  rw [select_params] at hemits
  have hall := (select_emits (.command (.fill frame color blink)) (frameBank f) s).trans hemits
  exact ⟨_, execFill_legal hf hc blink, hall.ran 0, hbsr,
    fun c hcolor i => int_of_get ((get_respond ..).trans (hint c hcolor i)),
    fun b hblink k => bl_of_get ((get_respond ..).trans (hbl b hblink k)),
    (((select_frame _ _ s).mono fun _ => .inl).trans hframe).respond .ok 0, hall.af, hdraws.trans (select_draws ..)⟩

/-! ### WRAW -/

/-- A bulk write from the first cell of a plane: byte `k` becomes cell `k`, nothing else changes. -/
theorem memWrite_cells (e : Emitter) {s : State} (hs : s.Sound) {f : Fin 8} (hb : s.bsr = frameBank f) {vs : List Byte}
    (hlen : vs.length ≤ 144) :
    (memWrite e s.params.colorOffset vs s).bsr = frameBank f ∧
    (∀ (i : Fin 144) (h : i.val < vs.length),
      (memWrite e s.params.colorOffset vs s).get (.int f i) = some vs[i.val]) ∧
    DevFrame (fun l => ∃ i : Fin 144, i.val < vs.length ∧ l = .int f i) s (memWrite e s.params.colorOffset vs s) := by
  obtain ⟨hbsr, hother, hcell⟩ := memWrite_plane e vs hs.params hs.memory f hb 0 (by omega)
  simp only [addrPlus_zero, Nat.zero_add] at hbsr hother hcell
  exact ⟨hbsr.trans hb, fun i h => hcell i.val h, fun l hl => hother l fun k hk hlk => hl ⟨⟨k, by omega⟩, hk, hlk⟩⟩

section
variable {s : State} {frame : Option Operand} {payload : List Byte}

theorem execWraw_legal {f : Fin 8} (hf : NamesFrame s frame f) (hlen : payload.length ≤ 144) :
    execWraw frame payload s =
      finish 0 (memWrite (.command (.wraw frame payload)) s.params.colorOffset payload
        (select (.command (.wraw frame payload)) (frameBank f) s)) := by
  obtain ⟨fr, hcheck, htarget⟩ := namesFrame_target hf
  simp only [execWraw, if_neg (Nat.not_lt.mpr hlen), hcheck, htarget]

theorem execWraw_tooLong (hlen : 144 < payload.length) : execWraw frame payload s = raiseError .sizeError s := by
  rw [execWraw, if_pos hlen]

theorem execWraw_badFrame (hlen : payload.length ≤ 144) (hf : BadFrame frame) :
    execWraw frame payload s = raiseError .rangeError s := by
  rw [execWraw, if_neg (Nat.not_lt.mpr hlen), badFrame_fails hf]

end

/-- Settles O33: the select, then one bulk write from the plane's first cell; or one of the two error entries. -/
theorem wrawEffect : Obligations.WrawEffect := by
  intro s frame payload hs
  refine ⟨fun f hf hlen => ?legal, execWraw_tooLong, execWraw_badFrame⟩
  obtain ⟨hbsr, hcell, hframe⟩ := memWrite_cells (.command (.wraw frame payload)) (select_sound hs)
    (select_bsr (.command (.wraw frame payload)) (frameBank f) s) hlen
  have hall := (select_emits (.command (.wraw frame payload)) (frameBank f) s).trans
    (memWrite_emits (.command (.wraw frame payload)) s.params.colorOffset payload _)
  rw [select_params] at hbsr hcell hframe hall
  exact ⟨_, execWraw_legal hf hlen, hall.ran 0, hbsr,
    fun i h => int_of_get ((get_respond ..).trans (hcell i h)),
    (((select_frame _ _ s).mono fun _ => .inl).trans (hframe.mono fun _ => .inr)).respond .ok 0, hall.af,
    (memWrite_draws ..).trans (select_draws ..)⟩

/-! ### FRAME -/

theorem execFrame_index {s : State} (hp : s.params.Ok) {frame : Operand} {f : Fin 8} (h : frame.toInt = (f.val : Int)) :
    execFrame frame s =
      finish 0 ({ s with af := some f }.cfgWritten (.command (.frame frame)) [(.frame, frameBank f)]) := by
  rw [execFrame, frameOperand_index h]
  exact congrArg (finish 0) (cfgWrite_eq_cfgWritten (s := { s with af := some f }) hp ..)

theorem execFrame_outside {s : State} {frame : Operand} (h : ¬ Within 0 7 frame) :
    execFrame frame s = raiseError .rangeError s := by
  rw [execFrame, frameOperand_outside h]

/-- Settles O36: one write of the frame register, from the state with AF set; or the error entry. -/
theorem frameEffect : Obligations.FrameEffect := by
  intro s frame hs
  refine ⟨fun f hf => ?index, execFrame_outside⟩
  obtain ⟨hbsr, hframe, haf, hdraws⟩ := cfgWritten_leaves { s with af := some f } (.command (.frame frame))
    (ws := [(.frame, frameBank f)]) (touched := fun l => l = .bsr ∨ l = .cfg .frame) (by simp) (by simp)
  exact ⟨_, execFrame_index hs.params hf, (cfgWritten_ran { s with af := some f } _ (by simp)).of_with_af, haf,
    frameBank_toNat f, hbsr, hframe.of_with_af, hdraws⟩

end Sys2Proof.Machine
end

section
/-! PROOFS of the statements about error outcomes (60_exceptions.md): R176. Every check of a command stands before its first
transaction, so a command has three ends: it finishes with OK, it raises an error in the state it started from, or it is
refused. -/

namespace Sys2Proof.Machine

/-- The three ends of a command that starts in `s`. Only `finish` answers from a later state; the error entry is taken in `s`
itself (R176). -/
inductive Ends (s : State) : Result → Prop
  | finish (value : BitVec 16) (t : State) : Ends s (finish value t)
  | error (status : Status) : Ends s (raiseError status s)
  | refused (r : Refusal) : Ends s (.refused r)

/-- A command that answers an error has ended in the error entry. -/
theorem Ends.eq_rejected {s t : State} {result : Result} {r : Response} (h : Ends s result) (hnext : result = .next t)
    (hlast : t.lastResponse = some r) (hr : r.status ≠ .ok) : r.value = 0 ∧ t = s.rejected r.status := by
  cases h with
  | finish value u =>
    cases hnext
    rw [lastResponse_respond] at hlast
    cases hlast
    exact absurd rfl hr
  | error status =>
    cases hnext
    rw [lastResponse_respond] at hlast
    cases hlast
    exact ⟨rfl, rfl⟩
  | refused q => cases hnext

/-! ### The commands -/

section
variable (s : State)

theorem execSelb_ends (bank : Operand) : Ends s (execSelb bank s) := by
  rw [execSelb]
  split
  · exact .error _
  · exact .finish ..

theorem execRdr_ends (bank reg : Operand) : Ends s (execRdr bank reg s) := by
  rw [execRdr]
  split
  · exact .finish ..
  · exact .error _

theorem execWrr_ends (bank reg value : Operand) : Ends s (execWrr bank reg value s) := by
  rw [execWrr]
  split
  · exact .finish ..
  · exact .error _

theorem execSleep_ends (enable : Operand) : Ends s (execSleep enable s) := by
  rw [execSleep]
  split <;> exact .finish ..

theorem execAutoplay_ends (delayMs loops frames : Operand) : Ends s (execAutoplay delayMs loops frames s) := by
  rw [execAutoplay]
  split
  · exact .finish ..
  · split
    · split
      · exact .refused _
      · exact .finish ..
    · exact .error _

theorem execAudioplay_ends (rate gain agcEnable agcFast : Operand) :
    Ends s (execAudioplay rate gain agcEnable agcFast s) := by
  rw [execAudioplay]
  split
  · exact .finish ..
  · split
    · exact .finish ..
    · exact .error _

theorem execBlinkrate_ends (rateMs : Operand) : Ends s (execBlinkrate rateMs s) := by
  rw [execBlinkrate]
  split
  · exact .error _
  · split <;> exact .finish ..

theorem setFade_ends (e : Emitter) (fadeIn fadeOut pause : Operand) : Ends s (setFade e fadeIn fadeOut pause s) := by
  rw [setFade]
  split
  · exact .finish ..
  · exact .error _

theorem execFade_ends (fadeIn fadeOut : Option Operand) (pauseMs : Operand) :
    Ends s (execFade fadeIn fadeOut pauseMs s) := by
  match fadeIn, fadeOut with
  | none, none => exact .finish ..
  | some i, none => exact setFade_ends s _ i i pauseMs
  | none, some o => exact setFade_ends s _ o o pauseMs
  | some i, some o => exact setFade_ends s _ i o pauseMs

theorem execXlat_ends (x y : Operand) : Ends s (execXlat x y s) := by
  rw [execXlat]
  split <;> exact .finish ..

theorem execFill_ends (frame color blink : Option Operand) : Ends s (execFill frame color blink s) := by
  rw [execFill]
  split
  · split
    · exact .refused _
    · exact .finish ..
  · exact .error _

theorem execWraw_ends (frame : Option Operand) (payload : List Byte) : Ends s (execWraw frame payload s) := by
  rw [execWraw]
  split
  · exact .error _
  · split
    · exact .error _
    · split
      · exact .refused _
      · exact .finish ..

theorem execSetpx_ends (x y : Operand) (color blink frame : Option Operand) :
    Ends s (execSetpx x y color blink frame s) := by
  rw [execSetpx]
  split
  · exact .finish ..
  · split
    · split
      · split
        · exact .refused _
        · exact .finish ..
      · exact .finish ..
    · exact .error _

theorem execFrame_ends (frame : Operand) : Ends s (execFrame frame s) := by
  rw [execFrame]
  split
  · exact .error _
  · exact .finish ..

/-- Every command ends in one of the three ways; RESET, INIT and BLINKQ check nothing and always finish. -/
theorem exec_ends {i : Instr} (hi : i.isCommand = true) : Ends s (exec i s) := by
  cases i with
  | selb bank => exact execSelb_ends s bank
  | rdr bank reg => exact execRdr_ends s bank reg
  | wrr bank reg value => exact execWrr_ends s bank reg value
  | reset => exact .finish ..
  | init => exact .finish ..
  | sleep enable => exact execSleep_ends s enable
  | autoplay delayMs loops frames => exact execAutoplay_ends s delayMs loops frames
  | audioplay rate gain agcEnable agcFast => exact execAudioplay_ends s rate gain agcEnable agcFast
  | blinkrate rateMs => exact execBlinkrate_ends s rateMs
  | blinkq => exact .finish ..
  | fade fadeIn fadeOut pauseMs => exact execFade_ends s fadeIn fadeOut pauseMs
  | xlat x y => exact execXlat_ends s x y
  | fill frame color blink => exact execFill_ends s frame color blink
  | wraw frame payload => exact execWraw_ends s frame payload
  | setpx x y color blink frame => exact execSetpx_ends s x y color blink frame
  | frame frame => exact execFrame_ends s frame
  | bwr dev reg data => exact absurd hi Bool.false_ne_true
  | brd dev reg n => exact absurd hi Bool.false_ne_true

end

/-- Settles O43: of the three ends of a command only the error entry answers a status other than OK, and it is taken in the
state the command started from. -/
theorem errorChangesNothing : Obligations.ErrorChangesNothing := by
  intro i s t r hi hnext
  exact (exec_ends s hi).eq_rejected hnext

end Sys2Proof.Machine
end

section
/-! PROOFS of the statements about encoding (30_encoding.md): the two round trips, what a decoded command takes, and
that the rows of the opcode map are disjoint. -/

namespace Sys2Proof

/-! ### Round trips -/

/-- A frame whose head selects `o` is decoded by `o`'s row. -/
theorem decodeFrame_of_head (o : Op) {op pf : Byte} {a b c d e : Operand} {bytes : List Byte}
    {result : Except Reject (Instr × List Byte)} (hhead : opOfHead (wordOf op pf) = some o)
    (hfields : instrOfFields o pf a b c d e bytes = result) :
    decodeFrame (frameBytes op pf a b c d e ++ bytes) = result := by
  rw [decodeFrame_frameBytes, hhead]
  exact hfields

@[simp] theorem pfBit_none (k : Nat) : pfBit k none = 0 := rfl
@[simp] theorem pfBit_some (k : Nat) (v : Operand) : pfBit k (some v) = 1 <<< k := rfl

/-- WRAW's payload is cut off by its length, which fits the length field. -/
theorem instrOfFields_wraw {payload : List Byte} (h : payload.length < 65536) (pf : Byte) (a c d e : Operand)
    (rest : List Byte) :
    instrOfFields .wraw pf a (BitVec.ofNat 16 payload.length) c d e (payload ++ rest) =
      .ok (.wraw (optOperand pf 0 a) payload, rest) := by
  have hlen : (BitVec.ofNat 16 payload.length).toNat = payload.length := by
    rw [BitVec.toNat_ofNat, Nat.mod_eq_of_lt h]
  have hall : ¬ (payload ++ rest).length < payload.length := by simp
  rw [instrOfFields, hlen, if_neg hall, List.take_left, List.drop_left]

/-- Settles O1: each encoding is a frame whose head selects the command's row. Where operands are optional, each
choice of presence bits is a head of its own. -/
theorem commandRoundTrip : Obligations.CommandRoundTrip := by
  intro i rest hwf hi
  cases i with
  | selb bank => exact decodeFrame_of_head .selb rfl rfl
  | rdr bank reg => exact decodeFrame_of_head .rdr rfl rfl
  | wrr bank reg value => exact decodeFrame_of_head .wrr rfl rfl
  | reset => exact decodeFrame_of_head .reset rfl rfl
  | init => exact decodeFrame_of_head .init rfl rfl
  | sleep enable => exact decodeFrame_of_head .sleep rfl rfl
  | autoplay delayMs loops frames => exact decodeFrame_of_head .autoplay rfl rfl
  | audioplay rate gain agcEnable agcFast => exact decodeFrame_of_head .audioplay rfl rfl
  | blinkrate rateMs => exact decodeFrame_of_head .blinkrate rfl rfl
  | blinkq => exact decodeFrame_of_head .blinkq rfl rfl
  | xlat x y => exact decodeFrame_of_head .xlat rfl rfl
  | frame frame => exact decodeFrame_of_head .frame rfl rfl
  | fade fadeIn fadeOut pauseMs =>
    rw [encode]
    cases fadeIn <;> cases fadeOut <;> simp only [pfBit_none, pfBit_some] <;>
      exact decodeFrame_of_head .fade rfl rfl
  | fill frame color blink =>
    rw [encode]
    cases frame <;> cases color <;> cases blink <;> simp only [pfBit_none, pfBit_some] <;>
      exact decodeFrame_of_head .fill rfl rfl
  | setpx x y color blink frame =>
    rw [encode]
    cases color <;> cases blink <;> cases frame <;> simp only [pfBit_none, pfBit_some] <;>
      exact decodeFrame_of_head .setpx rfl rfl
  | wraw frame payload =>
    have hlen : payload.length < 65536 := of_decide_eq_true hwf
    rw [encode, List.append_assoc]
    cases frame <;> simp only [pfBit_none, pfBit_some] <;>
      exact decodeFrame_of_head .wraw rfl (instrOfFields_wraw hlen ..)
  | bwr dev reg data => exact absurd hi Bool.false_ne_true
  | brd dev reg n => exact absurd hi Bool.false_ne_true

/-- The first byte of a record gives back the device address and the direction bit. -/
theorem recordHead_fields (dev : BitVec 7) (read : Bool) :
    (dev ++ BitVec.ofBool read : Byte).getLsbD 0 = read ∧ (dev ++ BitVec.ofBool read : Byte).extractLsb' 1 7 = dev := by
  revert dev read
  decide

/-- Settles O2: the first byte of the record is the address above the direction bit; the count is a word's two bytes. -/
theorem recordRoundTrip : Obligations.RecordRoundTrip := by
  intro i hwf hi
  cases i with
  | bwr dev reg data =>
    obtain ⟨hdirection, hdev⟩ := recordHead_fields dev false
    change decodeRecord ((dev ++ BitVec.ofBool false) :: reg :: data) = _
    simp only [decodeRecord, hdirection, hdev, if_neg Bool.false_ne_true]
  | brd dev reg n =>
    obtain ⟨hdirection, hdev⟩ := recordHead_fields dev true
    have hn : n < 65536 := of_decide_eq_true hwf
    change decodeRecord [dev ++ BitVec.ofBool true, reg, hiByte (BitVec.ofNat 16 n), loByte (BitVec.ofNat 16 n)] = _
    rw [decodeRecord, hdirection, hdev, if_pos rfl, wordOf_bytes, BitVec.toNat_ofNat, Nat.mod_eq_of_lt hn]
  | _ => exact absurd hi.symm Bool.false_ne_true

/-- Settles O3: the decoder computes each of them. -/
theorem workedFramesDecode : Obligations.WorkedFramesDecode :=
  ⟨rfl, rfl, rfl, rfl, rfl, rfl, rfl, rfl, rfl, rfl⟩

/-! ### The opcode map -/

/-- Two rows that match one head agree on the bits both masks keep. -/
theorem OpRow.patterns_agree {r r' : OpRow} {head : BitVec 16} (h : r.hits head = true) (h' : r'.hits head = true) :
    r.pattern &&& r'.mask = r'.pattern &&& r.mask := by
  rw [← beq_iff_eq.mp h, ← beq_iff_eq.mp h', BitVec.and_assoc, BitVec.and_assoc, BitVec.and_comm r.mask]

/-- Settles O4: no two rows of the map agree on the bits both masks keep. -/
theorem opcodeRowsDisjoint : Obligations.OpcodeRowsDisjoint := by
  have hrows : ∀ r ∈ opRows, ∀ r' ∈ opRows, r.pattern &&& r'.mask = r'.pattern &&& r.mask → r = r' := by decide
  intro head r hr r' hr' h h'
  exact hrows r hr r' hr' (OpRow.patterns_agree h h')

/-- A head selects no command exactly when it matches no row. -/
theorem opOfHead_eq_none {head : BitVec 16} : opOfHead head = none ↔ ∀ r ∈ opRows, r.hits head = false := by
  simp [opOfHead]

/-! ### What the decoder takes -/

/-- A command is read from 12 bytes and what follows them. -/
theorem decodeFrame_ok {bytes rest : List Byte} {i : Instr} (h : decodeFrame bytes = .ok (i, rest)) :
    ∃ front tail o pf a b c d e, bytes = front ++ tail ∧ front.length = 12 ∧
      instrOfFields o pf a b c d e tail = .ok (i, rest) := by
  match bytes with
  | op :: pf :: a1 :: a0 :: b1 :: b0 :: c1 :: c0 :: d1 :: d0 :: e1 :: e0 :: tail =>
    rw [decodeFrame] at h
    split at h
    · cases h
    · exact ⟨[op, pf, a1, a0, b1, b0, c1, c0, d1, d0, e1, e0], tail, _, _, _, _, _, _, _, rfl, rfl, h⟩

/-- Settles O5: every row but WRAW's leaves what follows the frame; WRAW takes a payload as long as its field says. -/
theorem decodedCommandConsumesItsBytes : Obligations.DecodedCommandConsumesItsBytes := by
  intro bytes rest i h
  obtain ⟨front, tail, o, pf, a, b, c, d, e, rfl, hfront, h⟩ := decodeFrame_ok h
  cases o with
  | wraw =>
    rw [instrOfFields] at h
    split at h
    · cases h
    next hlen =>
      cases h
      have htake : (tail.take b.toNat).length = b.toNat := List.length_take_of_le (Nat.not_lt.mp hlen)
      refine ⟨decide_eq_true (htake.trans_lt b.isLt), rfl, front ++ tail.take b.toNat, ?_, ?_⟩
      · rw [List.append_assoc, List.take_append_drop]
      · rw [List.length_append, hfront]
  | _ =>
    cases h
    exact ⟨rfl, rfl, front, rfl, hfront⟩

/-- A record is read as a transaction. -/
theorem decodeRecord_isTransaction {bytes : List Byte} {i : Instr} (h : decodeRecord bytes = .ok i) :
    (∃ dev reg data, i = .bwr dev reg data) ∨ ∃ dev reg n, i = .brd dev reg n := by
  match bytes with
  | first :: reg :: rest =>
    simp only [decodeRecord] at h
    split at h
    · split at h
      · cases h
        exact .inr ⟨_, _, _, rfl⟩
      · cases h
    · cases h
      exact .inl ⟨_, _, _, rfl⟩

end Sys2Proof
end

section
/-! PROOFS of the statements about addresses and bus transactions (20_memory.md, 40_bus_transactions.md): no two pairs
of bank and address name one register, and what BWR and BRD do, byte by byte. -/

namespace Sys2Proof.Machine

/-! ### The bank of a register -/

/-- The registers of a frame bank are reached in that bank only. -/
theorem resolve_inFrame {p : Params} {b a : Byte} {f : Fin 8} (h : (resolve p b a).InFrame f) : b = frameBank f := by
  rw [resolve] at h
  split at h
  · exact h.elim
  · split at h
    next hb =>
      refine eq_frameBank (congrArg Fin.val (?_ : ⟨b.toNat, hb⟩ = f))
      rw [resolveFrame] at h
      split at h
      · exact h
      · split at h
        · exact h
        · split at h
          · exact h
          · exact h.elim
    · split at h
      · rw [resolveConfig] at h
        split at h <;> exact h.elim
      · exact h.elim

/-- Settles O12: the register names its bank, and in one bank the address is determined. -/
theorem registersDistinct : Obligations.RegistersDistinct := by
  intro p b a b' a' hp h hbsr hu
  have hframe : ∀ f, (resolve p b a).InFrame f → b = b' := fun f hf =>
    have hf' : (resolve p b' a').InFrame f := h ▸ hf
    (resolve_inFrame hf).trans (resolve_inFrame hf').symm
  have hbank : b = b' := by
    cases hl : resolve p b a with
    | bsr => exact absurd hl hbsr
    | unmapped => exact absurd hl hu
    | cfg n => exact (resolve_eq_cfg hl).1.trans (resolve_eq_cfg (h.symm.trans hl)).1.symm
    | en f k => exact hframe f (by rw [hl]; rfl)
    | bl f k => exact hframe f (by rw [hl]; rfl)
    | int f i => exact hframe f (by rw [hl]; rfl)
  subst hbank
  exact ⟨rfl, resolve_inj hp h hu⟩

/-! ### BWR -/

/-- A write addressed to this device is the BRP's own kind of write. -/
theorem busWrite_self (e : Emitter) (reg : Byte) (data : List Byte) (s : State) :
    busWrite e s.params.devAddr reg data s = memWrite e reg data s := rfl

theorem busWrite_other (e : Emitter) {dev : BitVec 7} {s : State} (h : dev ≠ s.params.devAddr) (reg : Byte)
    (data : List Byte) : busWrite e dev reg data s = record e (.bwr dev reg data) s := by
  rw [busWrite, if_neg h]

/-- What the locations hold after a write transaction is the transfer's doing. -/
theorem memWrite_get (e : Emitter) (a : Byte) (vs : List Byte) (s : State) (l : Loc) :
    (memWrite e a vs s).get l = (moveIn vs (s.setPtr (some a))).get l := by
  rw [memWrite, busWrite, if_pos rfl, get_record, State.get_setPtr]

/-- A transfer in two transactions is one transfer, as far as the locations go. -/
theorem memWrite_append (e : Emitter) (a : Byte) (xs ys : List Byte) (s : State) (l : Loc) :
    (memWrite e a (xs ++ ys) s).get l = (memWrite e (addrPlus a xs.length) ys (memWrite e a xs s)).get l := by
  obtain ⟨-, hparams, -⟩ := moveIn_fields xs (s.setPtr (some a))
  have hdevice : memWrite e a xs s =
      record e (.bwr s.params.devAddr a xs) ((moveIn xs (s.setPtr (some a))).setPtr none) := by
    rw [memWrite, busWrite, if_pos rfl]
  obtain ⟨hbsr, hfbr, hcfg⟩ := moveIn_congr ys
    (s := (moveIn xs (s.setPtr (some a))).setPtr (some (addrPlus a xs.length)))
    (t := (memWrite e a xs s).setPtr (some (addrPlus a xs.length)))
    (by simp [hdevice]) (by simp [hdevice]) (by simp [hdevice]) (by simp [hdevice]) rfl
  rw [memWrite_get, memWrite_get, moveIn_append]
  exact State.get_congr hbsr hfbr hcfg l

/-- Settles O13: a write to another device is only recorded; one to this device is a transfer. -/
theorem bwrEffect : Obligations.BwrEffect := by
  intro s dev reg data hm
  refine ⟨fun hdev => congrArg Host.Outcome.next (busWrite_other _ hdev reg data), ?_⟩
  rintro rfl
  have hemits := memWrite_emits .busMaster reg data s
  refine ⟨_, rfl, hemits.tr, hemits.ptr, ⟨hemits.af, memWrite_draws ..⟩, hemits.params, hemits.ph, hemits.responses,
    hemits.cmdPort, hemits.agenda, ?none, ?one, ?split⟩
  case none =>
    rintro rfl l
    exact memWrite_get ..
  case one =>
    rintro v rfl
    have hone := memWrite_one .busMaster reg v s
    refine ⟨fun l hl => ?_, fun hu => ?_⟩
    · rw [busWrite_self, hone, State.get_put_other _ hl]
      exact State.get_congr rfl rfl rfl l
    · rw [busWrite_self, hone]
      exact State.get_put_same (by exact hm) hu v
  case split =>
    rintro xs ys rfl
    have hdev := (memWrite_emits .busMaster reg xs s).params
    refine ⟨_, _, rfl, rfl, fun l => ?_⟩
    rw [busWrite_self, busWrite_self, memWrite_append, memWrite, hdev]

/-- Within 256 bytes of an address no other one is the same. -/
theorem addrPlus_ne {a : Byte} {k : Nat} (h : k + 1 < 256) : a ≠ addrPlus a (k + 1) := by
  intro heq
  have h' := congrArg BitVec.toNat heq
  rw [addrPlus, BitVec.toNat_add, BitVec.toNat_ofNat] at h'
  have := a.isLt
  omega

/-- A transfer of at most 256 bytes that never reaches BSR. -/
theorem moveIn_consecutive (vs : List Byte) {s : State} (hs : s.Sound) {a : Byte} (hlen : vs.length ≤ 256)
    (hbank : ∀ k < vs.length, addrPlus a k ≠ s.params.bankAddress) :
    (∀ (k : Nat) (hk : k < vs.length), resolve s.params s.bsr (addrPlus a k) ≠ .unmapped →
      (moveIn vs (s.setPtr (some a))).get (resolve s.params s.bsr (addrPlus a k)) = some vs[k]) ∧
    DevFrame (fun l => ∃ k < vs.length, resolve s.params s.bsr (addrPlus a k) = l) s
      (moveIn vs (s.setPtr (some a))) := by
  induction vs generalizing s a with
  | nil => exact ⟨fun k hk => absurd hk (Nat.not_lt_zero k), fun l _ => State.get_setPtr s _ l⟩
  | cons v vs ih =>
    rw [List.length_cons] at hlen hbank
    have hfirst : resolve s.params s.bsr a ≠ .bsr := by
      have h0 := hbank 0 (by omega)
      rw [addrPlus_zero] at h0
      exact mt resolve_eq_bsr.mp h0
    have hbsr : (s.put (resolve s.params s.bsr a) v).bsr = s.bsr := State.put_bsr s hfirst v
    have hrest := ih (s := s.put (resolve s.params s.bsr a) v) (a := a + 1)
      ⟨by rw [State.put_params]; exact hs.params, State.wf_put hs.memory _ _⟩ (by omega) (fun k hk => by
        rw [State.put_params, ← addrPlus_succ]
        exact hbank (k + 1) (by omega))
    simp only [State.put_params, hbsr, ← addrPlus_succ] at hrest
    obtain ⟨hbytes, hframe⟩ := hrest
    rw [moveIn_cons]
    refine ⟨fun k hk hu => ?bytes, fun l hl => ?frame⟩
    case bytes =>
      cases k with
      | zero =>
        rw [addrPlus_zero] at hu ⊢
        refine (hframe _ ?_).trans (State.get_put_same hs.memory hu v)
        rintro ⟨k, hk, heq⟩
        exact addrPlus_ne (by omega) (resolve_inj hs.params heq.symm hu)
      | succ k => exact hbytes k (by simpa using hk) hu
    case frame =>
      have hne : l ≠ resolve s.params s.bsr a := by
        rintro rfl
        exact hl ⟨0, by simp, by rw [addrPlus_zero]⟩
      refine (hframe l ?_).trans (State.get_put_other s hne v)
      rintro ⟨k, hk, heq⟩
      exact hl ⟨k + 1, by simpa using hk, heq⟩

/-- Settles O14: the transfer never reaches BSR, so every byte is resolved in the bank of the start. -/
theorem bwrBulkWritesConsecutive : Obligations.BwrBulkWritesConsecutive := by
  intro s reg data hs hlen hbank
  obtain ⟨hbytes, hframe⟩ := moveIn_consecutive data hs hlen hbank
  exact ⟨_, rfl, fun k hk hu => (memWrite_get ..).trans (hbytes k hk hu),
    fun l hl => (memWrite_get ..).trans (hframe l hl)⟩

/-! ### BRD -/

/-- Byte `k` of a read from address `a`: what the location holds, or the oracle's next byte. -/
def State.byteRead (s : State) (a : Byte) (k : Nat) : Byte :=
  (s.get (resolve s.params s.bsr (addrPlus a k))).getD (Config.freeByte (s.draws + unmappedBefore s a k))

/-- The first address, and then the others. -/
theorem unmappedBefore_succ (s : State) (a : Byte) (k : Nat) :
    unmappedBefore s a (k + 1) = unmappedBefore s a 1 + unmappedBefore s (a + 1) k := by
  simp only [unmappedBefore, List.range_succ_eq_map, List.countP_cons, List.countP_map, List.range_zero, List.map_nil,
    List.countP_nil, Function.comp_def, addrPlus_succ, Nat.succ_eq_add_one]
  omega

/-- A device read stores nothing; it draws a byte where there is no register. -/
theorem devRead_eq (s : State) (a : Byte) :
    devRead a s = (s.byteRead a 0, { s with draws := s.draws + unmappedBefore s a 1 }) := by
  rw [devRead]
  split
  next v hv => simp [State.byteRead, unmappedBefore, addrPlus_zero, hv]
  next hv => simp [State.byteRead, unmappedBefore, addrPlus_zero, hv]

/-- After the first byte is read the others are what they were. -/
theorem byteRead_succ (s : State) (a : Byte) (k : Nat) :
    State.byteRead { s with draws := s.draws + unmappedBefore s a 1 } (a + 1) k = s.byteRead a (k + 1) := by
  have hcount : unmappedBefore { s with draws := s.draws + unmappedBefore s a 1 } (a + 1) k =
      unmappedBefore s (a + 1) k := by simp only [unmappedBefore, State.get_with_draws]
  simp only [State.byteRead, hcount, State.get_with_draws, addrPlus_succ, unmappedBefore_succ s a k, Nat.add_assoc]

theorem moveOut_succ (n : Nat) (s : State) (a : Byte) :
    moveOut (n + 1) (s.setPtr (some a)) =
      (s.byteRead a 0 :: (moveOut n (State.setPtr { s with draws := s.draws + unmappedBefore s a 1 } (some (a + 1)))).1,
        (moveOut n (State.setPtr { s with draws := s.draws + unmappedBefore s a 1 } (some (a + 1)))).2) := by
  simp only [moveOut, State.setPtr_ptr, devRead_eq]
  rfl

/-- The bytes of a read transaction, and the state after it. -/
theorem moveOut_eq (n : Nat) (s : State) (a : Byte) :
    moveOut n (s.setPtr (some a)) = ((List.range n).map (s.byteRead a),
      State.setPtr { s with draws := s.draws + unmappedBefore s a n } (some (addrPlus a n))) := by
  induction n generalizing s a with
  | zero =>
    rw [moveOut, addrPlus_zero]
    rfl
  | succ n ih =>
    have hcount : unmappedBefore { s with draws := s.draws + unmappedBefore s a 1 } (a + 1) n =
        unmappedBefore s (a + 1) n := by simp only [unmappedBefore, State.get_with_draws]
    rw [moveOut_succ, ih, List.range_succ_eq_map, List.map_cons, List.map_map, hcount, addrPlus_succ,
      unmappedBefore_succ s a n, ← Nat.add_assoc]
    congr 2
    exact List.map_congr_left fun k _ => byteRead_succ s a k

theorem busRead_self (e : Emitter) (reg : Byte) (n : Nat) (s : State) :
    busRead e s.params.devAddr reg n s = (some ((List.range n).map (s.byteRead reg)),
      { s with tr := s.tr ++ [⟨e, .brd s.params.devAddr reg n (some ((List.range n).map (s.byteRead reg)))⟩], ptr := none,
               draws := s.draws + unmappedBefore s reg n }) := by
  rw [busRead, if_pos rfl, moveOut_eq]
  rfl

theorem busRead_other (e : Emitter) {dev : BitVec 7} {s : State} (h : dev ≠ s.params.devAddr) (reg : Byte) (n : Nat) :
    busRead e dev reg n s = (none, record e (.brd dev reg n none) s) := by
  rw [busRead, if_neg h]

theorem exec_brd (dev : BitVec 7) (reg : Byte) (n : Nat) (s : State) :
    exec (.brd dev reg n) s = .next (busRead .busMaster dev reg n s).2 := rfl

/-- Settles O15: a read from another device is only recorded; one from this device gives `byteRead`'s bytes. -/
theorem brdEffect : Obligations.BrdEffect := by
  intro s dev reg n
  refine ⟨fun hdev => by rw [exec_brd, busRead_other _ hdev]; rfl, ?_⟩
  rintro rfl
  refine ⟨_, _, by rw [exec_brd, busRead_self], by simp, rfl, fun k hk => ?_⟩
  rw [List.getElem_map, List.getElem_range, State.byteRead]
  cases s.get (resolve s.params s.bsr (addrPlus reg k)) <;> rfl

/-! ### What every transaction leaves alone -/

/-- What a raw transaction from `s` to `t` keeps, whichever device it addresses. -/
structure Transacts (s t : State) : Prop where
  params    : t.params = s.params
  af        : t.af = s.af
  ph        : t.ph = s.ph
  responses : t.responses = s.responses
  ptr       : s.ptr = none → t.ptr = none
  tr        : ∃ new, t.tr = s.tr ++ new
  memory    : Memory.wf s.fbr = true → Memory.wf t.fbr = true

theorem record_transacts (e : Emitter) (op : BusOp) (s : State) : Transacts s (record e op s) :=
  ⟨rfl, rfl, rfl, rfl, id, ⟨_, rfl⟩, id⟩

theorem busWrite_transacts (e : Emitter) (dev : BitVec 7) (reg : Byte) (data : List Byte) (s : State) :
    Transacts s (busWrite e dev reg data s) := by
  by_cases h : dev = s.params.devAddr
  · subst h
    have hemits := memWrite_emits e reg data s
    exact ⟨hemits.params, hemits.af, hemits.ph, hemits.responses, fun _ => hemits.ptr, ⟨_, hemits.tr⟩,
      memWrite_wf e reg data⟩
  · rw [busWrite_other e h]
    exact record_transacts ..

theorem busRead_transacts (e : Emitter) (dev : BitVec 7) (reg : Byte) (n : Nat) (s : State) :
    Transacts s (busRead e dev reg n s).2 := by
  by_cases h : dev = s.params.devAddr
  · subst h
    rw [busRead_self]
    exact ⟨rfl, rfl, rfl, rfl, fun _ => rfl, ⟨_, rfl⟩, id⟩
  · rw [busRead_other e h]
    exact record_transacts ..

/-- An instruction that is no command always answers a next state, and is one transaction. -/
theorem exec_transacts {i : Instr} (hi : i.isCommand = false) (s : State) :
    ∃ t, exec i s = .next t ∧ Transacts s t := by
  cases i with
  | bwr dev reg data => exact ⟨_, rfl, busWrite_transacts ..⟩
  | brd dev reg n => exact ⟨_, rfl, busRead_transacts ..⟩
  | _ => exact absurd hi.symm Bool.false_ne_true

end Sys2Proof.Machine
end

section
/-! PROOFS of the statements about every command at once. Two descriptions carry them, each proved once. `Moves` says
what the BRP can do to a state: write transactions, register reads, and a change of AF where the emitter may make one.
`Behaves` says how a command can end, of two states that differ in BSR only: it is over before its first transaction,
it is refused, or it does the same moves from both. -/

namespace Sys2Proof.Machine

/-- A register read stores nothing. -/
theorem regRead_wf (e : Emitter) (b r : Byte) {s : State} (hm : Memory.wf s.fbr = true) :
    Memory.wf (regRead e b r s).2.fbr = true := by
  rw [regRead_eq]
  split <;> exact hm

/-! ### What a sequence of moves does -/

/-- The commands that write AF (10_state.md R38). -/
def WritesActiveFrame (i : Instr) : Prop := i = .init ∨ ∃ f, i = .frame f

/-- From `s` the emitter `e` reached the last state by `n` transactions. -/
inductive Moves (e : Emitter) (s : State) : Nat → State → Prop
  | refl : Moves e s 0 s
  | write {n : Nat} {t : State} (h : Moves e s n t) (a : Byte) (vs : List Byte) : Moves e s (n + 1) (memWrite e a vs t)
  | read {n : Nat} {t : State} (h : Moves e s n t) (b r : Byte) : Moves e s (n + 2) (regRead e b r t).2
  | latch {n : Nat} {t : State} (h : Moves e s n t) (f : Fin 8) (i : Instr) (he : e = .command i)
      (hi : WritesActiveFrame i) : Moves e s n { t with af := some f }

section
variable {e : Emitter} {s t : State} {n : Nat}

theorem Moves.select (h : Moves e s n t) (b : Byte) : Moves e s (n + 1) (select e b t) := h.write ..

theorem Moves.regWrite (h : Moves e s n t) (b r v : Byte) : Moves e s (n + 2) (regWrite e b r v t) :=
  (h.select b).write ..

theorem Moves.cfgWrite (h : Moves e s n t) (c : CfgName) (v : Byte) : Moves e s (n + 2) (cfgWrite e c v t) :=
  h.regWrite ..

/-- A loop of rounds of `k` transactions. -/
theorem Moves.foldl {α : Type} {k : Nat} {f : State → α → State}
    (hf : ∀ {n t} x, Moves e s n t → Moves e s (n + k) (f t x)) (xs : List α) (h : Moves e s n t) :
    Moves e s (n + k * xs.length) (xs.foldl f t) := by
  induction xs generalizing n t with
  | nil => exact h
  | cons x xs ih =>
    have hrest := ih (hf x h)
    rwa [Nat.add_assoc, Nat.add_comm k, ← Nat.mul_succ] at hrest

theorem Moves.resetSequence (h : Moves e s n t) : Moves e s (n + 4) (resetSequence e t) :=
  (h.cfgWrite ..).cfgWrite ..

theorem Moves.fillPlane (h : Moves e s n t) (c : Byte) : Moves e s (n + 6) (fillPlane e c t) :=
  h.foldl (k := 1) (fun _ h => h.write ..) (List.range 6)

theorem Moves.fillMask (h : Moves e s n t) (b off m : Byte) : Moves e s (n + 36) (fillMask e b off m t) :=
  h.foldl (k := 2) (fun _ h => h.regWrite ..) (List.range 18)

theorem Moves.initFrame (h : Moves e s n t) (f : Fin 8) : Moves e s (n + 79) (initFrame e f t) :=
  (((h.select _).fillPlane _).fillMask ..).fillMask ..

theorem Moves.setPixelBlink (h : Moves e s n t) (f : Fin 8) (i : Fin 144) (b : Bool) :
    Moves e s (n + 4) (setPixelBlink e f i b t) := (h.read ..).regWrite ..

theorem Moves.fillPlanes (h : Moves e s n t) (f : Fin 8) (color : Option Byte) (blink : Option Operand) :
    ∃ m ≤ 42, Moves e s (n + m) (fillPlanes e f color blink t) := by
  cases color with
  | none =>
    cases blink with
    | none => exact ⟨0, by omega, h⟩
    | some b => exact ⟨36, by omega, h.fillMask ..⟩
  | some c =>
    cases blink with
    | none => exact ⟨6, by omega, h.fillPlane c⟩
    | some b => exact ⟨42, by omega, (h.fillPlane c).fillMask ..⟩

/-- Where the parameters ask for a write, SETPX makes at least one transaction. -/
theorem Moves.setPixel (h : Moves e s n t) (f : Fin 8) (i : Fin 144) (c : Option Byte) (blink : Option Operand)
    (hw : c.isSome = true ∨ blink.isSome = true ∧ t.params.pixelBlinkImpl = true) :
    ∃ m, 0 < m ∧ m ≤ 6 ∧ Moves e s (n + m) (setPixel e f i c blink t) := by
  cases c with
  | none =>
    cases blink with
    | none => simp at hw
    | some b =>
      have himpl : t.params.pixelBlinkImpl = true := by simpa using hw
      refine ⟨4, by omega, by omega, ?_⟩
      simp only [Machine.setPixel, if_pos himpl]
      exact h.setPixelBlink ..
  | some c =>
    have hcolor : Moves e s (n + 2) (setPixelColor e f i c t) := h.regWrite ..
    cases blink with
    | none => exact ⟨2, by omega, by omega, hcolor⟩
    | some b =>
      simp only [Machine.setPixel]
      split
      · exact ⟨6, by omega, by omega, hcolor.setPixelBlink ..⟩
      · exact ⟨2, by omega, by omega, hcolor⟩

/-- What moves do outside the device: they emit as many transactions as they count, from a state that has their last
AF. -/
theorem Moves.emits (h : Moves e s n t) : ∃ ops, ops.length = n ∧ Emits e { s with af := t.af } t ops := by
  induction h with
  | refl => exact ⟨[], rfl, .refl e s⟩
  | @write n u h a vs ih =>
    obtain ⟨ops, hlen, hops⟩ := ih
    have hlast := memWrite_emits e a vs u
    rw [hlast.af]
    exact ⟨_, by simp [hlen], hops.trans hlast⟩
  | @read n u h b r ih =>
    obtain ⟨ops, hlen, hops⟩ := ih
    have hlast := (regRead_effect e b r u).1
    rw [hlast.af]
    exact ⟨_, by simp [hlen, regReadOps], hops.trans hlast⟩
  | latch h f i he hi ih =>
    obtain ⟨ops, hlen, hops⟩ := ih
    exact ⟨ops, hlen, hops.tr, hops.ptr, hops.params, rfl, hops.ph, hops.responses, hops.cmdPort, hops.agenda⟩

/-- Every transaction stands in the trace. -/
theorem Moves.tr_length (h : Moves e s n t) : t.tr.length = s.tr.length + n := by
  obtain ⟨ops, hlen, hops⟩ := h.emits
  rw [hops.tr, List.length_append, List.length_map, hlen]

/-- Moves keep the frame buffer RAM canonical. -/
theorem Moves.wf (h : Moves e s n t) (hm : Memory.wf s.fbr = true) : Memory.wf t.fbr = true := by
  induction h with
  | refl => exact hm
  | write h a vs ih => exact memWrite_wf e a vs ih
  | read h b r ih => exact regRead_wf e b r ih
  | latch h f i he hi ih => exact ih

/-- Only the commands that write AF change it. -/
theorem Moves.af (h : Moves e s n t) : t.af = s.af ∨ ∃ i, e = .command i ∧ WritesActiveFrame i := by
  induction h with
  | refl => exact .inl rfl
  | write h a vs ih => rwa [(memWrite_emits e a vs _).af]
  | read h b r ih => rwa [(regRead_effect e b r _).1.af]
  | latch h f i he hi ih => exact .inr ⟨i, he, hi⟩

end

/-! ### How a command ends -/

/-- WRAW with more payload than a plane has cells (R151). -/
def Oversized : Instr → Prop
  | .wraw _ payload => 144 < payload.length
  | _ => False

/-- The commands that check no operand. -/
def ChecksNothing : Instr → Prop
  | .reset | .init | .sleep _ | .blinkq | .xlat _ _ => True
  | _ => False

/-- The values a command returns (R86). -/
def Returns (v : BitVec 16) : Instr → Prop
  | .rdr _ _ => v.toNat ≤ 255
  | .blinkq => v.toNat ≤ 1890
  | .xlat _ _ => v.toNat ≤ 142 ∨ v = 0xFFFF
  | _ => v = 0

/-- The responses a command can give (60_exceptions.md R171 to R174). -/
def Answers (i : Instr) (v : BitVec 16) : Status → Prop
  | .ok => ¬ Oversized i ∧ Returns v i
  | .rangeError => ¬ Oversized i ∧ ¬ ChecksNothing i ∧ v = 0
  | .sizeError => Oversized i ∧ v = 0
  | .illegalCommand => False

/-- The commands that read AF, in the form in which they read it. -/
def ReadsActiveFrame (i : Instr) : Prop :=
  (∃ color blink, i = .fill none color blink) ∨ (∃ payload, i = .wraw none payload) ∨
    (∃ x y color blink, i = .setpx x y color blink none) ∨ ∃ d l n, i = .autoplay d l n

/-- The state with another byte in BSR. -/
def State.withBsr (s : State) (b : Byte) : State := { s with bsr := b }

/-- How command `i` can end, from `s` and from `s` with `b` in BSR. -/
inductive Behaves (i : Instr) (s : State) (b : Byte) : Result → Result → Prop
  | stays {st : Status} {v : BitVec 16} (h : Answers i v st) :
    Behaves i s b (.next (respond st v s)) (.next (respond st v (s.withBsr b)))
  | refused (h : ReadsActiveFrame i) (haf : s.af = none) :
    Behaves i s b (.refused .activeFrameUnset) (.refused .activeFrameUnset)
  | ran {v : BitVec 16} {n : Nat} {t : State} (h : Answers i v .ok) (hmoves : Moves (.command i) s n t)
      (hn : 0 < n ∧ n ≤ 638) : Behaves i s b (.next (respond .ok v t)) (.next (respond .ok v t))

/-! ### After a bank select the earlier BSR is forgotten -/

section
variable (s : State) (b : Byte) (e : Emitter)

@[simp] theorem withBsr_params : (s.withBsr b).params = s.params := rfl
@[simp] theorem withBsr_af : (s.withBsr b).af = s.af := rfl
@[simp] theorem withBsr_with_af (a : Option (Fin 8)) :
    { s.withBsr b with af := a } = State.withBsr { s with af := a } b := rfl

@[simp] theorem targetFrame_withBsr (fr : Option (Fin 8)) : targetFrame fr (s.withBsr b) = targetFrame fr s := rfl

@[simp] theorem select_withBsr (c : Byte) : select e c (s.withBsr b) = select e c s := by
  rw [select_eq, select_eq]
  rfl

@[simp] theorem regWrite_withBsr (c r v : Byte) : regWrite e c r v (s.withBsr b) = regWrite e c r v s := by
  rw [regWrite, regWrite, select_withBsr]

@[simp] theorem regRead_withBsr (c r : Byte) : regRead e c r (s.withBsr b) = regRead e c r s := by
  rw [regRead, regRead, select_withBsr]

@[simp] theorem cfgWrite_withBsr (n : CfgName) (v : Byte) : cfgWrite e n v (s.withBsr b) = cfgWrite e n v s :=
  regWrite_withBsr ..

end

/-! ### Values and checks -/

/-- A byte zero-extended is a byte's value. -/
theorem zeroExtended_le (v : Byte) : (v.setWidth 16).toNat ≤ 255 := by
  have h := v.isLt
  rw [BitVec.toNat_setWidth]
  omega

/-- The longest blink period is seven units. -/
theorem blinkPeriod_le (v : Byte) : (BitVec.ofNat 16 ((v &&& 0x07).toNat * 270)).toNat ≤ 1890 := by
  rw [and_seven_toNat, BitVec.toNat_ofNat]
  exact (Nat.mod_le _ _).trans (by omega)

theorem addr_bounds (x : Fin 17) (y : Fin 7) : 1 ≤ (addr x y).val ∧ (addr x y).val ≤ 142 := by
  rw [addr_val]
  split <;> omega

theorem cellIndex_le (x : Fin 17) (y : Fin 7) : (BitVec.ofNat 16 (addr x y).val).toNat ≤ 142 := by
  have h := addr_bounds x y
  rw [BitVec.toNat_ofNat]
  omega

/-- Without a target the frame operand is absent and AF unset. -/
theorem noTarget {s : State} {frame : Option Operand} {fr : Option (Fin 8)}
    (hfr : checkOptional frameOperand frame = some fr) (h : targetFrame fr s = none) : frame = none ∧ s.af = none := by
  cases frame with
  | none =>
    cases hfr
    exact ⟨rfl, h⟩
  | some v =>
    obtain ⟨f, -, rfl⟩ := Option.map_eq_some_iff.mp hfr
    cases h

/-! ### The commands -/

section
variable (s : State) (b : Byte)

theorem execSelb_behaves (bank : Operand) :
    Behaves (.selb bank) s b (execSelb bank s) (execSelb bank (s.withBsr b)) := by
  simp only [execSelb, withBsr_params, select_withBsr]
  cases bankOperand s.params bank with
  | none => exact .stays (st := .rangeError) ⟨not_false, not_false, rfl⟩
  | some c => exact .ran ⟨not_false, rfl⟩ (Moves.refl.select c) (by omega)

theorem execRdr_behaves (bank reg : Operand) :
    Behaves (.rdr bank reg) s b (execRdr bank reg s) (execRdr bank reg (s.withBsr b)) := by
  simp only [execRdr, withBsr_params, regRead_withBsr]
  split
  · exact .ran ⟨not_false, zeroExtended_le _⟩ (Moves.refl.read ..) (by omega)
  · exact .stays (st := .rangeError) ⟨not_false, not_false, rfl⟩

theorem execWrr_behaves (bank reg value : Operand) :
    Behaves (.wrr bank reg value) s b (execWrr bank reg value s) (execWrr bank reg value (s.withBsr b)) := by
  simp only [execWrr, withBsr_params, regWrite_withBsr]
  split
  · exact .ran ⟨not_false, rfl⟩ (Moves.refl.regWrite ..) (by omega)
  · exact .stays (st := .rangeError) ⟨not_false, not_false, rfl⟩

theorem execReset_behaves : Behaves .reset s b (execReset s) (execReset (s.withBsr b)) := by
  simp only [execReset, resetSequence, withBsr_params, cfgWrite_withBsr]
  exact .ran ⟨not_false, rfl⟩ Moves.refl.resetSequence (by omega)

theorem execInit_behaves : Behaves .init s b (execInit s) (execInit (s.withBsr b)) := by
  simp only [execInit, withBsr_params, cfgWrite_withBsr]
  have hstart := (Moves.refl (e := .command .init) (s := s)).cfgWrite .mode s.params.modePicture
  have hframe := (hstart.latch 0 .init rfl (.inl rfl)).cfgWrite .frame 0x00
  have hframes := hframe.foldl (k := 79) (fun f h => h.initFrame f) (List.finRange 8)
  exact .ran ⟨not_false, rfl⟩ (hframes.cfgWrite ..) (by simp)

theorem execSleep_behaves (enable : Operand) :
    Behaves (.sleep enable) s b (execSleep enable s) (execSleep enable (s.withBsr b)) := by
  simp only [execSleep, withBsr_params, cfgWrite_withBsr]
  split <;> exact .ran ⟨not_false, rfl⟩ (Moves.refl.cfgWrite ..) (by omega)

theorem execAutoplay_behaves (d l n : Operand) :
    Behaves (.autoplay d l n) s b (execAutoplay d l n s) (execAutoplay d l n (s.withBsr b)) := by
  simp only [execAutoplay, withBsr_params, withBsr_af, cfgWrite_withBsr]
  split
  · exact .ran ⟨not_false, rfl⟩ (Moves.refl.cfgWrite ..) (by omega)
  · split
    · split
      next haf => exact .refused (.inr (.inr (.inr ⟨d, l, n, rfl⟩))) haf
      · exact .ran ⟨not_false, rfl⟩ (((Moves.refl.cfgWrite ..).cfgWrite ..).cfgWrite ..) (by omega)
    · exact .stays (st := .rangeError) ⟨not_false, not_false, rfl⟩

theorem execAudioplay_behaves (rate gain agcEnable agcFast : Operand) :
    Behaves (.audioplay rate gain agcEnable agcFast) s b (execAudioplay rate gain agcEnable agcFast s)
      (execAudioplay rate gain agcEnable agcFast (s.withBsr b)) := by
  simp only [execAudioplay, withBsr_params, cfgWrite_withBsr]
  split
  · exact .ran ⟨not_false, rfl⟩ (Moves.refl.cfgWrite ..) (by omega)
  · split
    · exact .ran ⟨not_false, rfl⟩ (((Moves.refl.cfgWrite ..).cfgWrite ..).cfgWrite ..) (by omega)
    · exact .stays (st := .rangeError) ⟨not_false, not_false, rfl⟩

theorem execBlinkrate_behaves (rateMs : Operand) :
    Behaves (.blinkrate rateMs) s b (execBlinkrate rateMs s) (execBlinkrate rateMs (s.withBsr b)) := by
  simp only [execBlinkrate, withBsr_params, cfgWrite_withBsr]
  split
  · exact .stays (st := .rangeError) ⟨not_false, not_false, rfl⟩
  · split <;> exact .ran ⟨not_false, rfl⟩ (Moves.refl.cfgWrite ..) (by omega)

theorem execBlinkq_behaves : Behaves .blinkq s b (execBlinkq s) (execBlinkq (s.withBsr b)) := by
  simp only [execBlinkq, withBsr_params, regRead_withBsr]
  exact .ran ⟨not_false, blinkPeriod_le _⟩ (Moves.refl.read ..) (by omega)

theorem setFade_behaves (fadeIn fadeOut : Option Operand) (pauseMs i o : Operand) :
    Behaves (.fade fadeIn fadeOut pauseMs) s b (setFade (.command (.fade fadeIn fadeOut pauseMs)) i o pauseMs s)
      (setFade (.command (.fade fadeIn fadeOut pauseMs)) i o pauseMs (s.withBsr b)) := by
  simp only [setFade, cfgWrite_withBsr]
  split
  · exact .ran ⟨not_false, rfl⟩ ((Moves.refl.cfgWrite ..).cfgWrite ..) (by omega)
  · exact .stays (st := .rangeError) ⟨not_false, not_false, rfl⟩

theorem execFade_behaves (fadeIn fadeOut : Option Operand) (pauseMs : Operand) :
    Behaves (.fade fadeIn fadeOut pauseMs) s b (execFade fadeIn fadeOut pauseMs s)
      (execFade fadeIn fadeOut pauseMs (s.withBsr b)) := by
  match fadeIn, fadeOut with
  | none, none =>
    simp only [execFade, cfgWrite_withBsr]
    exact .ran ⟨not_false, rfl⟩ (Moves.refl.cfgWrite ..) (by omega)
  | some i, none => exact setFade_behaves s b _ _ pauseMs i i
  | none, some o => exact setFade_behaves s b _ _ pauseMs o o
  | some i, some o => exact setFade_behaves s b _ _ pauseMs i o

theorem execXlat_behaves (x y : Operand) :
    Behaves (.xlat x y) s b (execXlat x y s) (execXlat x y (s.withBsr b)) := by
  rw [execXlat, execXlat]
  split
  · exact .stays (st := .ok) ⟨not_false, .inr rfl⟩
  · exact .stays (st := .ok) ⟨not_false, .inl (cellIndex_le _ _)⟩

theorem execFill_behaves (frame color blink : Option Operand) :
    Behaves (.fill frame color blink) s b (execFill frame color blink s)
      (execFill frame color blink (s.withBsr b)) := by
  simp only [execFill, targetFrame_withBsr, select_withBsr]
  split
  next fr c hfr hc =>
    split
    next htarget =>
      obtain ⟨rfl, haf⟩ := noTarget hfr htarget
      exact .refused (.inl ⟨color, blink, rfl⟩) haf
    next f htarget =>
      obtain ⟨m, hm, hmoves⟩ := (Moves.refl.select (frameBank f)).fillPlanes f c blink
      exact .ran ⟨not_false, rfl⟩ hmoves (by omega)
  · exact .stays (st := .rangeError) ⟨not_false, not_false, rfl⟩

theorem execWraw_behaves (frame : Option Operand) (payload : List Byte) :
    Behaves (.wraw frame payload) s b (execWraw frame payload s) (execWraw frame payload (s.withBsr b)) := by
  simp only [execWraw, withBsr_params, targetFrame_withBsr, select_withBsr]
  split
  next hlen => exact .stays (st := .sizeError) ⟨hlen, rfl⟩
  next hlen =>
    split
    · exact .stays (st := .rangeError) ⟨hlen, not_false, rfl⟩
    next fr hfr =>
      split
      next htarget =>
        obtain ⟨rfl, haf⟩ := noTarget hfr htarget
        exact .refused (.inr (.inl ⟨payload, rfl⟩)) haf
      · exact .ran ⟨hlen, rfl⟩ ((Moves.refl.select _).write ..) (by omega)

theorem setPixel_withBsr (e : Emitter) (f : Fin 8) (i : Fin 144) (c : Option Byte) (blink : Option Operand)
    (hw : c.isSome = true ∨ blink.isSome = true ∧ s.params.pixelBlinkImpl = true) :
    setPixel e f i c blink (s.withBsr b) = setPixel e f i c blink s := by
  cases c with
  | some c =>
    have hcolor : setPixelColor e f i c (s.withBsr b) = setPixelColor e f i c s := regWrite_withBsr ..
    cases blink with
    | none => exact hcolor
    | some v => simp only [setPixel, hcolor]
  | none =>
    cases blink with
    | none => simp at hw
    | some v =>
      have himpl : s.params.pixelBlinkImpl = true := by simpa using hw
      simp only [setPixel, withBsr_params, if_pos himpl, setPixelBlink, regRead_withBsr]

/-- A checked colour is present exactly when the operand is. -/
theorem checkOptional_isSome {α : Type} {check : Operand → Option α} {o : Option Operand} {c : Option α}
    (h : checkOptional check o = some c) : c.isSome = o.isSome := by
  cases o with
  | none =>
    cases h
    rfl
  | some v =>
    obtain ⟨a, -, rfl⟩ := Option.map_eq_some_iff.mp h
    rfl

theorem execSetpx_behaves (x y : Operand) (color blink frame : Option Operand) :
    Behaves (.setpx x y color blink frame) s b (execSetpx x y color blink frame s)
      (execSetpx x y color blink frame (s.withBsr b)) := by
  simp only [execSetpx, targetFrame_withBsr]
  split
  · exact .stays (st := .ok) ⟨not_false, rfl⟩
  next px py hpixel =>
    split
    next fr c hfr hc =>
      by_cases hwrites : setPixelWrites s.params color blink = true
      · rw [if_pos hwrites, if_pos (by exact hwrites)]
        split
        next htarget =>
          obtain ⟨rfl, haf⟩ := noTarget hfr htarget
          exact .refused (.inr (.inr (.inl ⟨x, y, color, blink, rfl⟩))) haf
        next f htarget =>
          have hw : c.isSome = true ∨ blink.isSome = true ∧ s.params.pixelBlinkImpl = true := by
            rw [checkOptional_isSome hc]
            simpa [setPixelWrites] using hwrites
          obtain ⟨m, hpos, hm, hmoves⟩ := Moves.refl.setPixel f (addr px py) c blink hw
          rw [setPixel_withBsr s b _ _ _ _ _ hw]
          exact .ran ⟨not_false, rfl⟩ hmoves (by omega)
      · rw [if_neg hwrites, if_neg (by exact hwrites)]
        exact .stays (st := .ok) ⟨not_false, rfl⟩
    · exact .stays (st := .rangeError) ⟨not_false, not_false, rfl⟩

theorem execFrame_behaves (frame : Operand) :
    Behaves (.frame frame) s b (execFrame frame s) (execFrame frame (s.withBsr b)) := by
  simp only [execFrame, withBsr_with_af, cfgWrite_withBsr]
  split
  · exact .stays (st := .rangeError) ⟨not_false, not_false, rfl⟩
  next f hf =>
    exact .ran ⟨not_false, rfl⟩ ((Moves.refl.latch f _ rfl (.inr ⟨frame, rfl⟩)).cfgWrite ..) (by omega)

/-- What every command can do. -/
theorem exec_behaves {i : Instr} (hi : i.isCommand = true) : Behaves i s b (exec i s) (exec i (s.withBsr b)) := by
  cases i with
  | selb bank => exact execSelb_behaves s b bank
  | rdr bank reg => exact execRdr_behaves s b bank reg
  | wrr bank reg value => exact execWrr_behaves s b bank reg value
  | reset => exact execReset_behaves s b
  | init => exact execInit_behaves s b
  | sleep enable => exact execSleep_behaves s b enable
  | autoplay delayMs loops frames => exact execAutoplay_behaves s b delayMs loops frames
  | audioplay rate gain agcEnable agcFast => exact execAudioplay_behaves s b rate gain agcEnable agcFast
  | blinkrate rateMs => exact execBlinkrate_behaves s b rateMs
  | blinkq => exact execBlinkq_behaves s b
  | fade fadeIn fadeOut pauseMs => exact execFade_behaves s b fadeIn fadeOut pauseMs
  | xlat x y => exact execXlat_behaves s b x y
  | fill frame color blink => exact execFill_behaves s b frame color blink
  | wraw frame payload => exact execWraw_behaves s b frame payload
  | setpx x y color blink frame => exact execSetpx_behaves s b x y color blink frame
  | frame frame => exact execFrame_behaves s b frame
  | bwr dev reg data => exact absurd hi Bool.false_ne_true
  | brd dev reg n => exact absurd hi Bool.false_ne_true

end

/-! ### What follows for every command -/

/-- Settles O47: a command that is over before its first transaction leaves BSR as it found it; any other does the same
moves from both states, and has emitted something. -/
theorem bankInsensitive : Obligations.BankInsensitive := by
  intro i s b hi
  have h : Behaves i s b (exec i s) (exec i { s with bsr := b }) := exec_behaves s b hi
  generalize exec i s = r at h
  generalize exec i { s with bsr := b } = r' at h
  cases h with
  | stays hanswer =>
    refine ⟨_, rfl, rfl, rfl, ?_⟩
    rw [if_pos (respond_tr ..)]
    rfl
  | refused hreads haf => rfl
  | @ran v n t hanswer hmoves hn =>
    have hgrew : (respond .ok v t).tr ≠ s.tr := by
      intro htr
      have hlen := hmoves.tr_length
      rw [← respond_tr .ok v t, htr] at hlen
      omega
    refine ⟨_, rfl, rfl, rfl, ?_⟩
    rw [if_neg hgrew]

/-- What a command that answers has done: it gave one response, after some moves. -/
theorem exec_next {i : Instr} {s t : State} (hi : i.isCommand = true) (h : exec i s = .next t) :
    ∃ st v n u, Answers i v st ∧ Moves (.command i) s n u ∧ n ≤ 638 ∧ t = respond st v u := by
  have hb := exec_behaves s 0 hi
  rw [h] at hb
  generalize exec i (s.withBsr 0) = r' at hb
  cases hb with
  | stays hanswer => exact ⟨_, _, 0, s, hanswer, .refl, by omega, rfl⟩
  | ran hanswer hmoves hn => exact ⟨_, _, _, _, hanswer, hmoves, hn.2, rfl⟩

/-- Settles O42: moves touch neither the responses nor the ports, and the response is given once. -/
theorem commandAnswersOnce : Obligations.CommandAnswersOnce := by
  intro i s t hi h
  obtain ⟨st, v, n, u, -, hmoves, -, rfl⟩ := exec_next hi h
  obtain ⟨ops, -, hops⟩ := hmoves.emits
  exact ⟨⟨_, congrArg (· ++ _) hops.responses⟩, rfl, hops.cmdPort, hops.agenda, hops.params⟩

/-- Settles O52: INIT's 638 moves are the most. -/
theorem transactionsBounded : Obligations.TransactionsBounded := by
  intro i s t hi h
  obtain ⟨st, v, n, u, -, hmoves, hn, rfl⟩ := exec_next hi h
  obtain ⟨ops, hlen, hops⟩ := hmoves.emits
  exact ⟨ops, hops.tr, hlen ▸ hn⟩

/-- Settles O45: every command ends in one of the three ways, and the transactions never stop. -/
theorem onlyUnsetActiveFrameStops : Obligations.OnlyUnsetActiveFrameStops := by
  intro i s
  cases hi : i.isCommand with
  | false =>
    obtain ⟨t, ht, -⟩ := exec_transacts hi s
    rw [ht]
    exact ⟨nofun, nofun⟩
  | true =>
    have h := exec_behaves s 0 hi
    generalize exec i s = r at h
    generalize exec i (s.withBsr 0) = r' at h
    cases h with
    | stays hanswer => exact ⟨nofun, nofun⟩
    | ran hanswer hmoves hn => exact ⟨nofun, nofun⟩
    | refused hreads haf =>
      refine ⟨nofun, fun r h => ?_⟩
      cases h
      exact ⟨rfl, haf, hreads⟩

/-! ### Responses -/

theorem oversized_iff {i : Instr} : Oversized i ↔ ∃ frame payload, i = .wraw frame payload ∧ 144 < payload.length := by
  constructor
  · intro h
    cases i with
    | wraw frame payload => exact ⟨frame, payload, rfl, h⟩
    | _ => exact h.elim
  · rintro ⟨frame, payload, rfl, h⟩
    exact h

section
variable {i : Instr} {v : BitVec 16} {st : Status}

theorem Answers.sizeError_iff (h : Answers i v st) : st = .sizeError ↔ Oversized i := by
  cases st with
  | ok => exact iff_of_false nofun h.1
  | rangeError => exact iff_of_false nofun h.1
  | sizeError => exact iff_of_true rfl h.1
  | illegalCommand => exact h.elim

theorem Answers.ok_of_checksNothing (h : Answers i v st) (hi : ChecksNothing i) : st = .ok := by
  cases st with
  | ok => rfl
  | rangeError => exact absurd hi h.2.1
  | sizeError =>
    obtain ⟨frame, payload, rfl, -⟩ := oversized_iff.mp h.1
    exact hi.elim
  | illegalCommand => exact h.elim

theorem Answers.ok_of_value (h : Answers i v st) (hv : v ≠ 0) : st = .ok ∧ Returns v i := by
  cases st with
  | ok => exact ⟨rfl, h.2⟩
  | rangeError => exact absurd h.2.2 hv
  | sizeError => exact absurd h.2 hv
  | illegalCommand => exact h.elim

end

/-- RDR, BLINKQ and XLAT are the commands that return a value. -/
theorem Returns.cases {i : Instr} {v : BitVec 16} (h : Returns v i) (hv : v ≠ 0) :
    (∃ b g, i = .rdr b g ∧ v.toNat ≤ 255) ∨ (i = .blinkq ∧ v.toNat ≤ 1890) ∨
      ∃ x y, i = .xlat x y ∧ (v.toNat ≤ 142 ∨ v = 0xFFFF) := by
  cases i with
  | rdr bank reg => exact .inl ⟨bank, reg, rfl, h⟩
  | blinkq => exact .inr (.inl ⟨rfl, h⟩)
  | xlat x y => exact .inr (.inr ⟨x, y, rfl, h⟩)
  | _ => exact absurd h hv

theorem Response.bytes_toNat (r : Response) :
    r.bytes.map BitVec.toNat = [r.status.code.toNat, r.value.toNat / 256, r.value.toNat % 256] := by
  have h := r.value.isLt
  simp only [Response.bytes, List.map_cons, List.map_nil, BitVec.toNat_setWidth, BitVec.toNat_ushiftRight,
    Nat.shiftRight_eq_div_pow]
  congr 2
  omega

theorem Response.word_toNat (r : Response) : r.word.toNat = r.status.code.toNat * 65536 + r.value.toNat := by
  rw [Response.word, BitVec.toNat_append, ← Nat.shiftLeft_add_eq_or_of_lt r.value.isLt, Nat.shiftLeft_eq]

/-- Settles O44: what `Answers` says of the command, and the bytes of the response. -/
theorem responseOutcomes : Obligations.ResponseOutcomes := by
  intro i s t r hi h hlast
  obtain ⟨st, v, n, u, hanswer, -, -, rfl⟩ := exec_next hi h
  rw [lastResponse_respond] at hlast
  cases hlast
  refine ⟨?legal, hanswer.sizeError_iff.trans oversized_iff, ?always, fun hv => ?value, ?bytes, Response.word_toNat _⟩
  case legal =>
    rintro rfl
    exact hanswer
  case always =>
    rintro (rfl | rfl | ⟨e, rfl⟩ | rfl | ⟨x, y, rfl⟩) <;> exact hanswer.ok_of_checksNothing trivial
  case value =>
    obtain ⟨hst, hreturns⟩ := hanswer.ok_of_value hv
    exact ⟨hst, hreturns.cases hv⟩
  case bytes =>
    rw [Response.bytes_toNat]
    cases st <;> rfl

/-- Settles O48: only a latch move changes AF. -/
theorem activeFrameWriters : Obligations.ActiveFrameWriters := by
  intro i s t h haf
  cases hi : i.isCommand with
  | true =>
    obtain ⟨st, v, n, u, -, hmoves, -, rfl⟩ := exec_next hi h
    obtain hkept | ⟨j, hj, hwrites⟩ := hmoves.af
    · exact absurd hkept haf
    · cases hj
      exact hwrites
  | false =>
    obtain ⟨u, hu, hkeeps⟩ := exec_transacts hi s
    cases hu.symm.trans h
    exact absurd hkeeps.af haf

end Sys2Proof.Machine
end

section
/-! PROOFS of the statements about the step: whose turn it is and what that agent does, and what every step keeps. -/

namespace Sys2Proof.Machine

/-! ### The BRP's turn -/

/-- It is the BRP's turn, and `later` are the turns after it. -/
def BrpTurn (s : State) (later : List Event) : Prop := s.agenda = [] ∧ later = [] ∨ s.agenda = .brp :: later

section
variable {s : State} {later : List Event}

theorem fetch_brp (hph : s.ph = .idle) (hturn : BrpTurn s later) :
    fetch s = fetchCommand { s with agenda := later } := by
  obtain ⟨hagenda, rfl⟩ | hagenda := hturn
  · have hsame : { s with agenda := [] } = s := by rw [← hagenda]
    rw [hsame]
    simp only [fetch, hph, hagenda]
  · simp only [fetch, hph, hagenda]

theorem step_decoded (hph : s.ph = .idle) (hturn : BrpTurn s later) {i : Instr} {rest : List Byte}
    (h : decodeFrame s.cmdPort = .ok (i, rest)) : step s = exec i (accept rest { s with agenda := later }) := by
  simp only [step, fetch_brp hph hturn, fetchCommand, h]

theorem step_illegal (hph : s.ph = .idle) (hturn : BrpTurn s later) (h : decodeFrame s.cmdPort = .error .illegalHead) :
    step s = .next (answerIllegal { s with agenda := later }) := by
  simp only [step, fetch_brp hph hturn, fetchCommand, h]

theorem step_waits (hph : s.ph = .idle) (hturn : BrpTurn s later) {r : Reject} (hr : r ≠ .illegalHead)
    (h : decodeFrame s.cmdPort = .error r) : step s = .next { s with agenda := later } := by
  cases r with
  | illegalHead => exact absurd rfl hr
  | _ => simp only [step, fetch_brp hph hturn, fetchCommand, h]

theorem step_busy (hph : s.ph = .busy) : step s = .next s := by simp only [step, fetch, hph]

end

/-- Settles O6: the BRP fetches the command and accepts it. -/
theorem stepRunsDecodedCommand : Obligations.StepRunsDecodedCommand :=
  fun _ _ _ _ hph hturn h => step_decoded hph hturn h

/-- A frame whose head matches no row is illegal, whatever its fields. -/
theorem decodeFrame_illegal {op pf : Byte} {body : List Byte} (hbody : body.length = 10)
    (h : opOfHead (wordOf op pf) = none) (rest : List Byte) :
    decodeFrame (op :: pf :: (body ++ rest)) = .error .illegalHead := by
  match body with
  | [a1, a0, b1, b0, c1, c0, d1, d0, e1, e0] =>
    simp only [List.cons_append, List.nil_append, decodeFrame, h]

/-- Settles O8: the frame is answered and its 12 bytes are dropped. -/
theorem illegalFrameAnswered : Obligations.IllegalFrameAnswered := by
  intro s op pf body rest later hph hturn hport hbody hrows
  have hdecode : decodeFrame s.cmdPort = .error .illegalHead := by
    rw [hport]
    exact decodeFrame_illegal hbody (opOfHead_eq_none.mpr hrows) rest
  have hdrop : s.cmdPort.drop 12 = rest := by
    rw [hport]
    exact List.drop_left' hbody
  rw [step_illegal hph hturn hdecode, answerIllegal, hdrop, respond, hph]

theorem decodeFrame_short {bytes : List Byte} (h : bytes.length < 12) :
    decodeFrame bytes = .error .incompleteFrame := by
  rw [decodeFrame.eq_def]
  split
  · simp only [List.length_cons] at h
    omega
  · rfl

/-- A WRAW frame with a part of its payload. -/
theorem decodeFrame_wraw_part {frame : Option Operand} {payload part : List Byte}
    (hwf : (Instr.wraw frame payload).wf = true) (hpart : part.length < payload.length) :
    decodeFrame ((encode (.wraw frame payload)).take 12 ++ part) = .error .incompletePayload := by
  have hwf' : payload.length < 65536 := of_decide_eq_true hwf
  have hlen : (BitVec.ofNat 16 payload.length).toNat = payload.length := by
    rw [BitVec.toNat_ofNat, Nat.mod_eq_of_lt hwf']
  have hshort : part.length < (BitVec.ofNat 16 payload.length).toNat := hlen.symm ▸ hpart
  rw [encode, List.take_left' (frameBytes_length ..)]
  cases frame <;> simp only [pfBit_none, pfBit_some] <;> exact decodeFrame_of_head .wraw rfl (if_pos hshort)

/-- Settles O9: neither is a frame the decoder reads or rejects as illegal, so the BRP waits. -/
theorem incompleteFrameWaits : Obligations.IncompleteFrameWaits := by
  refine ⟨fun s later hph hturn hlen => ?_, fun s later frame payload part hph hturn hwf hpart hport => ?_,
    fun s hph => step_busy hph⟩
  · exact step_waits (r := .incompleteFrame) hph hturn nofun (decodeFrame_short hlen)
  · exact step_waits (r := .incompletePayload) hph hturn nofun (hport ▸ decodeFrame_wraw_part hwf hpart)

/-! ### The turns of the other agents -/

section
variable {s : State} {later : List Event}

theorem step_hostSend (hph : s.ph = .idle) {bytes : List Byte} (h : s.agenda = .hostSend bytes :: later) :
    step s = .next (hostSend bytes { s with agenda := later }) := by simp only [step, fetch, hph, h]

theorem step_hostReceive (hph : s.ph = .idle) (h : s.agenda = .hostReceive :: later) :
    step s = .next (hostReceive { s with agenda := later }) := by simp only [step, fetch, hph, h]

theorem step_ext (hph : s.ph = .idle) {m : ExtMove} (h : s.agenda = .ext m :: later) :
    step s = .next (extMove m { s with agenda := later }) := by simp only [step, fetch, hph, h]

theorem step_disp (hph : s.ph = .idle) (h : s.agenda = .disp :: later) : step s = .next { s with agenda := later } := by
  simp only [step, fetch, hph, h]

theorem step_record (hph : s.ph = .idle) {bytes : List Byte} (h : s.agenda = .bus bytes :: later) {i : Instr}
    (hdecode : decodeRecord bytes = .ok i) : step s = exec i { s with agenda := later } := by
  simp only [step, fetch, hph, h, hdecode]

theorem step_malformed (hph : s.ph = .idle) {bytes : List Byte} (h : s.agenda = .bus bytes :: later) {r : Reject}
    (hdecode : decodeRecord bytes = .error r) : step s = .fault .malformedRecord := by
  simp only [step, fetch, hph, h, hdecode]

end

/-- Settles O7: the record is decoded, or it stops the machine. -/
theorem stepRunsDecodedRecord : Obligations.StepRunsDecodedRecord :=
  fun _ _ _ hph hagenda => ⟨fun _ => step_record hph hagenda, fun _ => step_malformed hph hagenda⟩

/-- Settles O10: move (a) is a change of BSR, move (b) the reset sequence. -/
theorem extMovesBetweenCommands : Obligations.ExtMovesBetweenCommands := by
  intro s later hph
  refine ⟨fun v h => step_ext hph h, fun hs h => ⟨_, step_ext hph h, ?_⟩⟩
  rw [extMove, resetSequence_eq .ext (s := { s with agenda := later }) hs.params]
  refine ⟨rfl, rfl, ?frame, ⟨rfl, rfl⟩, hph, rfl, rfl, rfl, rfl, rfl, rfl⟩
  case frame => refine devFrame_cfg (n := .shutdown) (v := s.params.shutdownOff) ?_ ?_ <;> rfl

/-- Settles O58: each turn by its equation; the command HOST presented is decoded from its encoding. -/
theorem hostAndDisplayTurns : Obligations.HostAndDisplayTurns := by
  intro s later hph
  refine ⟨fun bytes h => step_hostSend hph h, fun h => ⟨fun oldest rest hresp => ?first, fun hresp => ?none⟩,
    fun i hwf hi hport h => ⟨_, step_hostSend hph h, ?runs⟩, step_disp hph⟩
  case first => rw [step_hostReceive hph h, hostReceive, hresp, List.tail_cons]
  case none => rw [step_hostReceive hph h, hostReceive, hresp, List.tail_nil, ← hresp]
  case runs =>
    have hdecode : decodeFrame (s.cmdPort ++ encode i) = .ok (i, []) := by
      rw [hport, List.nil_append, ← List.append_nil (encode i)]
      exact commandRoundTrip i [] hwf hi
    exact step_decoded (s := hostSend (encode i) { s with agenda := .brp :: later }) hph (.inr rfl) hdecode

/-! ### What every step keeps -/

/-- What holds from the state before an instruction to the state after it. -/
structure Keeps (s t : State) : Prop where
  params    : t.params = s.params
  tr        : ∃ new, t.tr = s.tr ++ new
  responses : ∃ answers, t.responses = s.responses ++ answers
  ptr       : s.ptr = none → t.ptr = none
  memory    : Memory.wf s.fbr = true → Memory.wf t.fbr = true

theorem Keeps.refl (s : State) : Keeps s s :=
  ⟨rfl, ⟨[], (List.append_nil _).symm⟩, ⟨[], (List.append_nil _).symm⟩, id, id⟩

theorem Transacts.keeps {s t : State} (h : Transacts s t) : Keeps s t :=
  ⟨h.params, h.tr, ⟨[], by rw [h.responses, List.append_nil]⟩, h.ptr, h.memory⟩

theorem Moves.keeps {e : Emitter} {s t : State} {n : Nat} (h : Moves e s n t) : Keeps s t := by
  obtain ⟨ops, -, hops⟩ := h.emits
  refine ⟨hops.params, ⟨_, hops.tr⟩, ⟨[], by rw [hops.responses, List.append_nil]⟩, fun hptr => ?_, h.wf⟩
  rw [hops.ptr]
  split
  · exact hptr
  · rfl

theorem Keeps.respond {s t : State} (h : Keeps s t) (st : Status) (v : BitVec 16) : Keeps s (respond st v t) := by
  obtain ⟨answers, hanswers⟩ := h.responses
  refine ⟨h.params, h.tr, ⟨answers ++ [⟨st, v⟩], ?_⟩, h.ptr, h.memory⟩
  rw [respond_responses, hanswers, List.append_assoc]

/-- A command ends with PH idle. -/
theorem exec_command_keeps {i : Instr} {s t : State} (hi : i.isCommand = true) (h : exec i s = .next t) :
    Keeps s t ∧ t.ph = .idle := by
  obtain ⟨st, v, n, u, -, hmoves, -, rfl⟩ := exec_next hi h
  exact ⟨hmoves.keeps.respond st v, rfl⟩

/-- A record is a transaction, and leaves PH alone. -/
theorem exec_record_keeps {bytes : List Byte} {i : Instr} {s t : State} (hi : decodeRecord bytes = .ok i)
    (h : exec i s = .next t) : Keeps s t ∧ t.ph = s.ph := by
  have hcommand : i.isCommand = false := by
    obtain ⟨dev, reg, data, rfl⟩ | ⟨dev, reg, n, rfl⟩ := decodeRecord_isTransaction hi
    · rfl
    · rfl
  obtain ⟨u, hu, hkeeps⟩ := exec_transacts hcommand s
  cases hu.symm.trans h
  exact ⟨hkeeps.keeps, hkeeps.ph⟩

theorem extMove_keeps (m : ExtMove) (s : State) : Keeps s (extMove m s) ∧ (extMove m s).ph = s.ph := by
  cases m with
  | setBsr v => exact ⟨⟨rfl, (Keeps.refl s).tr, (Keeps.refl s).responses, id, id⟩, rfl⟩
  | reset =>
    have hmoves := (Moves.refl (e := .ext) (s := s)).resetSequence
    obtain ⟨ops, -, hops⟩ := hmoves.emits
    exact ⟨hmoves.keeps, hops.ph⟩

/-- Where the turn is taken from the agenda, or bytes from the port, `Keeps` does not notice. -/
theorem Keeps.of_ports {s t : State} {port : List Byte} {agenda : List Event} {ph : Phase}
    (h : Keeps { s with cmdPort := port, agenda := agenda, ph := ph } t) : Keeps s t :=
  ⟨h.params, h.tr, h.responses, h.ptr, h.memory⟩

/-- Every step keeps what an instruction keeps and leaves an idle PH idle, but that HOST receives a response. -/
theorem step_keeps {s t : State} (h : step s = .next t) :
    (Keeps s t ∧ (s.ph = .idle → t.ph = .idle)) ∨
      ∃ later, s.agenda = .hostReceive :: later ∧ t = hostReceive { s with agenda := later } := by
  obtain ⟨-, rfl⟩ | ⟨-, hturn⟩ := step_cases h
  · exact .inl ⟨.refl _, id⟩
  obtain ⟨later, -, hbrp⟩ | ⟨bytes, later, -, rfl⟩ | hreceive | ⟨m, later, -, rfl⟩ | ⟨bytes, later, i, -, hi, hexec⟩ |
    ⟨later, -, rfl⟩ := hturn
  · obtain ⟨i, rest, hi, hexec⟩ | ⟨-, rfl⟩ | rfl := hbrp
    · obtain ⟨-, hcommand, -⟩ := decodedCommandConsumesItsBytes _ _ _ hi
      obtain ⟨hkeeps, hidle⟩ := exec_command_keeps hcommand hexec
      exact .inl ⟨hkeeps.of_ports (s := s), fun _ => hidle⟩
    · exact .inl ⟨((Keeps.refl _).respond .illegalCommand 0).of_ports, fun _ => rfl⟩
    · exact .inl ⟨(Keeps.refl _).of_ports, id⟩
  · exact .inl ⟨(Keeps.refl _).of_ports, id⟩
  · exact .inr hreceive
  · obtain ⟨hkeeps, hph⟩ := extMove_keeps m { s with agenda := later }
    exact .inl ⟨hkeeps.of_ports, hph.trans⟩
  · obtain ⟨hkeeps, hph⟩ := exec_record_keeps hi hexec
    exact .inl ⟨hkeeps.of_ports, hph.trans⟩
  · exact .inl ⟨(Keeps.refl _).of_ports, id⟩

/-- Settles O40: the invariant is kept by what a step keeps, and receiving a response is no part of it. -/
theorem stepKeepsInv : Obligations.StepKeepsInv := by
  intro s t hinv h
  obtain ⟨hkeeps, hidle⟩ | ⟨later, -, rfl⟩ := step_keeps h
  · exact ⟨hkeeps.params ▸ hinv.params, hkeeps.memory hinv.memory, hidle hinv.ph, hkeeps.ptr hinv.ptr⟩
  · exact ⟨hinv.params, hinv.memory, hinv.ph, hinv.ptr⟩

/-- Settles O41: what a step keeps gives the trace and the responses, but for HOST's receiving turn. -/
theorem stepOnlyExtendsTrace : Obligations.StepOnlyExtendsTrace := by
  intro s t h
  obtain ⟨hkeeps, -⟩ | ⟨later, hagenda, rfl⟩ := step_keeps h
  · exact ⟨hkeeps.params, hkeeps.tr, .inl hkeeps.responses⟩
  · exact ⟨rfl, (Keeps.refl s).tr, .inr ⟨later, hagenda, rfl⟩⟩

theorem defaultParams_ok : Params.default.Ok := by constructor <;> decide

/-- Settles O39: the default parameters meet their constraints; the memory is the empty list. -/
theorem resetStateMeetsInv : Obligations.ResetStateMeetsInv :=
  ⟨⟨defaultParams_ok, rfl, rfl, rfl⟩, ⟨defaultParams_ok, rfl, rfl, rfl, rfl, rfl⟩⟩

end Sys2Proof.Machine
end

section
/-! PROOFS of the statements about reading back: RDR, and what RDR or BLINKQ answers after a command that wrote. -/

namespace Sys2Proof.Machine

/-! ### RDR -/

section
variable {s : State} {bank reg : Operand}

theorem execRdr_legal (hb : ValidBank s.params bank) (hr : Within 0 255 reg) :
    execRdr bank reg s =
      finish ((regRead (.command (.rdr bank reg)) (bank.setWidth 8) (reg.setWidth 8) s).1.setWidth 16)
        (regRead (.command (.rdr bank reg)) (bank.setWidth 8) (reg.setWidth 8) s).2 := by
  rw [execRdr, bankOperand_valid hb, byteOperand_within hr]

theorem execRdr_illegal (h : ¬ (ValidBank s.params bank ∧ Within 0 255 reg)) :
    execRdr bank reg s = raiseError .rangeError s := by
  rw [execRdr]
  obtain hb | hr := not_and_or.mp h
  · rw [bankOperand_invalid hb]
  · rw [byteOperand_outside hr]
    cases bankOperand s.params bank <;> rfl

end

/-- Settles O17: the legal read by what a register read emits and changes, any other by the error entry. -/
theorem rdrEffect : Obligations.RdrEffect := by
  intro s bank reg
  refine ⟨fun hb hr => ?legal, execRdr_illegal⟩
  obtain ⟨hemits, hbsr, hframe, hvalue⟩ :=
    regRead_effect (.command (.rdr bank reg)) (bank.setWidth 8) (reg.setWidth 8) s
  refine ⟨_, _, execRdr_legal hb hr, hemits.ran _, hbsr, hframe.respond _ _, hemits.af, ?_, fun hreg => ?ownBank⟩
  · rw [get_respond]
    exact hvalue
  case ownBank =>
    rw [hreg, resolve_bank, State.get_bsr] at hvalue
    rw [hreg]
    exact hvalue.1.trans (hreg ▸ hbsr)

/-- A command's answer is the last response. -/
theorem Ran.lastResponse {i : Instr} {s t : State} {v : BitVec 16} {ops : List BusOp} (h : Ran i s t v ops) :
    t.lastResponse = some ⟨.ok, v⟩ := by
  simp [State.lastResponse, h.responses]

/-- In the bank that is selected already, RDR answers what the register holds and changes no location. -/
theorem exec_rdr_register {s : State} {bank reg : Operand} {v : Byte} (hb : ValidBank s.params bank)
    (hr : Within 0 255 reg) (hbsr : s.bsr = bank.setWidth 8)
    (hv : s.get (resolve s.params (bank.setWidth 8) (reg.setWidth 8)) = some v) :
    ∃ u, exec (.rdr bank reg) s = .next u ∧ u.lastResponse = some ⟨.ok, v.setWidth 16⟩ ∧ ∀ l, u.get l = s.get l := by
  obtain ⟨u, w, hexec, hran, hbsr', hframe, -, hvalue, -⟩ := (rdrEffect s bank reg).1 hb hr
  have hget : ∀ l, u.get l = s.get l := by
    intro l
    by_cases hl : l = .bsr
    · rw [hl, State.get_bsr, State.get_bsr, hbsr', hbsr]
    · exact hframe l hl
  rw [hget, hv] at hvalue
  obtain ⟨rfl, -⟩ := hvalue
  exact ⟨u, hexec, hran.lastResponse, hget⟩

/-- An operand in 0 to 255 is its byte zero-extended. -/
theorem setWidth_byte_extend {v : Operand} (h : Within 0 255 v) : (v.setWidth 8).setWidth 16 = v := by
  apply BitVec.eq_of_toNat_eq
  rw [BitVec.toNat_setWidth, setWidth_byte_toNat h le_rfl]
  exact Nat.mod_eq_of_lt v.isLt

/-- Settles O19: WRR leaves its bank selected and its byte in the register, so RDR answers it. -/
theorem wrrReadsBack : Obligations.WrrReadsBack := by
  intro s bank reg value hs hb hr hv hu hbsr
  obtain ⟨t, hexec, hran, ⟨hget, hbank, -⟩, -⟩ := (wrrEffect s bank reg value hs.memory).1 hb hr hv
  rw [← hran.params] at hb hget hu
  obtain ⟨u, hread, hlast, hsame⟩ := exec_rdr_register hb hr (hbank hbsr) (hget hu)
  exact ⟨t, u, hexec, hread, setWidth_byte_extend hv ▸ hlast, hsame⟩

/-! ### FILL -/

/-- An operand in 0 to 7 is a frame index, its byte the frame's bank. -/
theorem exists_frame_of_within {v : Operand} (h : Within 0 7 v) :
    ∃ f : Fin 8, v.toInt = (f.val : Int) ∧ v.setWidth 8 = frameBank f := by
  have hnat := toInt_of_nonneg h.1
  have hhi := h.2
  refine ⟨⟨v.toNat, by omega⟩, hnat, eq_frameBank (setWidth_byte_toNat h (by omega))⟩

/-- A number below 256 as an operand. -/
theorem ofNat_operand {n : Nat} (h : n < 256) :
    Within 0 255 (BitVec.ofNat 16 n) ∧ ((BitVec.ofNat 16 n).setWidth 8).toNat = n := by
  have hnat : (BitVec.ofNat 16 n).toNat = n := by
    rw [BitVec.toNat_ofNat]
    omega
  have hint : (BitVec.ofNat 16 n).toInt = (n : Int) := by
    rw [BitVec.toInt_eq_toNat_of_lt (by omega), hnat]
  have hwithin : Within 0 255 (BitVec.ofNat 16 n) := by
    rw [Within, hint]
    omega
  exact ⟨hwithin, (setWidth_byte_toNat hwithin le_rfl).trans hnat⟩

/-- Settles O32: FILL leaves its frame's bank selected and the colour in every cell, so RDR answers it. -/
theorem fillReadsBack : Obligations.FillReadsBack := by
  intro s frame color i hs hframe hcolor
  obtain ⟨f, hf, hbank⟩ := exists_frame_of_within hframe
  have hfits := hs.params.color_fits
  obtain ⟨hreg, hregNat⟩ := ofNat_operand (n := s.params.colorOffset.toNat + i.val) (by omega)
  obtain ⟨t, hexec, hran, hbsr, hint, -⟩ :=
    (fillEffect s (some frame) (some color) none hs).1 f (.inr ⟨frame, rfl, hf⟩) (by rintro c ⟨⟩; exact hcolor)
  have hcell : t.get (resolve t.params (frame.setWidth 8)
      ((BitVec.ofNat 16 (s.params.colorOffset.toNat + i.val)).setWidth 8)) = some (color.setWidth 8) := by
    rw [hran.params, hbank, eq_addrPlus hregNat, resolve_int hs.params]
    exact congrArg some (hint color rfl i)
  obtain ⟨u, hread, hlast, hsame⟩ := exec_rdr_register (.inl hframe) hreg (hbsr.trans hbank.symm) hcell
  exact ⟨t, u, hexec, hread, setWidth_byte_extend hcolor ▸ hlast, hsame⟩

/-! ### WRR of the frame register -/

/-- A byte as an operand. -/
theorem byte_operand (b : Byte) :
    (b.setWidth 16).toInt = (b.toNat : Int) ∧ (b.setWidth 16).setWidth 8 = b ∧ Within 0 255 (b.setWidth 16) := by
  have hlt := b.isLt
  have hnat : (b.setWidth 16).toNat = b.toNat := by
    rw [BitVec.toNat_setWidth]
    omega
  have hint : (b.setWidth 16).toInt = (b.toNat : Int) := by
    rw [BitVec.toInt_eq_toNat_of_lt (by omega), hnat]
  have hwithin : Within 0 255 (b.setWidth 16) := by
    rw [Within, hint]
    omega
  exact ⟨hint, BitVec.eq_of_toNat_eq ((setWidth_byte_toNat hwithin le_rfl).trans hnat), hwithin⟩

/-- Settles O59: the write reaches the frame register, and WRR leaves AF alone. -/
theorem wrrFrameLeavesActiveFrame : Obligations.WrrFrameLeavesActiveFrame := by
  intro s value hs hv
  obtain ⟨hbankInt, hbank, -⟩ := byte_operand s.params.configBank
  obtain ⟨-, hreg, hregWithin⟩ := byte_operand s.params.regFrame
  have hv255 : Within 0 255 value := ⟨hv.1, hv.2.trans (by decide)⟩
  obtain ⟨t, hexec, hran, ⟨hget, -⟩, haf, -⟩ :=
    (wrrEffect s (s.params.configBank.setWidth 16) (s.params.regFrame.setWidth 16) value hs.memory).1
      (.inr hbankInt) hregWithin hv255
  have hloc : resolve s.params s.params.configBank s.params.regFrame = .cfg .frame := resolve_cfg hs.params .frame
  rw [hbank, hreg, hloc] at hget
  have hframe : t.cfg.frame = value.setWidth 8 := Option.some.inj (hget nofun)
  refine ⟨t, hexec, hran.lastResponse, haf, ?shown, haf⟩
  have hnat := toInt_of_nonneg hv.1
  have hhi := hv.2
  have hbyte := setWidth_byte_toNat hv (by decide)
  change ((t.cfg.frame.toNat % 8 : Nat) : Int) = value.toInt
  rw [hframe, hbyte]
  omega

/-! ### BLINKRATE and BLINKQ -/

/-- The rate in units, reduced to the register's three bits. -/
theorem rateByte_period {p : Params} (hp : p.Ok) (rateMs : Operand) :
    (rateByte p rateMs).toNat % 8 * 270 = rateMs.toNat / 270 * 270 % 2160 := by
  have hhigh : p.blinkEn.toNat % 8 = 0 := by
    rw [← and_seven_toNat, hp.blinkEn_high]
    rfl
  rw [rateByte_toNat hp]
  split
  next hzero => rw [hzero]; rfl
  · omega

/-- Settles O55: BLINKRATE leaves its byte in the register BLINKQ reads. -/
theorem blinkRateReadsBack : Obligations.BlinkRateReadsBack := by
  intro s rateMs hs hrate
  have hexec := execBlinkrate_nonneg hs.params hrate
  obtain ⟨u, hread, hran, -⟩ := blinkqEffect (respond .ok 0 (s.cfgWritten (.command (.blinkrate rateMs))
    [(.blink, rateByte s.params rateMs)])) ⟨hs.params, hs.memory⟩
  refine ⟨_, u, hexec, hread, hran.lastResponse.trans ?_⟩
  rw [← rateByte_period hs.params]
  rfl

/-! ### The exponent of a fade duration -/

/-- The model's logarithm is an exponent R127 names. -/
theorem isLog26_ilog26 {t : Nat} (h : 26 ≤ t) : IsLog26 t (ilog26 t) := by
  have hne : t / 26 ≠ 0 := by omega
  have hlo := Nat.log2_self_le hne
  have hhi := Nat.lt_log2_self (n := t / 26)
  have hlog : ilog26 t = (t / 26).log2 := rfl
  rw [IsLog26, hlog]
  norm_cast
  omega

theorem isLog26_le_seven {t e : Nat} (h : IsLog26 t e) : e ≤ 7 ↔ t ≤ 6655 := by
  obtain ⟨hlo, hhi⟩ := h
  norm_cast at hlo hhi
  constructor
  · intro he
    have := Nat.pow_le_pow_right (n := 2) (by decide) (Nat.succ_le_succ he)
    omega
  · intro ht
    by_contra he
    have := Nat.pow_le_pow_right (n := 2) (by decide) (Nat.not_le.mp he)
    omega

theorem isLog26_le {t : Int} {e : Nat} (h : IsLog26 t e) : 26 ≤ t := by
  have hlo := h.1
  have hpos : (0 : Int) < 2 ^ e := by positivity
  omega

/-- Settles O28: from 26 on the logarithm is an exponent, and the only one; below there is none. -/
theorem fadeExponentIsGreatest : Obligations.FadeExponentIsGreatest := by
  intro v
  have hnat : 26 ≤ v.toInt → ((v.toInt.toNat : Nat) : Int) = v.toInt := fun h => Int.toNat_of_nonneg (by omega)
  have hlog : 26 ≤ v.toInt → IsLog26 (v.toInt.toNat : Int) (ilog26 v.toInt.toNat) := fun h => isLog26_ilog26 (by omega)
  have hofInt : ∀ {e}, IsLog26 v.toInt e → IsLog26 (v.toInt.toNat : Int) e := fun h => (hnat (isLog26_le h)).symm ▸ h
  refine ⟨fun h => hnat h ▸ hlog h, ⟨fun ⟨hlo, hhi⟩ => ?exponent, fun ⟨e, he, h⟩ => ?bounds⟩, fun e e' h h' => ?unique⟩
  case exponent =>
    exact ⟨_, (isLog26_le_seven (hlog hlo)).mpr (by omega), hnat hlo ▸ hlog hlo⟩
  case bounds =>
    have hlo := isLog26_le h
    have hhi := (isLog26_le_seven (hofInt h)).mp he
    exact ⟨hlo, by omega⟩
  case unique => exact (ilog26_eq (hofInt h)).symm.trans (ilog26_eq (hofInt h'))

end Sys2Proof.Machine
end

section
/-! PROOFS of the statements about single pixels (43_pixel_translator.md, 44_frame_store.md, 20_memory.md section 6):
the translator is injective, SETPX changes one cell and one flag, and the display port shows it. -/

namespace Sys2Proof.Machine

/-! ### The translator -/

/-- `pixel` takes a cell index back to the logical pixel (R144). -/
theorem pixel_addr (x : Fin 17) (y : Fin 7) : pixel (addr x y) = some (x, y) := by
  revert x y
  decide

/-- No two logical pixels share a cell. -/
theorem addr_inj {x x' : Fin 17} {y y' : Fin 7} (h : addr x y = addr x' y') : (x, y) = (x', y') := by
  have h' := congrArg pixel h
  rw [pixel_addr, pixel_addr] at h'
  exact Option.some.inj h'

/-- A used cell is its pixel's cell. -/
theorem addr_of_pixel {i : Fin 144} {x : Fin 17} {y : Fin 7} (h : pixel i = some (x, y)) : addr x y = i := by
  apply Fin.ext
  rw [addr_val]
  rw [pixel] at h
  split at h
  · cases h
    dsimp only
    split <;> omega
  · split at h
    · cases h
      dsimp only
      split <;> omega
    · cases h

/-- Settles O30: the translator's three tables agree, cell by cell. -/
theorem translatorInverse : Obligations.TranslatorInverse :=
  ⟨addr_bounds, pixel_addr, fun _ _ _ => addr_of_pixel, by decide⟩

/-! ### Reading the planes through a frame -/

section
variable {touched : Loc → Prop} {s t : State} (h : DevFrame touched s t)
include h

theorem DevFrame.int_eq {f : Fin 8} {i : Fin 144} (hl : ¬ touched (.int f i)) : t.int f i = s.int f i :=
  int_of_get (h _ hl)

theorem DevFrame.bl_eq {f : Fin 8} {k : Fin 18} (hl : ¬ touched (.bl f k)) : t.bl f k = s.bl f k := bl_of_get (h _ hl)

theorem DevFrame.en_eq {f : Fin 8} {k : Fin 18} (hl : ¬ touched (.en f k)) : t.en f k = s.en f k := en_of_get (h _ hl)

theorem DevFrame.blinkFlag_eq {f : Fin 8} {i : Fin 144} (hl : ¬ touched (.bl f (maskByte i))) :
    t.blinkFlag f i = s.blinkFlag f i := by rw [State.blinkFlag, State.blinkFlag, h.bl_eq hl]

theorem DevFrame.enable_eq {f : Fin 8} {i : Fin 144} (hl : ¬ touched (.en f (maskByte i))) :
    t.enable f i = s.enable f i := by rw [State.enable, State.enable, h.en_eq hl]

theorem DevFrame.cfg_eq (hl : ∀ n, ¬ touched (.cfg n)) : t.cfg = s.cfg := cfg_of_get fun n => h _ (hl n)

end

/-! ### SETPX's writes -/

section
variable (e : Emitter) (f : Fin 8) (i : Fin 144) {s : State}

/-- The transactions of SETPX's colour write. -/
def colorOps (p : Params) (f : Fin 8) (i : Fin 144) : Option Byte → List BusOp
  | none => []
  | some v => regWriteOps p (frameBank f) (addrPlus p.colorOffset i.val) v

/-- Everything SETPX's colour stage does. -/
theorem setPixel_color_effect (c : Option Byte) (hs : s.Sound) :
    Emits e s (setPixel e f i c none s) (colorOps s.params f i c) ∧ (setPixel e f i c none s).draws = s.draws ∧
    (setPixel e f i c none s).Sound ∧ (c.isSome → (setPixel e f i c none s).bsr = frameBank f) ∧
    (∀ v, c = some v → (setPixel e f i c none s).int f i = v) ∧
    DevFrame (fun l => l = .bsr ∨ (c.isSome ∧ l = .int f i)) s (setPixel e f i c none s) := by
  cases c with
  | none => exact ⟨.refl e s, rfl, hs, nofun, nofun, fun _ _ => rfl⟩
  | some v =>
    obtain ⟨hget, hbsr, hframe⟩ :=
      regWrite_effect e (frameBank f) (addrPlus s.params.colorOffset i.val) v hs.memory
    have hemits := regWrite_emits e (frameBank f) (addrPlus s.params.colorOffset i.val) v s
    rw [resolve_int hs.params f i] at hget hbsr hframe
    refine ⟨hemits, regWrite_draws .., ⟨hemits.params.symm ▸ hs.params, regWrite_wf e _ _ _ hs.memory⟩,
      fun _ => hbsr nofun, ?_, hframe.mono fun l => Or.imp_right fun hl => ⟨rfl, hl⟩⟩
    rintro _ ⟨⟩
    exact int_of_get (hget nofun)

/-- Without the extension, or without its operand, there is only the colour stage. -/
theorem setPixel_noBlink (c : Option Byte) {blink : Option Operand} (hs : s.Sound)
    (h : blink = none ∨ s.params.pixelBlinkImpl = false) :
    setPixel e f i c blink s = setPixel e f i c none s := by
  have hparams : (setPixel e f i c none s).params = s.params := (setPixel_color_effect e f i c hs).1.params
  cases blink with
  | none => rfl
  | some b =>
    have himpl : (setPixel e f i c none s).params.pixelBlinkImpl = false := by
      rw [hparams]
      simpa using h
    exact if_neg (c := (setPixel e f i c none s).params.pixelBlinkImpl = true) (ne_true_of_eq_false himpl)

/-- With the extension and its operand the blink stage follows. -/
theorem setPixel_blink (c : Option Byte) (b : Operand) (hs : s.Sound) (himpl : s.params.pixelBlinkImpl = true) :
    setPixel e f i c (some b) s = setPixelBlink e f i (boolOf b) (setPixel e f i c none s) := by
  have hparams : (setPixel e f i c none s).params = s.params := (setPixel_color_effect e f i c hs).1.params
  exact if_pos (c := (setPixel e f i c none s).params.pixelBlinkImpl = true) (hparams.symm ▸ himpl)

end

/-! ### One bit of a mask byte -/

/-- The mask of bit `k`. -/
theorem getLsbD_bitMask {k j : Nat} (hk : k < 8) (hj : j < 8) : ((1 : Byte) <<< k).getLsbD j = decide (j = k) := by
  interval_cases k <;> interval_cases j <;> rfl

/-- Subtracting from all ones is the complement. -/
theorem allOnes_sub_bitMask {k : Nat} (hk : k < 8) : 0xFF - (1 : Byte) <<< k = ~~~((1 : Byte) <<< k) := by
  interval_cases k <;> rfl

/-- Setting bit `k` sets it and no other. -/
theorem getLsbD_setBit (v : Byte) {k j : Nat} (hk : k < 8) (hj : j < 8) :
    (v ||| (1 : Byte) <<< k).getLsbD j = if j = k then true else v.getLsbD j := by
  rw [BitVec.getLsbD_or, getLsbD_bitMask hk hj]
  by_cases h : j = k <;> simp [h]

/-- Clearing bit `k` clears it and no other. -/
theorem getLsbD_clearBit (v : Byte) {k j : Nat} (hk : k < 8) (hj : j < 8) :
    (v &&& (0xFF - (1 : Byte) <<< k)).getLsbD j = if j = k then false else v.getLsbD j := by
  rw [allOnes_sub_bitMask hk, BitVec.getLsbD_and, BitVec.getLsbD_not, getLsbD_bitMask hk hj]
  by_cases h : j = k <;> simp [h, hj]

/-- The mask byte and the bit in it name the cell. -/
theorem cell_eq {i j : Fin 144} (hbyte : maskByte j = maskByte i) (hbit : j.val % 8 = i.val % 8) : j = i := by
  have h : j.val / 8 = i.val / 8 := congrArg Fin.val hbyte
  exact Fin.ext (by omega)

/-- The read-modify-write sets the flag of one cell of one frame. -/
theorem setPixelBlink_blinkFlag (e : Emitter) (f g : Fin 8) (i j : Fin 144) (b : Bool) {s : State} (hs : s.Sound) :
    (setPixelBlink e f i b s).blinkFlag g j = if g = f ∧ j = i then b else s.blinkFlag g j := by
  obtain ⟨-, -, -, -, hbyte, hframe⟩ := setPixelBlink_effect e f i b hs
  by_cases hloc : g = f ∧ maskByte j = maskByte i
  · obtain ⟨rfl, hmask⟩ := hloc
    have hbit : (setPixelBlink e g i b s).blinkFlag g j =
        if j.val % 8 = i.val % 8 then b else s.blinkFlag g j := by
      rw [State.blinkFlag, hmask, hbyte, State.blinkFlag, hmask]
      cases b with
      | true => exact getLsbD_setBit _ (by omega) (by omega)
      | false => exact getLsbD_clearBit _ (by omega) (by omega)
    have hcell : j.val % 8 = i.val % 8 ↔ g = g ∧ j = i :=
      ⟨fun h => ⟨rfl, cell_eq hmask h⟩, fun h => h.2 ▸ rfl⟩
    rw [hbit]
    exact if_congr hcell rfl rfl
  · have hcell : ¬ (g = f ∧ j = i) := fun h => hloc ⟨h.1, congrArg maskByte h.2⟩
    rw [if_neg hcell]
    refine hframe.blinkFlag_eq ?_
    rintro (h | h)
    · cases h
    · obtain ⟨hframe, hbyte⟩ := Loc.bl.inj h
      exact hloc ⟨hframe, hbyte⟩

/-- SETPX ends after its colour stage, or after the blink stage that follows it. -/
theorem setPixel_stages (e : Emitter) (f : Fin 8) (i : Fin 144) (c : Option Byte) (blink : Option Operand) (s : State) :
    setPixel e f i c blink s = setPixel e f i c none s ∨
      ∃ b, setPixel e f i c blink s = setPixelBlink e f i b (setPixel e f i c none s) := by
  cases blink with
  | none => exact .inl rfl
  | some v =>
    by_cases himpl : (setPixel e f i c none s).params.pixelBlinkImpl = true
    · exact .inr ⟨boolOf v, if_pos himpl⟩
    · exact .inl (if_neg himpl)

/-- SETPX's writes touch one cell and its mask byte. -/
theorem setPixel_frame (e : Emitter) (f : Fin 8) (i : Fin 144) (c : Option Byte) (blink : Option Operand) {s : State}
    (hs : s.Sound) :
    DevFrame (fun l => l = .bsr ∨ l = .int f i ∨ l = .bl f (maskByte i)) s (setPixel e f i c blink s) := by
  obtain ⟨-, -, hsound, -, -, hcolor⟩ := setPixel_color_effect e f i c hs
  have hcolor' := hcolor.mono (touched' := fun l => l = .bsr ∨ l = .int f i ∨ l = .bl f (maskByte i))
    fun l => Or.imp_right fun h => .inl h.2
  obtain hstage | ⟨b, hstage⟩ := setPixel_stages e f i c blink s
  · rwa [hstage]
  · obtain ⟨-, -, -, -, -, hflag⟩ := setPixelBlink_effect e f i b hsound
    rw [hstage]
    exact hcolor'.trans (hflag.mono fun l => Or.imp_right .inr)

/-- SETPX's writes leave the blink flag of every other cell alone, those in the same mask byte included. -/
theorem setPixel_blinkFlag_other (e : Emitter) (f g : Fin 8) {i j : Fin 144} (hj : j ≠ i) (c : Option Byte)
    (blink : Option Operand) {s : State} (hs : s.Sound) :
    (setPixel e f i c blink s).blinkFlag g j = s.blinkFlag g j := by
  obtain ⟨-, -, hsound, -, -, hcolor⟩ := setPixel_color_effect e f i c hs
  have hflag : (setPixel e f i c none s).blinkFlag g j = s.blinkFlag g j := hcolor.blinkFlag_eq (by simp)
  obtain hstage | ⟨b, hstage⟩ := setPixel_stages e f i c blink s
  · rwa [hstage]
  · rwa [hstage, setPixelBlink_blinkFlag e f g i j b hsound, if_neg fun h => hj h.2]

/-! ### SETPX -/

/-- An absent frame operand passes, and names AF. -/
theorem absentFrame_passes : checkOptional frameOperand none = some none := rfl

theorem targetFrame_absent (s : State) : targetFrame none s = s.af := rfl

/-- The frame a command found is the frame its operand names. -/
theorem namesFrame_of_target {s : State} {frame : Option Operand} {fr : Option (Fin 8)} {f : Fin 8}
    (hfr : checkOptional frameOperand frame = some fr) (h : targetFrame fr s = some f) : NamesFrame s frame f := by
  cases frame with
  | none =>
    cases hfr
    exact .inl ⟨rfl, h⟩
  | some v =>
    obtain ⟨g, hg, rfl⟩ := Option.map_eq_some_iff.mp hfr
    cases h
    rw [frameOperand] at hg
    split at hg
    next hv =>
      cases hg
      exact .inr ⟨v, rfl, (Int.toNat_of_nonneg hv.1).symm⟩
    · cases hg

section
variable {s : State} {x y : Operand} {px : Fin 17} {py : Fin 7} {color blink frame : Option Operand}

theorem execSetpx_offMatrix (h : OffMatrix x y) : execSetpx x y color blink frame s = finish 0 s := by
  rw [execSetpx, pixelOperands_off h]

theorem execSetpx_bad (hxy : NamesPixel x y px py) (h : BadFrame frame ∨ BadColor color) :
    execSetpx x y color blink frame s = raiseError .rangeError s := by
  rw [execSetpx, pixelOperands_named hxy]
  obtain hf | hc := h
  · rw [badFrame_fails hf]
  · rw [badColor_fails hc]
    cases checkOptional frameOperand frame <;> rfl

theorem execSetpx_silent (hxy : NamesPixel x y px py) (hf : ¬ BadFrame frame)
    (hc : ∀ c, color = some c → Within 0 255 c) (hw : setPixelWrites s.params color blink = false) :
    execSetpx x y color blink frame s = finish 0 s := by
  obtain ⟨fr, hfr⟩ := frame_passes hf
  simp only [execSetpx, pixelOperands_named hxy, hfr, color_passes hc, hw, Bool.false_eq_true, if_false]

theorem execSetpx_writes (hxy : NamesPixel x y px py) {f : Fin 8} (hf : NamesFrame s frame f)
    (hc : ∀ c, color = some c → Within 0 255 c) (hw : setPixelWrites s.params color blink = true) :
    execSetpx x y color blink frame s =
      finish 0 (setPixel (.command (.setpx x y color blink frame)) f (addr px py) (color.map (·.setWidth 8)) blink
        s) := by
  obtain ⟨fr, hfr, htarget⟩ := namesFrame_target hf
  simp only [execSetpx, pixelOperands_named hxy, hfr, color_passes hc, hw, if_true, htarget]

theorem execSetpx_unset (hxy : NamesPixel x y px py) (haf : s.af = none) (hc : ∀ c, color = some c → Within 0 255 c)
    (hw : setPixelWrites s.params color blink = true) :
    execSetpx x y color blink none s = .refused .activeFrameUnset := by
  simp only [execSetpx, pixelOperands_named hxy, absentFrame_passes, color_passes hc, hw, if_true, targetFrame_absent,
    haf]

/-- On the matrix SETPX answers from the state it started in, or after its writes to one cell of the frame it names. -/
theorem execSetpx_next {t : State} (hxy : pixelOperands x y = some (px, py))
    (h : execSetpx x y color blink frame s = .next t) :
    ∃ st u, t = respond st 0 u ∧
      (u = s ∨ ∃ f c, NamesFrame s frame f ∧
        u = setPixel (.command (.setpx x y color blink frame)) f (addr px py) c blink s) := by
  simp only [execSetpx, hxy] at h
  split at h
  next fr c hfr hc =>
    split at h
    · split at h
      · cases h
      next f htarget =>
        cases h
        exact ⟨_, _, rfl, .inr ⟨f, c, namesFrame_of_target hfr htarget, rfl⟩⟩
    · cases h
      exact ⟨_, _, rfl, .inl rfl⟩
  · cases h
    exact ⟨_, _, rfl, .inl rfl⟩

end

/-- Settles O37: the writes go to the pixel's own cell, and another pixel has another cell. -/
theorem pixelWritesDoNotInterfere : Obligations.PixelWritesDoNotInterfere := by
  intro s t x y color blink frame px qx py qy g hs hxy hne h
  have hcell : addr qx qy ≠ addr px py := mt addr_inj hne
  obtain ⟨st, u, rfl, rfl | ⟨f, c, -, rfl⟩⟩ := execSetpx_next (pixelOperands_named hxy) h
  · exact ⟨rfl, rfl⟩
  · exact ⟨(setPixel_frame _ f (addr px py) c blink hs).int_eq (by simp [hcell]),
      setPixel_blinkFlag_other _ f g hcell c blink hs⟩

/-- A colour that is not bad lies in range. -/
theorem color_within {color : Option Operand} (h : ¬ BadColor color) : ∀ c, color = some c → Within 0 255 c :=
  fun c hc => by_contra fun hout => h ⟨c, hc, hout⟩

/-- A colour that lies in range. -/
theorem some_within {v : Operand} (h : Within 0 255 v) : ∀ c, some v = some c → Within 0 255 c := by
  rintro _ ⟨⟩
  exact h

/-- Settles O34: without a blink write SETPX is its colour stage, one register write or nothing. -/
theorem setpxEffect : Obligations.SetpxEffect := by
  intro s x y color blink frame hs
  refine ⟨execSetpx_offMatrix, fun px py hxy => ⟨execSetpx_bad hxy, fun hblink => ⟨?silent, fun c f => ?writes⟩⟩⟩
  case silent =>
    rintro rfl hf
    refine execSetpx_silent hxy hf nofun ?_
    obtain rfl | himpl := hblink
    · rfl
    · simp [setPixelWrites, himpl]
  case writes =>
    rintro rfl hc hf
    obtain ⟨hemits, hdraws, -, hbsr, hint, hframe⟩ :=
      setPixel_color_effect (.command (.setpx x y (some c) blink frame)) f (addr px py) (some (c.setWidth 8)) hs
    have hexec := execSetpx_writes hxy hf (some_within hc) (blink := blink) rfl
    rw [Option.map_some, setPixel_noBlink _ f _ _ hs hblink] at hexec
    exact ⟨_, hexec, hemits.ran 0, hbsr rfl, hint _ rfl,
      (hframe.mono fun l => Or.imp_right And.right).respond .ok 0, hemits.af, hdraws⟩

/-- Settles O35: the colour stage, and then the read-modify-write of the flag. -/
theorem setpxBlinkReadModifyWrite : Obligations.SetpxBlinkReadModifyWrite := by
  intro s x y color frame b px py f hs himpl hxy hf hc
  obtain ⟨hemits, hdraws, hsound, -, hint, hframe⟩ := setPixel_color_effect
    (.command (.setpx x y color (some b) frame)) f (addr px py) (color.map (·.setWidth 8)) hs
  obtain ⟨hemits', hbsr, hdraws', -, -, hframe'⟩ := setPixelBlink_effect
    (.command (.setpx x y color (some b) frame)) f (addr px py) (boolOf b) hsound
  have hflag := setPixelBlink_blinkFlag
    (.command (.setpx x y color (some b) frame)) f f (addr px py) (b := boolOf b) (hs := hsound)
  have hexec := execSetpx_writes hxy hf hc (blink := some b) (by simp [setPixelWrites, himpl])
  rw [setPixel_blink _ f _ _ b hs himpl] at hexec
  generalize setPixel _ f (addr px py) (color.map (·.setWidth 8)) none s = u at *
  generalize setPixelBlink _ f (addr px py) (boolOf b) u = t at *
  have hall := hemits.trans hemits'
  rw [hemits.params, hframe.bl_eq (by simp), ← List.append_assoc] at hall
  refine ⟨_, hexec, ⟨?ran, ?flag, fun j hj => ?flags, hbsr, ?color, ?frame⟩, hall.af, hdraws'.trans hdraws⟩
  case ran => cases color <;> exact hall.ran 0
  case flag => exact (hflag _).trans (if_pos ⟨rfl, rfl⟩)
  case flags => exact ((hflag j).trans (if_neg fun h => hj h.2)).trans (hframe.blinkFlag_eq (by simp))
  case color =>
    rintro c rfl
    exact (hframe'.int_eq (by simp)).trans (hint _ rfl)
  case frame =>
    refine ((hframe.mono fun l => ?_).trans (hframe'.mono fun l => ?_)).respond .ok 0
    · rw [Option.isSome_map]
      exact Or.imp_right .inr
    · exact Or.imp_right .inl

/-- Settles O38: each command passes its checks and then finds no target. -/
theorem unsetActiveFrameRefuses : Obligations.UnsetActiveFrameRefuses := by
  intro s haf
  refine ⟨fun color blink hc => ?fill, fun payload hlen => ?wraw, fun x y c blink px py hxy hc => ?color,
    fun himpl x y color b px py hxy hc => ?blink, fun d l n hd hl hn => execAutoplay_unset hd hl hn haf⟩
  case fill =>
    change execFill none color blink s = _
    simp only [execFill, absentFrame_passes, color_passes (color_within hc), targetFrame_absent, haf]
  case wraw =>
    change execWraw none payload s = _
    simp only [execWraw, if_neg (Nat.not_lt.mpr hlen), absentFrame_passes, targetFrame_absent, haf]
  case color => exact execSetpx_unset hxy haf (some_within hc) rfl
  case blink => exact execSetpx_unset hxy haf (color_within hc) (by simp [setPixelWrites, himpl])

/-! ### The display port -/

theorem shown_pictureMode {s : State} (h : s.lstate = some .pictureMode) (x : Fin 17) (y : Fin 7) :
    s.shown x y =
      some ⟨s.int s.shownFrame (addr x y), s.blinkFlag s.shownFrame (addr x y), s.enable s.shownFrame (addr x y)⟩ :=
  if_pos h

/-- LState and the frame that is shown depend on the configuration bank only. -/
theorem lstate_congr {s t : State} (hp : t.params = s.params) (hc : t.cfg = s.cfg) :
    t.lstate = s.lstate ∧ t.shownFrame = s.shownFrame := by
  simp only [State.lstate, State.mode, State.shownFrame, hp, hc, and_self]

/-- Settles O57: the colour goes to the frame that is shown, and nothing else of what is shown changes. -/
theorem shownFollowsSetpx : Obligations.ShownFollowsSetpx := by
  intro s x y c blink px py hs himpl hmode haf hxy hc
  obtain ⟨t, hexec, hran, -, hint, hframe, -⟩ :=
    (((setpxEffect s x y (some c) blink none hs).2 px py hxy).2 (.inr himpl)).2 c s.shownFrame rfl hc (.inl ⟨rfl, haf⟩)
  obtain ⟨hlstate, hshown⟩ := lstate_congr hran.params (hframe.cfg_eq (by simp))
  have hflag : ∀ g i, t.blinkFlag g i = s.blinkFlag g i := fun g i => hframe.blinkFlag_eq (by simp)
  have henable : ∀ g i, t.enable g i = s.enable g i := fun g i => hframe.enable_eq (by simp)
  have hs' := shown_pictureMode hmode
  have ht' := shown_pictureMode (hlstate.trans hmode)
  refine ⟨t, hexec, fun old hold => ?pixel, by rw [hs', Option.isSome_some], fun qx qy hne => ?others⟩
  case pixel =>
    rw [hs', Option.some.injEq] at hold
    rw [ht', hshown, hint, hflag, henable, ← hold]
  case others =>
    have hcell : addr qx qy ≠ addr px py := mt addr_inj hne
    rw [ht', hs', hshown, hflag, henable, hframe.int_eq (by simp [hcell])]

end Sys2Proof.Machine
end

section
/-! PROOFS of the statements about what commands may write (10_state.md section 2) and about LState
(42_lifecycle_mode.md section 3). `MayWrite` names the locations of each command, once; which frames and masks it can
reach, and whether it can change LState, is read off it. -/

namespace Sys2Proof.Machine

/-! ### The locations of a command -/

/-- The configuration registers a command may write at their own address. -/
def Instr.cfgNames : Instr → List CfgName
  | .reset | .sleep _ => [.shutdown]
  | .autoplay _ _ _ => [.autoplay1, .autoplay2, .mode]
  | .audioplay _ _ _ _ => [.adc, .gain, .mode]
  | .blinkrate _ => [.blink]
  | .fade _ _ _ => [.breath1, .breath2]
  | .frame _ => [.frame]
  | _ => []

/-- The locations besides BSR that command `i` may write from `s`. -/
def MayWrite (s : State) (l : Loc) : Instr → Prop
  | .init => True
  | .wrr bank reg _ => l = resolve s.params (bank.setWidth 8) (reg.setWidth 8)
  | .fill frame _ _ | .wraw frame _ | .setpx _ _ _ _ frame =>
    ∃ f, NamesFrame s frame f ∧ ((∃ i, l = .int f i) ∨ ∃ k, l = .bl f k)
  | i => ∃ n ∈ Instr.cfgNames i, l = .cfg n

/-- From `s` to `t` command `i` wrote no location but those it may write. -/
def WritesWithin (i : Instr) (s t : State) : Prop := DevFrame (fun l => l = .bsr ∨ MayWrite s l i) s t

section
variable {s t : State}

theorem writesWithin_rejected (i : Instr) (s : State) (st : Status) : WritesWithin i s (s.rejected st) := fun _ _ => rfl

/-- A command that makes configuration writes, to registers it may write. -/
theorem writesWithin_cfgWritten {i : Instr} {ws : List (CfgName × Byte)}
    (h : ∀ w ∈ ws, MayWrite s (.cfg w.1) i) :
    WritesWithin i s (respond .ok 0 (s.cfgWritten (.command i) ws)) :=
  (cfgWritten_frame s _ (.inl rfl) fun w hw => .inr (h w hw)).respond .ok 0

theorem exec_selb_writes {bank : Operand} (h : exec (.selb bank) s = .next t) : WritesWithin (.selb bank) s t := by
  by_cases hb : ValidBank s.params bank
  · obtain ⟨u, hexec, -, -, hframe, -⟩ := (selbEffect s bank).1 hb
    cases hexec.symm.trans h
    exact hframe.mono fun _ => .inl
  · cases ((selbEffect s bank).2 hb).symm.trans h
    exact writesWithin_rejected _ _ _

theorem exec_rdr_writes {bank reg : Operand} (h : exec (.rdr bank reg) s = .next t) :
    WritesWithin (.rdr bank reg) s t := by
  by_cases hlegal : ValidBank s.params bank ∧ Within 0 255 reg
  · obtain ⟨u, v, hexec, -, -, hframe, -⟩ := (rdrEffect s bank reg).1 hlegal.1 hlegal.2
    cases hexec.symm.trans h
    exact hframe.mono fun _ => .inl
  · cases ((rdrEffect s bank reg).2 hlegal).symm.trans h
    exact writesWithin_rejected _ _ _

theorem exec_wrr_writes (hs : s.Sound) {bank reg value : Operand} (h : exec (.wrr bank reg value) s = .next t) :
    WritesWithin (.wrr bank reg value) s t := by
  by_cases hlegal : ValidBank s.params bank ∧ Within 0 255 reg ∧ Within 0 255 value
  · obtain ⟨hb, hr, hv⟩ := hlegal
    obtain ⟨u, hexec, -, ⟨-, -, hframe⟩, -⟩ := (wrrEffect s bank reg value hs.memory).1 hb hr hv
    cases hexec.symm.trans h
    exact hframe
  · cases ((wrrEffect s bank reg value hs.memory).2 hlegal).symm.trans h
    exact writesWithin_rejected _ _ _

theorem exec_reset_writes (hs : s.Sound) (h : exec .reset s = .next t) : WritesWithin .reset s t := by
  cases (execReset_eq hs.params).symm.trans h
  exact writesWithin_cfgWritten (by simp [MayWrite, Instr.cfgNames])

theorem exec_sleep_writes (hs : s.Sound) {enable : Operand} (h : exec (.sleep enable) s = .next t) :
    WritesWithin (.sleep enable) s t := by
  cases (execSleep_eq hs.params enable).symm.trans h
  exact writesWithin_cfgWritten (by simp [MayWrite, Instr.cfgNames])

theorem exec_autoplay_writes (hs : s.Sound) {d l n : Operand} (h : exec (.autoplay d l n) s = .next t) :
    WritesWithin (.autoplay d l n) s t := by
  by_cases hd : d = 0
  · cases (execAutoplay_zero hs.params hd).symm.trans h
    exact writesWithin_cfgWritten (by simp [MayWrite, Instr.cfgNames])
  by_cases hlegal : Within 11 714 d ∧ Within 0 7 l ∧ Within 0 7 n
  · obtain ⟨hd, hl, hn⟩ := hlegal
    cases haf : s.af with
    | none => cases (execAutoplay_unset hd hl hn haf).symm.trans h
    | some f =>
      cases (execAutoplay_legal hs.params hd hl hn haf).symm.trans h
      exact writesWithin_cfgWritten (by simp [MayWrite, Instr.cfgNames, autoplayWrites])
  · cases (execAutoplay_illegal hd hlegal).symm.trans h
    exact writesWithin_rejected _ _ _

theorem exec_audioplay_writes (hs : s.Sound) {r g e q : Operand} (h : exec (.audioplay r g e q) s = .next t) :
    WritesWithin (.audioplay r g e q) s t := by
  by_cases hr : r = 0
  · cases (execAudioplay_zero hs.params hr).symm.trans h
    exact writesWithin_cfgWritten (by simp [MayWrite, Instr.cfgNames])
  by_cases hlegal : Within 46 11821 r ∧ Within 0 23 g
  · cases (execAudioplay_legal hs.params hlegal.1 hlegal.2).symm.trans h
    exact writesWithin_cfgWritten (by simp [MayWrite, Instr.cfgNames, audioplayWrites])
  · cases (execAudioplay_illegal hr hlegal).symm.trans h
    exact writesWithin_rejected _ _ _

theorem exec_blinkrate_writes (hs : s.Sound) {rateMs : Operand} (h : exec (.blinkrate rateMs) s = .next t) :
    WritesWithin (.blinkrate rateMs) s t := by
  by_cases hrate : 0 ≤ rateMs.toInt
  · cases (execBlinkrate_nonneg hs.params hrate).symm.trans h
    exact writesWithin_cfgWritten (by simp [MayWrite, Instr.cfgNames])
  · cases (execBlinkrate_negative (Int.not_le.mp hrate)).symm.trans h
    exact writesWithin_rejected _ _ _

theorem exec_blinkq_writes (hs : s.Sound) (h : exec .blinkq s = .next t) : WritesWithin .blinkq s t := by
  obtain ⟨u, hexec, -, -, hframe, -⟩ := blinkqEffect s hs
  cases hexec.symm.trans h
  exact hframe.mono fun _ => .inl

/-- FADE with both durations known. -/
theorem setFade_writes (hs : s.Sound) {fadeIn fadeOut : Option Operand} {pause i o : Operand}
    (h : setFade (.command (.fade fadeIn fadeOut pause)) i o pause s = .next t) :
    WritesWithin (.fade fadeIn fadeOut pause) s t := by
  simp only [setFade, cfgWrite_eq_cfgWritten hs.params, cfgWrite_cfgWritten hs.params] at h
  split at h
  · cases h
    exact writesWithin_cfgWritten (by simp [MayWrite, Instr.cfgNames])
  · cases h
    exact writesWithin_rejected _ _ _

theorem exec_fade_writes (hs : s.Sound) {fadeIn fadeOut : Option Operand} {pause : Operand}
    (h : exec (.fade fadeIn fadeOut pause) s = .next t) : WritesWithin (.fade fadeIn fadeOut pause) s t := by
  match fadeIn, fadeOut with
  | none, none =>
    obtain ⟨u, hexec, -, -, -, hframe, -⟩ := (fadeEffect s none none pause hs).1 rfl rfl
    cases hexec.symm.trans h
    exact hframe.mono fun l => Or.imp_right fun hl => ⟨.breath2, by simp [Instr.cfgNames], hl⟩
  | some i, none => exact setFade_writes hs h
  | none, some o => exact setFade_writes hs h
  | some i, some o => exact setFade_writes hs h

theorem exec_xlat_writes {x y : Operand} (h : exec (.xlat x y) s = .next t) : WritesWithin (.xlat x y) s t := by
  change execXlat x y s = .next t at h
  rw [execXlat] at h
  split at h <;> cases h <;> exact fun _ _ => rfl

/-- A frame operand names a frame, is bad, or is absent while AF is unset. -/
theorem frameOperand_cases (s : State) (frame : Option Operand) :
    (∃ f, NamesFrame s frame f) ∨ BadFrame frame ∨ frame = none ∧ s.af = none := by
  by_cases hbad : BadFrame frame
  · exact .inr (.inl hbad)
  · obtain ⟨fr, hfr⟩ := frame_passes hbad
    cases htarget : targetFrame fr s with
    | none => exact .inr (.inr (noTarget hfr htarget))
    | some f => exact .inl ⟨f, namesFrame_of_target hfr htarget⟩

theorem exec_fill_writes (hs : s.Sound) {frame color blink : Option Operand}
    (h : exec (.fill frame color blink) s = .next t) : WritesWithin (.fill frame color blink) s t := by
  by_cases hbad : BadFrame frame ∨ BadColor color
  · cases ((fillEffect s frame color blink hs).2 hbad).symm.trans h
    exact writesWithin_rejected _ _ _
  obtain ⟨hframe, hcolor⟩ := not_or.mp hbad
  obtain ⟨f, hf⟩ | hbad | ⟨rfl, haf⟩ := frameOperand_cases s frame
  · obtain ⟨u, hexec, -, -, -, -, hframe, -⟩ := (fillEffect s frame color blink hs).1 f hf (color_within hcolor)
    cases hexec.symm.trans h
    exact hframe.mono fun l => Or.imp_right fun hl => ⟨f, hf, hl.imp And.right And.right⟩
  · exact absurd hbad hframe
  · cases ((unsetActiveFrameRefuses s haf).1 color blink hcolor).symm.trans h

theorem exec_wraw_writes (hs : s.Sound) {frame : Option Operand} {payload : List Byte}
    (h : exec (.wraw frame payload) s = .next t) : WritesWithin (.wraw frame payload) s t := by
  by_cases hlen : payload.length ≤ 144
  · obtain ⟨f, hf⟩ | hbad | ⟨rfl, haf⟩ := frameOperand_cases s frame
    · obtain ⟨u, hexec, -, -, -, hframe, -⟩ := (wrawEffect s frame payload hs).1 f hf hlen
      cases hexec.symm.trans h
      exact hframe.mono fun l => Or.imp_right fun ⟨i, _, hl⟩ => ⟨f, hf, .inl ⟨i, hl⟩⟩
    · cases (execWraw_badFrame hlen hbad).symm.trans h
      exact writesWithin_rejected _ _ _
    · cases ((unsetActiveFrameRefuses s haf).2.1 payload hlen).symm.trans h
  · cases (execWraw_tooLong (Nat.not_le.mp hlen)).symm.trans h
    exact writesWithin_rejected _ _ _

theorem exec_setpx_writes (hs : s.Sound) {x y : Operand} {color blink frame : Option Operand}
    (h : exec (.setpx x y color blink frame) s = .next t) : WritesWithin (.setpx x y color blink frame) s t := by
  cases hxy : pixelOperands x y with
  | none =>
    change execSetpx x y color blink frame s = .next t at h
    rw [execSetpx, hxy] at h
    cases h
    exact fun _ _ => rfl
  | some p =>
    obtain ⟨st, u, rfl, rfl | ⟨f, c, hf, rfl⟩⟩ := execSetpx_next hxy h
    · exact fun _ _ => rfl
    · refine ((setPixel_frame _ f _ c blink hs).mono fun l => Or.imp_right ?_).respond st 0
      rintro (rfl | rfl)
      · exact ⟨f, hf, .inl ⟨_, rfl⟩⟩
      · exact ⟨f, hf, .inr ⟨_, rfl⟩⟩

theorem exec_frame_writes (hs : s.Sound) {frame : Operand} (h : exec (.frame frame) s = .next t) :
    WritesWithin (.frame frame) s t := by
  by_cases hf : Within 0 7 frame
  · obtain ⟨f, hf, -⟩ := exists_frame_of_within hf
    obtain ⟨u, hexec, -, -, -, -, hframe, -⟩ := (frameEffect s frame hs).1 f hf
    cases hexec.symm.trans h
    exact hframe.mono fun l => Or.imp_right fun hl => ⟨.frame, by simp [Instr.cfgNames], hl⟩
  · cases (execFrame_outside hf).symm.trans h
    exact writesWithin_rejected _ _ _

/-- Every command writes within its locations. -/
theorem exec_writes {i : Instr} (hs : s.Sound) (hi : i.isCommand = true) (h : exec i s = .next t) :
    WritesWithin i s t := by
  cases i with
  | selb bank => exact exec_selb_writes h
  | rdr bank reg => exact exec_rdr_writes h
  | wrr bank reg value => exact exec_wrr_writes hs h
  | reset => exact exec_reset_writes hs h
  | init => exact fun l hl => absurd (.inr trivial) hl
  | sleep enable => exact exec_sleep_writes hs h
  | autoplay delayMs loops frames => exact exec_autoplay_writes hs h
  | audioplay rate gain agcEnable agcFast => exact exec_audioplay_writes hs h
  | blinkrate rateMs => exact exec_blinkrate_writes hs h
  | blinkq => exact exec_blinkq_writes hs h
  | fade fadeIn fadeOut pauseMs => exact exec_fade_writes hs h
  | xlat x y => exact exec_xlat_writes h
  | fill frame color blink => exact exec_fill_writes hs h
  | wraw frame payload => exact exec_wraw_writes hs h
  | setpx x y color blink frame => exact exec_setpx_writes hs h
  | frame frame => exact exec_frame_writes hs h
  | bwr dev reg data => exact absurd hi Bool.false_ne_true
  | brd dev reg n => exact absurd hi Bool.false_ne_true

/-- A location that changed is BSR or one the command may write. -/
theorem mayWrite_of_changed {i : Instr} {l : Loc} (hs : s.Sound) (hi : i.isCommand = true) (h : exec i s = .next t)
    (hl : t.get l ≠ s.get l) : l = .bsr ∨ MayWrite s l i :=
  by_contra fun hnot => hl (exec_writes hs hi h l hnot)

end

/-! ### Frames -/

theorem NamesFrame.unique {s : State} {frame : Option Operand} {f g : Fin 8} (h : NamesFrame s frame f)
    (h' : NamesFrame s frame g) : f = g := by
  obtain ⟨fr, hfr, hf⟩ := namesFrame_target h
  obtain ⟨gr, hgr, hg⟩ := namesFrame_target h'
  cases hfr.symm.trans hgr
  exact Option.some.inj (hf.symm.trans hg)

theorem Loc.InFrame.unique {l : Loc} {f g : Fin 8} (h : l.InFrame f) (h' : l.InFrame g) : f = g := by
  cases l with
  | en => exact h.symm.trans h'
  | bl => exact h.symm.trans h'
  | int => exact h.symm.trans h'
  | _ => exact h.elim

/-- No frame's register is BSR. -/
theorem Loc.InFrame.ne_bsr {l : Loc} {f : Fin 8} (h : l.InFrame f) : l ≠ .bsr := by
  rintro rfl
  exact h

/-- A command but INIT writes to one frame at most: the one its operand names, or the one of its only register. -/
theorem MayWrite.one_frame {s : State} {i : Instr} (hi : i ≠ .init) {l m : Loc} {f g : Fin 8} (hl : MayWrite s l i)
    (hm : MayWrite s m i) (hf : l.InFrame f) (hg : m.InFrame g) : f = g := by
  have hplanes : ∀ {frame : Option Operand} {l : Loc} {f : Fin 8}, l.InFrame f →
      (∃ f, NamesFrame s frame f ∧ ((∃ i, l = .int f i) ∨ ∃ k, l = .bl f k)) → NamesFrame s frame f := by
    rintro frame l f hf ⟨f', hnames, ⟨i, rfl⟩ | ⟨k, rfl⟩⟩
    · exact hf ▸ hnames
    · exact hf ▸ hnames
  cases i with
  | init => exact absurd rfl hi
  | wrr bank reg value =>
    cases hl.trans hm.symm
    exact hf.unique hg
  | fill frame color blink => exact (hplanes hf hl).unique (hplanes hg hm)
  | wraw frame payload => exact (hplanes hf hl).unique (hplanes hg hm)
  | setpx x y color blink frame => exact (hplanes hf hl).unique (hplanes hg hm)
  | _ =>
    obtain ⟨n, -, rfl⟩ := hl
    exact hf.elim

/-- Settles O49: two frames that changed are one. -/
theorem framesIndependent : Obligations.FramesIndependent := by
  intro i s t f g hs hi hinit h hfg hchanged
  obtain ⟨l, hl, hlne⟩ := hchanged
  intro m hm
  by_contra hmne
  have hl' := (mayWrite_of_changed hs hi h hlne).resolve_left hl.ne_bsr
  have hm' := (mayWrite_of_changed hs hi h hmne).resolve_left hm.ne_bsr
  exact hfg (hl'.one_frame hinit hm' hl hm)

/-- Settles O50: an enable byte is no configuration register, and FILL, WRAW and SETPX write the other two planes. -/
theorem enableMaskWriters : Obligations.EnableMaskWriters := by
  intro i s t hs hi h hchanged
  obtain ⟨f, k, hne⟩ := hchanged
  have hget : t.get (.en f k) ≠ s.get (.en f k) := fun heq => hne (en_of_get heq)
  have hwrite := (mayWrite_of_changed hs hi h hget).resolve_left nofun
  cases i with
  | init => exact .inl rfl
  | wrr bank reg value => exact .inr ⟨bank, reg, value, rfl⟩
  | _ => simp [MayWrite] at hwrite

/-! ### LState -/

/-- What may write a configuration register. -/
theorem MayWrite.cfg_cases {s : State} {i : Instr} {n : CfgName} (h : MayWrite s (.cfg n) i) :
    i = .init ∨ (∃ b r v, i = .wrr b r v ∧ r.setWidth 8 = n.offset s.params) ∨ n ∈ Instr.cfgNames i := by
  cases i with
  | init => exact .inl rfl
  | wrr bank reg value => exact .inr (.inl ⟨bank, reg, value, rfl, (resolve_eq_cfg h.symm).2⟩)
  | fill frame color blink => simp [MayWrite] at h
  | wraw frame payload => simp [MayWrite] at h
  | setpx x y color blink frame => simp [MayWrite] at h
  | _ =>
    obtain ⟨m, hm, hn⟩ := h
    cases hn
    exact .inr (.inr hm)

/-- LState changes only if the mode or the shutdown register does. -/
theorem lstate_changed {s t : State} (hp : t.params = s.params) (h : t.lstate ≠ s.lstate) :
    ∃ n, (n = .mode ∨ n = .shutdown) ∧ t.get (.cfg n) ≠ s.get (.cfg n) := by
  by_contra hnot
  push Not at hnot
  have hmode : t.cfg.mode = s.cfg.mode := Option.some.inj (hnot .mode (.inl rfl))
  have hshutdown : t.cfg.shutdown = s.cfg.shutdown := Option.some.inj (hnot .shutdown (.inr rfl))
  apply h
  simp only [State.lstate, State.mode, hp, hmode, hshutdown]

/-- The commands that write the mode or the shutdown register at its own address. -/
theorem cfgNames_mode_or_shutdown {i : Instr} {n : CfgName} (hn : n = .mode ∨ n = .shutdown)
    (h : n ∈ Instr.cfgNames i) :
    i = .reset ∨ (∃ e, i = .sleep e) ∨ (∃ d l n, i = .autoplay d l n) ∨ ∃ r g e q, i = .audioplay r g e q := by
  cases i with
  | reset => exact .inl rfl
  | sleep e => exact .inr (.inl ⟨e, rfl⟩)
  | autoplay d l n => exact .inr (.inr (.inl ⟨d, l, n, rfl⟩))
  | audioplay r g e q => exact .inr (.inr (.inr ⟨r, g, e, q, rfl⟩))
  | _ => obtain rfl | rfl := hn <;> simp [Instr.cfgNames] at h

/-- Settles O54: the command wrote the mode or the shutdown register. -/
theorem lifecycleUnchangedByOthers : Obligations.LifecycleUnchangedByOthers := by
  intro i s t hs hi h hne
  obtain ⟨n, hn, hget⟩ := lstate_changed (exec_command_keeps hi h).1.params hne
  have hwrite := (mayWrite_of_changed hs hi h hget).resolve_left nofun
  obtain rfl | ⟨b, r, v, rfl, hr⟩ | hnames := hwrite.cfg_cases
  · exact .inr (.inl rfl)
  · refine .inr (.inr (.inr (.inr (.inr ⟨b, r, v, rfl, ?_⟩))))
    obtain rfl | rfl := hn
    · exact .inl hr
    · exact .inr hr
  · obtain rfl | hsleep | hautoplay | haudioplay := cfgNames_mode_or_shutdown hn hnames
    · exact .inl rfl
    · exact .inr (.inr (.inl hsleep))
    · exact .inr (.inr (.inr (.inl hautoplay)))
    · exact .inr (.inr (.inr (.inr (.inl haudioplay))))

/-! ### LState after the commands that can change it -/

section
variable {s t : State}

theorem mode_pictureMode (hm : s.params.ModesInField) (h : s.cfg.mode = s.params.modePicture) :
    s.mode = some .pictureMode := by
  simp only [State.mode, h, hm.picture, if_true]

theorem mode_audioplayMode (hp : s.params.Ok) (hm : s.params.ModesInField) (h : s.cfg.mode = s.params.modeAudioplay) :
    s.mode = some .audioplayMode := by
  have hpicture := hp.picture_audioplay
  have hautoplay := hp.autoplay_audioplay
  rw [hm.picture, hm.audioplay] at hpicture
  rw [hm.autoplay, hm.audioplay] at hautoplay
  simp only [State.mode, h, hm.audioplay, if_neg hpicture.symm, if_neg hautoplay.symm, if_true]

/-- The frame in the low bits lies outside the mode field. -/
theorem frameBank_and_modeMask {p : Params} (hp : p.Ok) (f : Fin 8) : frameBank f &&& p.modeMask = 0 := by
  have hlow : frameBank f = frameBank f &&& 0x07 := by
    revert f
    decide
  rw [hlow, BitVec.and_assoc, BitVec.and_comm 0x07, hp.mask_low]
  exact BitVec.and_zero

theorem mode_autoplayMode (hp : s.params.Ok) (hm : s.params.ModesInField) {f : Fin 8}
    (h : s.cfg.mode = s.params.modeAutoplay ||| frameBank f) : s.mode = some .autoplayMode := by
  have hfield : (s.params.modeAutoplay ||| frameBank f) &&& s.params.modeMask = s.params.modeAutoplay := by
    rw [BitVec.and_comm, BitVec.and_or_distrib_left, BitVec.and_comm, hm.autoplay, BitVec.and_comm,
      frameBank_and_modeMask hp]
    exact BitVec.or_zero
  have hpicture := hp.picture_autoplay
  rw [hm.picture, hm.autoplay] at hpicture
  simp only [State.mode, h, hfield, if_neg hpicture.symm, if_true]

theorem lstate_sleeping_iff : s.lstate = some .sleeping ↔ s.cfg.shutdown = s.params.shutdownOn := by
  have hmode : s.mode ≠ some .sleeping := by
    rw [State.mode]
    split_ifs <;> simp
  rw [State.lstate]
  split
  next h => exact iff_of_true rfl h
  next h => exact iff_of_false hmode h

theorem lstate_awake (h : s.cfg.shutdown ≠ s.params.shutdownOn) : s.lstate = s.mode := if_neg h

/-- A command that sets the mode and not the shutdown register. -/
theorem lstate_of_mode (hp : t.params = s.params) (hshutdown : t.cfg.shutdown = s.cfg.shutdown) {m : LState}
    (hm : t.mode = some m) : t.lstate = if s.lstate = some .sleeping then some .sleeping else some m := by
  rw [State.lstate, hp, hshutdown, hm]
  exact if_congr lstate_sleeping_iff.symm rfl rfl

/-- What the table of R128 says of a command that sets the mode to `m`. -/
theorem exec_sets_mode {i : Instr} {m : LState} (hexec : exec i s = .next t) (hp : t.params = s.params)
    (hshutdown : t.cfg.shutdown = s.cfg.shutdown) (hm : t.mode = some m) :
    ∃ t, exec i s = .next t ∧ t.mode = some m ∧
      t.lstate = if s.lstate = some .sleeping then some .sleeping else some m :=
  ⟨t, hexec, hm, lstate_of_mode hp hshutdown hm⟩

end

/-- Settles O53: of each command the bytes it leaves in the mode and the shutdown register. -/
theorem lifecycleTransitions : Obligations.LifecycleTransitions := by
  intro s hs hm
  have hoff : s.params.shutdownOff ≠ s.params.shutdownOn := hs.params.shutdown_distinct.symm
  refine ⟨⟨_, execReset_eq hs.params, lstate_awake hoff, rfl⟩, ?init, fun e he => ?sleep, ?wake, fun l n => ?autoplay0,
    fun d l n f haf hd hl hn => ?autoplay, fun g e q => ?audioplay0, fun r g e q hr hg => ?audioplay⟩
  case init =>
    have hparams : (respond .ok 0 (initDone s)).params = s.params :=
      (respond_params ..).trans (initDone_emits hs).params
    have hmode : (respond .ok 0 (initDone s)).cfg.mode = (respond .ok 0 (initDone s)).params.modePicture := by
      rw [hparams, respond_cfg, initDone_cfg hs]
      rfl
    have hshutdown : (respond .ok 0 (initDone s)).cfg.shutdown = s.cfg.shutdown := by
      rw [respond_cfg, initDone_cfg hs]
      rfl
    exact exec_sets_mode (execInit_eq hs) hparams hshutdown (mode_pictureMode (hparams.symm ▸ hm) hmode)
  case sleep => exact ⟨_, execSleep_eq hs.params e, lstate_sleeping_iff.mpr (if_neg he), rfl⟩
  case wake => exact ⟨_, execSleep_eq hs.params 0, lstate_awake hoff, rfl⟩
  case autoplay0 =>
    exact exec_sets_mode (execAutoplay_zero hs.params rfl) rfl rfl (mode_pictureMode hm rfl)
  case autoplay =>
    exact exec_sets_mode (execAutoplay_legal hs.params hd hl hn haf) rfl rfl (mode_autoplayMode hs.params hm rfl)
  case audioplay0 =>
    exact exec_sets_mode (execAudioplay_zero hs.params rfl) rfl rfl (mode_pictureMode hm rfl)
  case audioplay =>
    exact exec_sets_mode (execAudioplay_legal hs.params hr hg) rfl rfl (mode_audioplayMode hs.params hm rfl)

end Sys2Proof.Machine
end

section
/-! PROOFS of the statements about runs of a few steps: boot from power-on (10_state.md section 7), and the
bank-selection hazard between two masters of the bus (70_reset_and_hazards.md section 3). -/

namespace Sys2Proof.Machine

/-! ### Boot -/

/-- A command whose encoding heads the port runs in the BRP's turn. -/
theorem step_encoded {s : State} {i : Instr} {rest : List Byte} (hph : s.ph = .idle) (hagenda : s.agenda = [])
    (hport : s.cmdPort = encode i ++ rest) (hwf : i.wf = true) (hi : i.isCommand = true) :
    step s = exec i (accept rest { s with agenda := [] }) :=
  step_decoded hph (.inl ⟨hagenda, rfl⟩) (hport ▸ commandRoundTrip i rest hwf hi)

/-- The state after the step that runs RESET. -/
def resetDone (s : State) : State :=
  respond .ok 0 ((accept (encode .init) { s with agenda := [] }).cfgWritten (.command .reset)
    [(.shutdown, s.params.shutdownOn), (.shutdown, s.params.shutdownOff)])

/-- The state in which INIT starts. -/
def initAccepted (s : State) : State := accept [] { resetDone s with agenda := [] }

/-- Settles O56: RESET by its equation, INIT by what it leaves in the planes, the configuration bank and AF. -/
theorem bootEstablishesKnownState : Obligations.BootEstablishesKnownState := by
  intro s hs hm hagenda hport
  have hsound : (initAccepted s).Sound := ⟨hs.params, hs.memory⟩
  have hreset : step s = .next (resetDone s) :=
    (step_encoded (i := .reset) hs.ph hagenda hport rfl rfl).trans (execReset_eq hs.params)
  have hinit : step (resetDone s) = .next (respond .ok 0 (initDone (initAccepted s))) :=
    (step_encoded (i := .init) (rest := []) rfl rfl (List.append_nil _).symm rfl rfl).trans (execInit_eq hsound)
  have hplanes := initDone_planes hsound
  have hemits := initDone_emits hsound
  have hcfg := initDone_cfg hsound
  have hbsr := initDone_bsr hsound
  generalize initDone (initAccepted s) = u at *
  have hparams : u.params = s.params := hemits.params
  refine ⟨_, _, hreset, hinit, fun f => (hplanes f).1, fun f => (hplanes f).2.1, fun f => (hplanes f).2.2, hcfg,
    hemits.af, hbsr, ?lstate, rfl, hemits.cmdPort, ?tr, ?responses⟩
  case lstate =>
    have hawake : u.cfg.shutdown ≠ u.params.shutdownOn := by
      rw [hparams, hcfg]
      exact hs.params.shutdown_distinct.symm
    have hmode : u.cfg.mode = u.params.modePicture := by
      rw [hparams, hcfg]
      rfl
    exact (lstate_awake hawake).trans (mode_pictureMode (hparams.symm ▸ hm) hmode)
  case tr =>
    have htr : (initAccepted s).tr.length = 4 := by
      simp [initAccepted, resetDone, State.cfgWritten, accept, hs.tr, cfgOps, cfgWriteOps, regWriteOps]
    rw [respond_tr, hemits.tr, List.length_append, List.length_map, initOps_length, htr]
  case responses =>
    rw [respond_responses, hemits.responses]
    exact List.append_assoc ..

/-! ### Two masters on the bus -/

/-- The state after another master wrote the byte `v` at pointer address `reg` in its turn. -/
def State.written (s : State) (later : List Event) (reg v : Byte) : State :=
  State.put { s with agenda := later, ptr := none, tr := s.tr ++ [⟨.busMaster, .bwr s.params.devAddr reg [v]⟩] }
    (resolve s.params s.bsr reg) v

/-- The state after another master selected bank `b` in its turn. -/
def State.selected (s : State) (later : List Event) (b : Byte) : State :=
  { s with agenda := later, ptr := none, bsr := b, tr := s.tr ++ [⟨.busMaster, selectOp s.params b⟩] }

section
variable {s : State} {bytes : List Byte} {later : List Event}

theorem step_writeRecord {reg v : Byte} (hph : s.ph = .idle) (hagenda : s.agenda = .bus bytes :: later)
    (hdecode : decodeRecord bytes = .ok (.bwr s.params.devAddr reg [v])) :
    step s = .next (s.written later reg v) :=
  (step_record hph hagenda hdecode).trans
    (congrArg Host.Outcome.next (memWrite_one .busMaster reg v { s with agenda := later }))

theorem step_selectRecord {b : Byte} (hph : s.ph = .idle) (hagenda : s.agenda = .bus bytes :: later)
    (hdecode : decodeRecord bytes = .ok (.bwr s.params.devAddr s.params.bankAddress [b])) :
    step s = .next (s.selected later b) := by
  rw [step_writeRecord hph hagenda hdecode, State.written, resolve_bank]
  rfl

end

/-- Settles O60: B's select stands between A's select and A's write, which therefore lands in the mode register. -/
theorem bankInterferenceReachable : Obligations.BankInterferenceReachable := by
  intro s hinv hp hshutdown hagenda
  have hselect : ∀ b, decodeRecord [0xE8, 0xFD, b] = .ok (.bwr s.params.devAddr s.params.bankAddress [b]) := by
    rw [hp]
    exact fun _ => rfl
  have hwrite : decodeRecord [0xE8, 0x00, 0xFF] = .ok (.bwr s.params.devAddr 0x00 [0xFF]) := by
    rw [hp]
    rfl
  have hmode : resolve s.params 0x0B 0x00 = .cfg .mode := by
    rw [hp]
    exact resolve_cfg defaultParams_ok .mode
  refine ⟨_, _, _, step_selectRecord hinv.ph hagenda (hselect 0x00), step_selectRecord hinv.ph rfl (hselect 0x0B),
    step_writeRecord hinv.ph rfl hwrite, ?_⟩
  simp only [State.written, State.selected, hmode, State.put, CfgBank.set]
  refine ⟨trivial, ?lstate, trivial, rfl⟩
  case lstate =>
    simp only [State.lstate, State.mode, hp, hshutdown]
    decide

end Sys2Proof.Machine
end
